-- ==== Sys2Proof/Word.lean ====
section
/-! DEFINITION. The value types of the MFL: bytes, 32-bit register words, 16-byte blocks and keys, 8-byte nonces
(spec/00_scope.md R7, R13). -/

namespace Sys2Proof

/-- A byte: an unsigned integer 0..255, bit 7 the most significant (R13, R14). -/
abbrev Byte := BitVec 8

/-- A 32-bit register (`ILEN`, `OLEN`, `NBLK`, `N`, `IDX`). -/
abbrev Word := BitVec 32

/-- A block: a byte sequence of length 16 (R7, R13). -/
abbrev Block := Vector Byte 16

/-- A key: a byte sequence of length 16 (R7, R13). -/
abbrev Key := Block

/-- A nonce: a byte sequence of length 8 (R7, R13). -/
abbrev Nonce := Vector Byte 8

/-- Sixteen bytes 0x00. -/
def zeroBlock : Block := Vector.replicate 16 0

/-- Eight bytes 0x00. -/
def zeroNonce : Nonce := Vector.replicate 8 0

end Sys2Proof
end

