-- ==== Sys2Proof/Config.lean ====
section
/-! DEFINITION. What an implementation fixes (`CAP_BYTES`, `CTR_ENDIAN`, `STRICT_RESET`) and the free values: the
external cipher and the draws of the random source (spec/00_scope.md R8 to R11; spec/20_memory.md R80, R84). -/

namespace Sys2Proof

/-- The two operations of the cipher port (R80): `encrypt_block` and `decrypt_block`. -/
inductive CipherOp where
  | enc
  | dec
  deriving DecidableEq, Repr

/-- The two values of the configuration constant `CTR_ENDIAN` (R10). -/
inductive Endian where
  | be
  | le
  deriving DecidableEq, Repr

/-- One answer of the random source (R84): `fail`, or `ok` with the bytes delivered. `data` is the 16-byte payload of
the port; a request for 8 bytes uses its first eight (R87: bits 127:64 are then ignored). DEDUCED, safe: log 16. -/
inductive RandomAnswer where
  | fail
  | ok (data : Block)
  deriving DecidableEq, Repr, Inhabited

/-- The open parameters of one MFL (R8, R10). They never change while it runs. -/
structure Params where
  /-- `CAP_BYTES`, the capacity in bytes of `IBUF` and of `OBUF` (R8). -/
  capBytes : Nat
  /-- `CTR_ENDIAN`, the byte order of the counter inside the counter block (R10). -/
  ctrEndian : Endian
  deriving DecidableEq, Repr

/-- The parameters `State.reset` holds: `CTR_ENDIAN = BE` is R10's value; `CAP_BYTES = 64` is a DESIGN CHOICE, unsafe
(log 2): the capacity the programs of spec/95_test_vectors.md Part 3 use. -/
def Config.params : Params := { capBytes := 64, ctrEndian := .be }

/-- `STRICT_RESET = 1` as the reset value of `CTRL` (R11, R50). -/
def Config.ctrlReset : Byte := 0x01

/-- FREE VALUE: the answer of the external cipher, a total pure function of `(op, block, key)` of which nothing is
assumed (R9, R83). Log 3. -/
opaque Config.cipher : CipherOp → Block → Key → Block

/-- FREE VALUE: the `k`-th answer of the random source where `State` holds no script for it (R84). Log 4. -/
opaque Config.draw : Nat → RandomAnswer

end Sys2Proof
end

