-- ==== Sys2Proof/Syntax.lean ====
section
/-! DEFINITION. The eleven commands (spec/30_encoding.md R100, spec/opcode_table.json), the host's accesses
(spec/20_memory.md R66) and the host notation (spec/30_encoding.md R106, R107). -/

namespace Sys2Proof

/-- One constructor per row of spec/opcode_table.json; a command has no operand field (R104). -/
inductive Instr where
  /-- `PAD` (R124) -/
  | pad
  /-- `UNPAD` (R125) -/
  | unpad
  /-- `GROUP` (R143) -/
  | group
  /-- `UNGROUP` (R144) -/
  | ungroup
  /-- `XOR` (R145) -/
  | xor
  /-- `ECB_ENC` (R160) -/
  | ecbEnc
  /-- `ECB_DEC` (R161) -/
  | ecbDec
  /-- `CBC_ENC` (R170) -/
  | cbcEnc
  /-- `CBC_DEC` (R173) -/
  | cbcDec
  /-- `CTR_ENC` (R193) -/
  | ctrEnc
  /-- `CTR_DEC` (R194) -/
  | ctrDec
  deriving DecidableEq, Repr

/-- The four address spaces (R60). -/
inductive Space where
  | reg
  | ibuf
  | obuf
  | blk
  deriving DecidableEq, Repr

/-- One host access, exactly one byte wide (R65, R66); the primitive statements `WR` and `RD` (R106). -/
inductive Access where
  | write (space : Space) (addr : Nat) (v : Byte)
  | read (space : Space) (addr : Nat)
  deriving DecidableEq, Repr

/-- The statements of the host notation (R106, R107). -/
inductive Stmt where
  /-- `WR <space> <addr> <byte>`, `RD <space> <addr>` -/
  | access (a : Access)
  /-- `<MNEMONIC>` -/
  | command (i : Instr)
  /-- `WAIT` -/
  | wait
  /-- `RUN <MNEMONIC>` -/
  | run (i : Instr)
  /-- `STRICT <0 or 1>` -/
  | strict (b : Bool)
  /-- `SETILEN <n>` -/
  | setIlen (n : Nat)
  /-- `SETNBLK <n>` -/
  | setNblk (n : Nat)
  /-- `LOADI <hex>` -/
  | loadI (bytes : List Byte)
  /-- `LOADK <hex of 16 bytes>` -/
  | loadK (bytes : List Byte)
  /-- `LOADA <hex of 16 bytes>` -/
  | loadA (bytes : List Byte)
  /-- `LOADB <hex of 16 bytes>` -/
  | loadB (bytes : List Byte)
  /-- `LOADBLK <j> <hex of 16 bytes>` -/
  | loadBlk (j : Nat) (bytes : List Byte)
  /-- `GETOLEN` -/
  | getOlen
  /-- `GETNBLK` -/
  | getNblk
  /-- `GETO` -/
  | getO
  /-- `GETC` -/
  | getC
  /-- `COPYOI` -/
  | copyOI
  /-- `FLIPI <addr> <mask>` -/
  | flipI (addr : Nat) (mask : Byte)
  deriving DecidableEq, Repr

end Sys2Proof
end

