-- ==== Sys2Proof/WellFormed.lean ====
section
/-! DEFINITION. Which terms of the syntax are well formed. A command has no operand, so every `Instr` is; the checks
are on the parameters (spec/00_scope.md R8) and on the operands of the host notation (spec/30_encoding.md R107). -/

namespace Sys2Proof

/-- Every command is well formed: it has no operand field and no immediate (R104). -/
def Instr.wf : Instr → Bool
  | .pad | .unpad | .group | .ungroup | .xor => true
  | .ecbEnc | .ecbDec | .cbcEnc | .cbcDec | .ctrEnc | .ctrDec => true

/-- `64 <= CAP_BYTES < 2^32` (R8). -/
def Params.wf (p : Params) : Bool := decide (64 ≤ p.capBytes) && decide (p.capBytes < 2 ^ 32)

/-- The operand of a statement fits what R107 expands it to: a length fits `le32`, a `<hex of 16 bytes>` has sixteen. -/
def Stmt.wf : Stmt → Bool
  | .setIlen n | .setNblk n => decide (n < 2 ^ 32)
  | .loadI bytes => decide (bytes.length < 2 ^ 32)
  | .loadK bytes | .loadA bytes | .loadB bytes | .loadBlk _ bytes => bytes.length == 16
  | .access _ | .command _ | .wait | .run _ | .strict _ | .getOlen | .getNblk | .getO | .getC | .copyOI
  | .flipI _ _ => true

end Sys2Proof
end

