-- ==== Sys2Proof/Decode.lean ====
section
/-! DEFINITION. Decoding a command byte by whole-byte match, and the encoder (spec/30_encoding.md R100 to R105). -/

namespace Sys2Proof

/-- A row of the opcode table: the byte matches when `byte AND mask = pattern` (R101; spec/opcode_table.json). -/
structure OpcodeRow where
  instr : Instr
  mask : Byte
  pattern : Byte
  deriving DecidableEq, Repr

/-- The opcode table (R100), every row matching on all bits (R101). -/
def opcodeTable : List OpcodeRow :=
  [⟨.pad, 0xFF, 0x01⟩, ⟨.unpad, 0xFF, 0x02⟩, ⟨.group, 0xFF, 0x03⟩, ⟨.ungroup, 0xFF, 0x04⟩, ⟨.xor, 0xFF, 0x05⟩] ++
  [⟨.ecbEnc, 0xFF, 0x10⟩, ⟨.ecbDec, 0xFF, 0x11⟩, ⟨.cbcEnc, 0xFF, 0x20⟩, ⟨.cbcDec, 0xFF, 0x21⟩] ++
  [⟨.ctrEnc, 0xFF, 0x30⟩, ⟨.ctrDec, 0xFF, 0x31⟩]

/-- Why the decoder rejects. -/
inductive DecodeReject where
  /-- there is no byte to decode -/
  | noByte
  /-- the byte is none of the eleven opcodes (R105) -/
  | illegalOpcode (b : Byte)
  deriving DecidableEq, Repr

/-- The command a byte encodes, if any (R101, R105). -/
def decodeByte (b : Byte) : Option Instr :=
  (opcodeTable.find? fun r => decide (b &&& r.mask = r.pattern)).map OpcodeRow.instr

/-- Decode the first command of a byte sequence, with the rest of it; rejects by name. -/
def decode : List Byte → Except DecodeReject (Instr × List Byte)
  | [] => .error .noByte
  | b :: rest =>
    match decodeByte b with
    | some i => .ok (i, rest)
    | none => .error (.illegalOpcode b)

/-- The opcode byte of a command (R100). -/
def opcodeOf : Instr → Byte
  | .pad => 0x01
  | .unpad => 0x02
  | .group => 0x03
  | .ungroup => 0x04
  | .xor => 0x05
  | .ecbEnc => 0x10
  | .ecbDec => 0x11
  | .cbcEnc => 0x20
  | .cbcDec => 0x21
  | .ctrEnc => 0x30
  | .ctrDec => 0x31

/-- The bytes of a command: one byte, format `CMD8` (R101, R103). -/
def encode (i : Instr) : List Byte := [opcodeOf i]

/-- `k` commands decoded one after another from a byte sequence, with the rest of it. -/
def decodeMany : Nat → List Byte → Except DecodeReject (List Instr × List Byte)
  | 0, bytes => .ok ([], bytes)
  | k + 1, bytes =>
    match decode bytes with
    | .error e => .error e
    | .ok (i, rest) =>
      match decodeMany k rest with
      | .error e => .error e
      | .ok (is, rest') => .ok (i :: is, rest')

/-- The bytes of a table word: byte `k` is its bits `8k+7 : 8k`, the bits from `nbits` on are 0, and there is at least
the one byte a command has. -/
def tableWordBytes (nbits w : Nat) : List Byte :=
  (List.range (max 1 (nbits / 8))).map fun k => BitVec.ofNat 8 (w % 2 ^ nbits / 2 ^ (8 * k))

/-- What the decoder reads from an instruction word numbered as spec/opcode_table.json numbers it. -/
def decodeTableWord (nbits w : Nat) : Option Instr :=
  match decode (tableWordBytes nbits w) with
  | .ok (i, _) => some i
  | .error _ => none

end Sys2Proof
end

