-- ==== Sys2Proof/Machine/State.lean ====
section
/-! DEFINITION. The state of the MFL as plain data (spec/10_state.md), the reasons a step can stop, and the state
after reset (R50, R52). -/

namespace Sys2Proof.Machine

/-- The sequencer's position (R41, R211). -/
inductive Phase where
  | idle
  | check
  | rand
  | block
  | final
  deriving DecidableEq, Repr

/-- A request the MFL makes on one of its two ports (R80, R84). -/
inductive PortRequest where
  /-- cipher port: `(op, block, key)` -/
  | cipher (op : CipherOp) (block : Block) (key : Key)
  /-- random port: `n` bytes, 16 or 8 -/
  | random (n : Nat)
  deriving DecidableEq, Repr

/-- The request a port is waiting on: whether the collaborator has taken it yet (its request transfer, R87) or it still
stands on the port. At the level of whole transactions no request transfer is seen, and it stays `false` (log 21). -/
structure Waiting where
  request : PortRequest
  accepted : Bool
  deriving DecidableEq, Repr

/-- How many answers each collaborator still owes to requests it took before a reset (R271; log 21). -/
structure LateAnswers where
  cipher : Nat
  random : Nat
  deriving DecidableEq, Repr

/-- One known answer of the cipher: `E(block, key)` or `D(block, key)`. -/
structure CipherEntry where
  op : CipherOp
  block : Block
  key : Key
  answer : Block
  deriving DecidableEq, Repr

/-- The external cipher as the model sees it (log 3): the answers known of it, every other answer being the free value
`Config.cipher`, and whether it answers at all (R86). -/
structure CipherPort where
  known : List CipherEntry
  live : Bool
  deriving DecidableEq, Repr

/-- The random source as the model sees it (log 4): a script of the answers to the coming requests, the answers after
it being the free values `Config.draw count`, and whether it answers at all (R86). -/
structure RandomPort where
  script : List RandomAnswer
  count : Nat
  live : Bool
  deriving DecidableEq, Repr

/-- The payload of the host interface (R87). -/
structure HostPins where
  hWrite : Bool
  hSpace : BitVec 2
  hAddr : BitVec 32
  hWdata : Byte
  deriving DecidableEq, Repr

/-- The payload of a cipher request (R87): `c_req_dec`, `c_req_block`, `c_req_key`. -/
structure CipherPins where
  cReqDec : Bool
  cReqBlock : BitVec 128
  cReqKey : BitVec 128
  deriving DecidableEq, Repr

/-- The payload of a random request (R87): `r_req_len16`, 0 asks 8 bytes, 1 asks 16. -/
structure RandomPins where
  rReqLen16 : Bool
  deriving DecidableEq, Repr

/-- The payload of a random answer (R87). -/
structure RandomRspPins where
  rRspFail : Bool
  rRspData : BitVec 128
  deriving DecidableEq, Repr

/-- The MFL's input signals at one rising edge of `clk` (R87). -/
structure InputPins where
  rst : Bool
  hValid : Bool
  host : HostPins
  cReqReady : Bool
  cRspValid : Bool
  cRspBlock : BitVec 128
  rReqReady : Bool
  rRspValid : Bool
  rRsp : RandomRspPins
  deriving DecidableEq, Repr

/-- What the spec leaves to the MFL's own timing at that edge (R87, R294; log 14): whether it raises the three `ready`
signals it drives, and whether the running command goes one step on. -/
structure MflTiming where
  hReady : Bool
  cRspReady : Bool
  rRspReady : Bool
  advance : Bool
  deriving DecidableEq, Repr

/-- What reaches the machine next (log 6). -/
inductive Move where
  /-- one host access (R66, R69) -/
  | host (a : Access)
  /-- the reset input (R270) -/
  | reset
  /-- the MFL is left alone: a running command runs on to its end, or to where it waits -/
  | mfl
  /-- one step of the sequencer (R212 to R218) -/
  | mflStep
  /-- from now on the cipher and the random source answer, or do not (R86) -/
  | answering (cipher random : Bool)
  /-- one rising edge of `clk` in the signal-level binding (R87) -/
  | edge (pins : InputPins) (timing : MflTiming)
  deriving DecidableEq, Repr

/-- The contents of a buffer: byte cells by address, addresses strictly rising, no cell equal to what an unlisted
address reads as (`Memory.wf`). -/
abbrev Memory := List Host.Cell

/-- Why the machine stops with a fault. -/
inductive Fault where
  /-- `PHASE` and `OPC` contradict each other, so that no rule enables a step (R213 to R217 give none): raised by the
  sequencer step. No run reaches such a state. Safe (log 12). -/
  | noStepEnabled
  deriving DecidableEq, Repr

/-- Why the machine has no meaning for an instruction. -/
inductive Refusal where
  /-- an arm of `exec` without a meaning; no arm answers it. Safe. -/
  | notModelled (mnemonic : String)
  deriving DecidableEq, Repr

/-- The complete state (R20), the parameters R20 calls parameters of the step relation, and the outside world's side of
the ports (the model's own fields). -/
structure State where
  /-- `OPC`, read through `CMD` (R24, R40) -/
  opc : Byte
  /-- `CTRL`, bit 0 `STRICT` (R25) -/
  ctrl : Byte
  /-- `STATUS`: `BUSY`, `DONE`, `PADINV`, `ERR` (R26) -/
  status : Byte
  /-- `ILEN` (R27) -/
  ilen : Word
  /-- `OLEN` (R28) -/
  olen : Word
  /-- `NBLK` (R29) -/
  nblk : Word
  /-- `KEY` (R30) -/
  key : Key
  /-- `XA` (R31) -/
  xa : Block
  /-- `XB` (R31) -/
  xb : Block
  /-- `XC` (R32) -/
  xc : Block
  /-- `IBUF` (R33) -/
  ibuf : Memory
  /-- `OBUF`, a byte sequence of length `OLEN` (R34) -/
  obuf : List Byte
  /-- `BLK` (R35) -/
  blk : Memory
  /-- `PHASE` (R41) -/
  phase : Phase
  /-- `N` (R42) -/
  n : Word
  /-- `IDX` (R42) -/
  idx : Word
  /-- `PREV` (R43) -/
  prev : Block
  /-- `NONCE` (R44) -/
  nonce : Nonce
  /-- `CNT` (R45) -/
  cnt : BitVec 64
  /-- `W`, the working output (R213; log 7) -/
  work : List Byte
  /-- `CAP_BYTES`, `CTR_ENDIAN` (R8, R10; log 2) -/
  params : Params
  /-- the cipher, `E` and `D` (R9; log 3) -/
  cipher : CipherPort
  /-- the random source (R84; log 4) -/
  rng : RandomPort
  /-- the request a port is waiting on (log 8) -/
  outstanding : Option Waiting
  /-- the answers owed to requests made before a reset, to be discarded when they come (R271; log 21) -/
  late : LateAnswers
  /-- the requests seen on the ports, oldest first (R222; log 8) -/
  requests : List PortRequest
  /-- the bytes host reads returned, oldest first (R66; log 8) -/
  readData : List Byte
  /-- what reaches the machine next, oldest first (log 6) -/
  agenda : List Move
  deriving DecidableEq, Repr

/-- The machine right after its first reset (R50), with buffers `ibuf` and `blk` of any contents (R52) and any
parameters. -/
def State.afterPowerOn (params : Params) (ibuf blk : Memory) : State :=
  { opc := 0x00, ctrl := Config.ctrlReset, status := 0x00, ilen := 0, olen := 0, nblk := 0
    key := zeroBlock, xa := zeroBlock, xb := zeroBlock, xc := zeroBlock
    ibuf := ibuf, obuf := [], blk := blk
    phase := .idle, n := 0, idx := 0, prev := zeroBlock, nonce := zeroNonce, cnt := 0, work := []
    params := params, cipher := { known := [], live := true }, rng := { script := [], count := 0, live := true }
    outstanding := none, late := { cipher := 0, random := 0 }, requests := [], readData := [], agenda := [] }

/-- The machine right after reset (R50): nothing listed in the buffers (log 1), the parameters of `Config` (log 2). -/
def State.reset : State := State.afterPowerOn Config.params [] []

end Sys2Proof.Machine
end

