-- ==== Sys2Proof/Machine/Flags.lean ====
section
/-! DEFINITION. The flags: the fields of `STATUS` and the values the start and the ends of a command write to it
(spec/10_state.md R26, R49; spec/60_exceptions.md R240; spec/45_sequencer.md R212, R218, R247), and `CTRL.STRICT`. -/

namespace Sys2Proof.Machine

/-- The error codes of a command that failed (R240). -/
inductive ErrCode where
  /-- `ERR_ILLEGAL` (R242) -/
  | illegal
  /-- `ERR_CAPACITY` (R243) -/
  | capacity
  /-- `ERR_LENGTH` (R244) -/
  | length
  /-- `ERR_RNG` (R245) -/
  | rng
  /-- `ERR_PADDING` (R246) -/
  | padding
  deriving DecidableEq, Repr

/-- The value of the code in `STATUS.ERR` (R240). -/
def errNumber : ErrCode → Byte
  | .illegal => 1
  | .capacity => 2
  | .length => 3
  | .rng => 4
  | .padding => 5

/-- `STATUS` while a command runs: `BUSY` alone (R212). -/
def statusStart : Byte := 0x01

/-- `STATUS` at a successful end: `0x02 | (f << 2)` (R218). -/
def statusOk (padinv : Bool) : Byte := 0x02 ||| (if padinv then 0x04 else 0x00)

/-- `STATUS` at an unsuccessful end: `0x02 | (code << 4)` (R247). -/
def statusError (code : ErrCode) : Byte := 0x02 ||| (errNumber code <<< 4)

/-- `STATUS` as the host reads it: bit 3 is reserved and reads 0 (R23, R26). -/
def statusRead (status : Byte) : Byte := status &&& 0xF7

/-- `CTRL` as it is stored and read: bits 7:1 are reserved, read 0 and ignore writes (R23, R25; log 18). -/
def ctrlBits (v : Byte) : Byte := v &&& 0x01

/-- `STATUS.BUSY`, bit 0 (R26). -/
def State.busy (s : State) : Bool := s.status.getLsbD 0

/-- `STATUS.DONE`, bit 1 (R26). -/
def State.done (s : State) : Bool := s.status.getLsbD 1

/-- `STATUS.PADINV`, bit 2 (R26). -/
def State.padinv (s : State) : Bool := s.status.getLsbD 2

/-- The field `ERR` of a byte of `STATUS`, bits 7:4 (R26, R240). -/
def errOf (status : Byte) : BitVec 4 := status.extractLsb' 4 4

/-- `STATUS.ERR` (R26, R240). -/
def State.err (s : State) : BitVec 4 := errOf s.status

/-- `CTRL.STRICT`, bit 0 (R25). -/
def State.strict (s : State) : Bool := s.ctrl.getLsbD 0

end Sys2Proof.Machine
end

