-- ==== Sys2Proof/Machine/Ops.lean ====
section
/-! DEFINITION. The named operations over buffers, blocks and registers; the two ports; the start of a command; its two
ends: `finish_ok` and `raise Err` (the taking of an exception, spec/60_exceptions.md R247); and reset. -/

namespace Sys2Proof.Machine

/-! ### Blocks -/

/-- The block whose byte `i` is `f i`. -/
def blockOf (f : Nat → Byte) : Block := Vector.ofFn fun i : Fin 16 => f i

/-- Byte `i` of a block (R13). -/
def byteOf (b : Block) (i : Nat) : Byte := b[i]?.getD 0

/-- The block with byte `i` replaced. -/
def setByteOf (b : Block) (i : Nat) (v : Byte) : Block := b.setIfInBounds i v

/-- `xor16(a, b)`: the byte-wise exclusive or of two blocks (R142). -/
def xor16 (a b : Block) : Block := blockOf fun i => byteOf a i ^^^ byteOf b i

/-- The first eight bytes of a block, in their order (R196; R87 for an 8-byte answer; log 16). -/
def nonceOf (b : Block) : Nonce := Vector.ofFn fun i : Fin 8 => byteOf b i

/-- Byte `j` of `be64(c)`: `c[63-8j : 56-8j]` (R14). -/
def be64Byte (c : BitVec 64) (j : Nat) : Byte := c.extractLsb' (56 - 8 * j) 8

/-- Byte `j` of `le64(c)`: `c[8j+7 : 8j]` (R14). -/
def le64Byte (c : BitVec 64) (j : Nat) : Byte := c.extractLsb' (8 * j) 8

/-- `ctrblock(nonce, c)`: the nonce in its own order, then the counter in the order `CTR_ENDIAN` names (R190, R10). -/
def ctrBlock (endian : Endian) (nonce : Nonce) (c : BitVec 64) : Block :=
  blockOf fun i =>
    if i < 8 then nonce[i]?.getD 0
    else match endian with
      | .be => be64Byte c (i - 8)
      | .le => le64Byte c (i - 8)

/-! ### Numeric registers, little-endian over four offsets (R64) -/

/-- Byte `j` of a 32-bit register: bits `8j+7 : 8j`. -/
def wordByte (w : Word) (j : Nat) : Byte := w.extractLsb' (8 * j) 8

/-- The 32-bit register with byte `j` replaced. -/
def setWordByte (w : Word) (j : Nat) (v : Byte) : Word :=
  (w &&& ~~~((0xFF : Word) <<< (8 * j))) ||| (v.setWidth 32 <<< (8 * j))

/-! ### Buffers -/

/-- What an address that lists no cell reads as: DESIGN CHOICE, unsafe (log 1); the spec leaves the contents of `IBUF`
and `BLK` after the first reset unspecified (R52). -/
def Memory.unlisted : Byte := 0x00

/-- The byte at an address. -/
def Memory.read : Memory → Nat → Byte
  | [], _ => Memory.unlisted
  | (b, v) :: m, a => if a = b then v else Memory.read m a

/-- Store a byte at an address, keeping the canonical form. -/
def Memory.write : Memory → Nat → Byte → Memory
  | [], a, v => if v = Memory.unlisted then [] else [(a, v)]
  | (b, w) :: m, a, v =>
    if a < b then if v = Memory.unlisted then (b, w) :: m else (a, v) :: (b, w) :: m
    else if a = b then if v = Memory.unlisted then m else (a, v) :: m
    else (b, w) :: Memory.write m a v

/-- The canonical form from address `lo` on. -/
def Memory.wfFrom : Nat → Memory → Bool
  | _, [] => true
  | lo, (a, v) :: m => decide (lo ≤ a) && decide (v ≠ Memory.unlisted) && Memory.wfFrom (a + 1) m

/-- The canonical form: addresses strictly rising, no cell equal to what an unlisted address reads as. -/
def Memory.wf (m : Memory) : Bool := Memory.wfFrom 0 m

/-- No cell lies at or beyond `size`. -/
def Memory.below (size : Nat) (m : Memory) : Bool := m.all fun c => decide (c.1 < size)

/-- `MemRead(space, addr, n)`: `n` bytes, lowest address first (R15). -/
def Memory.readSeq (m : Memory) (a : Nat) : Nat → List Byte
  | 0 => []
  | n + 1 => Memory.read m a :: Memory.readSeq m (a + 1) n

/-- `MemWrite(space, addr, n, v)` (R15). -/
def Memory.writeSeq (m : Memory) (a : Nat) : List Byte → Memory
  | [] => m
  | v :: vs => Memory.writeSeq (Memory.write m a v) (a + 1) vs

/-- `MemRead(space, addr, 16)` as a block. -/
def Memory.readBlock (m : Memory) (a : Nat) : Block := blockOf fun i => Memory.read m (a + i)

/-- Store blocks `j`, `j + 1`, ...: byte `b` of block `j` at address `16*j + b` (R35). -/
def Memory.writeBlocks (m : Memory) (j : Nat) : List Block → Memory
  | [] => m
  | b :: bs => Memory.writeBlocks (Memory.writeSeq m (16 * j) b.toList) (j + 1) bs

/-- The size in bytes of `BLK` (R35). -/
def State.blkSize (s : State) : Nat := 16 * (s.params.capBytes / 16)

/-! ### Destinations (R219) -/

/-- The destination of a command: the only result state it writes. -/
inductive Dest where
  /-- `OBUF` with `OLEN` -/
  | obuf
  /-- `BLK` with `NBLK` -/
  | nblk
  /-- `XC` -/
  | xc
  /-- an illegal command has none -/
  | none
  deriving DecidableEq, Repr

/-- Clear the length of the destination (R213 step 2, R219, R247): `XC` is not cleared. -/
def State.clearDest (d : Dest) (s : State) : State :=
  match d with
  | .obuf => { s with obuf := [], olen := 0 }
  | .nblk => { s with nblk := 0 }
  | .xc | .none => s

/-- `OBUF <- w`, which sets `OLEN <- len(w)` with it (R34, R213). -/
def State.setObuf (w : List Byte) (s : State) : State := { s with obuf := w, olen := BitVec.ofNat 32 w.length }

/-! ### Start and end of a command -/

/-- The start of a command (R212). It is also what leaves the error state (R251). -/
def State.startCommand (v : Byte) (s : State) : State :=
  { s with opc := v, status := statusStart, phase := .check }

/-- What both ends of a command write: `STATUS`, the cleared hidden registers (R46, R218, R247) and `PHASE`; `W` and the
outstanding request, the model's own fields, are emptied with them (log 7, log 8). -/
def State.endCommand (status : Byte) (s : State) : State :=
  { s with status := status, n := 0, idx := 0, prev := zeroBlock, nonce := zeroNonce, cnt := 0, work := []
           outstanding := none, phase := .idle }

/-- `finish_ok with PADINV = f` (R218); the destination has been written by the caller. -/
def State.finishOk (padinv : Bool) (s : State) : State := s.endCommand (statusOk padinv)

/-- `raise Err(code)` (R247), the whole of taking an exception: the destination's length is cleared, `STATUS` gets the
code, the hidden registers are cleared and the MFL is idle. Nothing is saved and control goes nowhere. -/
def State.raise (d : Dest) (code : ErrCode) (s : State) : State := (s.clearDest d).endCommand (statusError code)

/-- The successful end of a command whose output is `w` (R217 and R218). -/
def State.publish (w : List Byte) (s : State) : State := (s.setObuf w).finishOk false

/-! ### The cipher port (R80 to R83) and the random port (R84, R85) -/

/-- The answer to `(op, block, key)`: `E` or `D` of R9, a function of the request alone (R83). -/
def CipherPort.answer (c : CipherPort) (op : CipherOp) (b : Block) (k : Key) : Block :=
  match c.known.find? fun e => decide (e.op = op) && decide (e.block = b) && decide (e.key = k) with
  | some e => e.answer
  | none => Config.cipher op b k

/-- The answer to the next random request: a draw (R84). -/
def RandomPort.answer (r : RandomPort) : RandomAnswer :=
  match r.script with
  | [] => Config.draw r.count
  | a :: _ => a

/-- The random source once it has given the next answer. -/
def RandomPort.advance (r : RandomPort) : RandomPort := { r with script := r.script.tail, count := r.count + 1 }

/-- The cipher, known now to answer `(op, b, k)` with `a`. -/
def CipherPort.learn (op : CipherOp) (b : Block) (k : Key) (a : Block) (c : CipherPort) : CipherPort :=
  { c with known := { op := op, block := b, key := k, answer := a } :: c.known }

/-- The random source, whose next answer is `a`: it stands for the next entry of the script. -/
def RandomPort.give (a : RandomAnswer) (r : RandomPort) : RandomPort := { r with script := a :: r.script.tail }

/-- Whether each collaborator answers from now on (R86). -/
def State.answering (c r : Bool) (s : State) : State :=
  { s with cipher := { s.cipher with live := c }, rng := { s.rng with live := r } }

/-- The cipher's answer under the key of this state: every request carries `KEY` (R82). -/
def State.ask (s : State) (op : CipherOp) (b : Block) : Block := s.cipher.answer op b s.key

/-- The cipher requests for a list of blocks, in order, each carrying `KEY` (R81, R82). -/
def State.requestsFor (s : State) (op : CipherOp) (bs : List Block) : List PortRequest :=
  bs.map fun b => .cipher op b s.key

/-- `s` after the further requests `rs` on its ports, in order. -/
def State.afterRequests (s : State) (rs : List PortRequest) : State := { s with requests := s.requests ++ rs }

/-- Put a request on its port and wait on it. -/
def State.send (r : PortRequest) (s : State) : State :=
  { s.afterRequests [r] with outstanding := some { request := r, accepted := false } }

/-- The request outstanding, taken or not. -/
def State.asked (s : State) : Option PortRequest := s.outstanding.map Waiting.request

/-- Put a request on its port unless one is outstanding already: at most one is (R81). -/
def State.sendOnce (r : PortRequest) (s : State) : State :=
  match s.outstanding with
  | some _ => s
  | none => s.send r

/-- Take the random source's answer to the outstanding request. -/
def State.drawTaken (s : State) : State := { s with rng := s.rng.advance, outstanding := none }

/-- A whole random transaction (R85, R215): the request of `n` bytes, and, where the source answers, its answer: `fail`
ends the command with `ERR_RNG` (R245), `ok(r)` goes on. Where the source does not answer, the MFL waits (R86). -/
def State.withRandom (n : Nat) (go : Block → State → State) (s : State) : State :=
  let t := s.send (.random n)
  if t.rng.live then
    match t.rng.answer with
    | .fail => t.drawTaken.raise .obuf .rng
    | .ok r => go r t.drawTaken
  else t

/-- A whole block loop (R81, R216): the requests `rs` of the command in order, and then `fin`. Where there is a request
and the cipher does not answer, the MFL waits on the first (R86). -/
def State.withCipher (rs : List PortRequest) (fin : State → State) (s : State) : State :=
  match rs with
  | [] => fin s
  | r :: _ => if s.cipher.live then fin (s.afterRequests rs) else s.send r

/-! ### Reset (R270 to R272) -/

/-- Is a request to the random source outstanding? -/
def State.awaitsRandom (s : State) : Bool :=
  match s.asked with
  | some (.random _) => true
  | some (.cipher _ _ _) | none => false

/-- The answers each collaborator owes: those to requests of before a reset, and the one to the outstanding request where
it has been taken. -/
def State.owed (s : State) : LateAnswers :=
  match s.outstanding with
  | some { request := .cipher _ _ _, accepted := true } => { s.late with cipher := s.late.cipher + 1 }
  | some { request := .random _, accepted := true } => { s.late with random := s.late.random + 1 }
  | some { request := _, accepted := false } | none => s.late

/-- One answer less from each collaborator that gave one. -/
def LateAnswers.given (c r : Bool) (l : LateAnswers) : LateAnswers :=
  { cipher := if c then l.cipher - 1 else l.cipher, random := if r then l.random - 1 else l.random }

/-- The reset input, in any phase: every register takes its value of R50, `IBUF` and `BLK` keep their contents (R272),
and an answer to a request made before the reset is discarded when it comes (R271): the random source is moved past it
(log 13), and on the pins it is counted in `late` (log 21). -/
def State.resetInput (s : State) : State :=
  { s with
    opc := 0x00, ctrl := Config.ctrlReset, status := 0x00, ilen := 0, olen := 0, nblk := 0
    key := zeroBlock, xa := zeroBlock, xb := zeroBlock, xc := zeroBlock, obuf := []
    phase := .idle, n := 0, idx := 0, prev := zeroBlock, nonce := zeroNonce, cnt := 0, work := []
    outstanding := none, late := s.owed
    rng := if s.awaitsRandom then s.rng.advance else s.rng }

end Sys2Proof.Machine
end

