-- ==== Sys2Proof/Machine/Operands.lean ====
section
/-! DEFINITION. The operands of the commands: `IBUF[0:ILEN]`, the block fetches of spec/45_sequencer.md R220, R221, and
the tables R214 (length precondition, `N`, `L`) and R219 (destination). -/

namespace Sys2Proof.Machine

/-- `ILEN` as a natural number. -/
def State.inLen (s : State) : Nat := s.ilen.toNat

/-- `IBUF[0:ILEN]`, the input of a command (R27, R104). -/
def State.input (s : State) : List Byte := s.ibuf.readSeq 0 s.inLen

/-- The pad length of `len` bytes: `16 - (len mod 16)`, in 1..16 (R120, R128). -/
def padLen (len : Nat) : Nat := 16 - len % 16

/-- Block `i` of `group(pad(IBUF[0:ILEN]))`, formed from `IBUF` (R220). -/
def State.plainBlock (s : State) (i : Nat) : Block :=
  if i < s.inLen / 16 then s.ibuf.readBlock (16 * i)
  else blockOf fun j =>
    if j < s.inLen % 16 then s.ibuf.read (16 * i + j) else BitVec.ofNat 8 (padLen s.inLen)

/-- Ciphertext block `i` behind a prefix of `prefix` bytes: the prefix is skipped by the address (R221). -/
def State.bodyBlock (s : State) (pre i : Nat) : Block := s.ibuf.readBlock (pre + 16 * i)

/-- The length of the prefix of a mode command: the IV is 16 bytes, the nonce 8 (R7, R221). -/
def prefixLen : Instr → Nat
  | .cbcEnc | .cbcDec => 16
  | .ctrEnc | .ctrDec => 8
  | .pad | .unpad | .group | .ungroup | .xor | .ecbEnc | .ecbDec => 0

/-- Does the command read `IBUF`? All but `UNGROUP` and `XOR` (R60, R104). -/
def readsIbuf : Instr → Bool
  | .ungroup | .xor => false
  | .pad | .unpad | .group | .ecbEnc | .ecbDec | .cbcEnc | .cbcDec | .ctrEnc | .ctrDec => true

/-- The length precondition, column "requires" of R214. -/
def lengthOk (i : Instr) (len : Nat) : Bool :=
  match i with
  | .group | .ecbDec => decide (len % 16 = 0)
  | .cbcDec => decide (16 ≤ len) && decide (len % 16 = 0)
  | .ctrDec => decide (8 ≤ len) && decide ((len - 8) % 16 = 0)
  | .pad | .unpad | .ungroup | .xor | .ecbEnc | .cbcEnc | .ctrEnc => true

/-- `N`, the number of data blocks, column "N" of R214; 0 where the table says "not used". -/
def State.blockCount (i : Instr) (s : State) : Nat :=
  match i with
  | .pad | .ecbEnc | .cbcEnc | .ctrEnc => s.inLen / 16 + 1
  | .group | .ecbDec => s.inLen / 16
  | .ungroup => s.nblk.toNat
  | .cbcDec => s.inLen / 16 - 1
  | .ctrDec => (s.inLen - 8) / 16
  | .unpad | .xor => 0

/-- `L`, the largest length the command can leave in its destination, column "L" of R214; on natural numbers, so that
`16 * NBLK` cannot wrap. -/
def State.resultLen (i : Instr) (s : State) : Nat :=
  match i with
  | .pad | .ecbEnc => 16 * s.blockCount i
  | .unpad | .group | .ecbDec => s.inLen
  | .ungroup => 16 * s.nblk.toNat
  | .xor => 16
  | .cbcEnc => 16 + 16 * s.blockCount i
  | .cbcDec => s.inLen - 16
  | .ctrEnc => 8 + 16 * s.blockCount i
  | .ctrDec => s.inLen - 8

/-- The destination of a command (R219). -/
def destOf : Instr → Dest
  | .group => .nblk
  | .xor => .xc
  | .pad | .unpad | .ungroup | .ecbEnc | .ecbDec | .cbcEnc | .cbcDec | .ctrEnc | .ctrDec => .obuf

/-- A mode command past its checks: the destination is cleared (R213 step 2), `N` is known (step 5), and the sequencer
stands at `phase`. -/
def State.openMode (blocks : Nat) (phase : Phase) (s : State) : State :=
  { s.clearDest .obuf with n := BitVec.ofNat 32 blocks, phase := phase }

/-- `PREV <- iv` (R170, R173). -/
def State.setPrev (iv : Block) (s : State) : State := { s with prev := iv }

/-- `NONCE <- nonce; CNT <- 0` (R193, R194). -/
def State.setNonce (nonce : Nonce) (s : State) : State := { s with nonce := nonce, cnt := 0 }

/-- The block loop is entered with an output that so far is `pre` (R213 step 7, R215). -/
def State.enterLoop (pre : List Byte) (s : State) : State := { s with idx := 0, work := pre, phase := .block }

end Sys2Proof.Machine
end

