-- ==== Sys2Proof/Machine/Padding.lean ====
section
/-! DEFINITION. The padding codec and the unpadding validator, and the meanings of `PAD` and `UNPAD`
(spec/40_padding_codec.md). -/

namespace Sys2Proof.Machine

/-- `pad(s) = s ++ rep(r, r)` with `r = 16 - (len(s) mod 16)` (R120). -/
def padBytes (s : List Byte) : List Byte :=
  s ++ List.replicate (padLen s.length) (BitVec.ofNat 8 (padLen s.length))

/-- `padcheck(s) = (valid, pl)`: looks at the last byte and at the length, and at nothing else (R121, R122). -/
def padCheck (s : List Byte) : Bool × Nat :=
  match s.getLast? with
  | none => (false, 0)
  | some b => (decide (1 ≤ b.toNat) && decide (b.toNat ≤ 16) && decide (b.toNat ≤ s.length), b.toNat)

/-- Finishing with unpadding (R123), the end of `UNPAD` and of the three decrypt commands, applied to `w`. -/
def State.finishUnpad (w : List Byte) (s : State) : State :=
  if (padCheck w).1 then (s.setObuf (w.take (w.length - (padCheck w).2))).finishOk false
  else if s.strict then s.raise .obuf .padding
  else (s.setObuf w).finishOk true

/-- `PAD` (R124). -/
def execPad (s : State) : Host.Outcome State Fault Refusal :=
  .next <|
    if s.params.capBytes < s.inLen then s.raise .obuf .capacity
    else if s.params.capBytes < s.inLen + padLen s.inLen then s.raise .obuf .capacity
    else s.publish (padBytes s.input)

/-- `UNPAD` (R125). -/
def execUnpad (s : State) : Host.Outcome State Fault Refusal :=
  .next <|
    if s.params.capBytes < s.inLen then s.raise .obuf .capacity
    else s.finishUnpad s.input

end Sys2Proof.Machine
end

