-- ==== Sys2Proof/Machine/Segmenter.lean ====
section
/-! DEFINITION. The block segmenter and the block XOR combiner: `group`, `ungroup`, and the meanings of `GROUP`,
`UNGROUP` and `XOR` (spec/41_segmenter_xor.md). -/

namespace Sys2Proof.Machine

/-- Block `j` of a byte sequence: `s[16*j : 16*j + 16]` (R140). -/
def blockAt (s : List Byte) (j : Nat) : Block := blockOf fun i => s.getD (16 * j + i) 0

/-- `group(s)`: the `len(s) div 16` blocks of `s` in order (R140; used where `len(s) mod 16 = 0`). -/
def groupBytes (s : List Byte) : List Block := (List.range (s.length / 16)).map (blockAt s)

/-- `ungroup(bs)`: the blocks concatenated in order (R141). -/
def ungroupBlocks (bs : List Block) : List Byte := (bs.map Vector.toList).flatten

/-- Blocks `0 .. k-1` of `BLK` (R35). -/
def State.storedBlocks (s : State) (k : Nat) : List Block := (List.range k).map fun j => s.blk.readBlock (16 * j)

/-- `BLK[j] <- bs[j]` for every `j`, and `NBLK <- len(bs)` (R143). -/
def State.storeBlocks (bs : List Block) (s : State) : State :=
  { s with blk := s.blk.writeBlocks 0 bs, nblk := BitVec.ofNat 32 bs.length }

/-- `GROUP` (R143). -/
def execGroup (s : State) : Host.Outcome State Fault Refusal :=
  .next <|
    if s.params.capBytes < s.inLen then s.raise .nblk .capacity
    else if s.inLen % 16 ≠ 0 then s.raise .nblk .length
    else (s.storeBlocks (groupBytes s.input)).finishOk false

/-- `UNGROUP` (R144). -/
def execUngroup (s : State) : Host.Outcome State Fault Refusal :=
  .next <|
    if s.params.capBytes < 16 * s.nblk.toNat then s.raise .obuf .capacity
    else s.publish (ungroupBlocks (s.storedBlocks s.nblk.toNat))

/-- `XOR` (R145). -/
def execXor (s : State) : Host.Outcome State Fault Refusal :=
  .next <| State.finishOk false { s with xc := xor16 s.xa s.xb }

end Sys2Proof.Machine
end

