-- ==== Sys2Proof/Machine/Cbc.lean ====
section
/-! DEFINITION. CBC mode: the meanings of `CBC_ENC` and `CBC_DEC` (spec/43_cbc.md). -/

namespace Sys2Proof.Machine

/-- The ciphertext blocks of CBC: `c_i = E(xor16(b_i, PREV), KEY)`, `PREV` being the IV and then `c_{i-1}` (R170, R171). -/
def cbcEncrypt (enc : Block → Block) : Block → List Block → List Block
  | _, [] => []
  | prev, b :: bs => enc (xor16 b prev) :: cbcEncrypt enc (enc (xor16 b prev)) bs

/-- The combined blocks `x_i = xor16(b_i, PREV)`, which are what the cipher sees (R170, R171). -/
def cbcCombined (enc : Block → Block) : Block → List Block → List Block
  | _, [] => []
  | prev, b :: bs => xor16 b prev :: cbcCombined enc (enc (xor16 b prev)) bs

/-- The plaintext blocks of CBC: `p_i = xor16(D(c_i, KEY), PREV)`, `PREV` being the IV and then the ciphertext block
`c_{i-1}` (R173, R174). -/
def cbcDecrypt (dec : Block → Block) : Block → List Block → List Block
  | _, [] => []
  | prev, c :: cs => xor16 (dec c) prev :: cbcDecrypt dec c cs

/-- `CBC_ENC` (R170). -/
def execCbcEnc (s : State) : Host.Outcome State Fault Refusal :=
  let blocks := s.inLen / 16 + 1
  .next <|
    if s.params.capBytes < s.inLen then s.raise .obuf .capacity
    else if s.params.capBytes < 16 + 16 * blocks then s.raise .obuf .capacity
    else
      let bs := groupBytes (padBytes s.input)
      (s.openMode blocks .rand).withRandom 16 fun iv t =>
        ((t.setPrev iv).enterLoop iv.toList).withCipher
          (s.requestsFor .enc (cbcCombined (s.ask .enc) iv bs))
          (State.publish (iv.toList ++ ungroupBlocks (cbcEncrypt (s.ask .enc) iv bs)))

/-- `CBC_DEC` (R173). -/
def execCbcDec (s : State) : Host.Outcome State Fault Refusal :=
  let blocks := s.inLen / 16 - 1
  .next <|
    if s.params.capBytes < s.inLen then s.raise .obuf .capacity
    else if s.inLen < 16 ∨ s.inLen % 16 ≠ 0 then s.raise .obuf .length
    else
      let iv := blockAt s.input 0
      let cs := groupBytes (s.input.drop 16)
      (((s.openMode blocks .block).setPrev iv).enterLoop []).withCipher (s.requestsFor .dec cs)
        (State.finishUnpad (ungroupBlocks (cbcDecrypt (s.ask .dec) iv cs)))

end Sys2Proof.Machine
end

