-- ==== Sys2Proof/Machine/Ctr.lean ====
section
/-! DEFINITION. CTR mode: the meanings of `CTR_ENC` and `CTR_DEC` (spec/44_ctr.md). -/

namespace Sys2Proof.Machine

/-- The counter blocks `v_i = ctrblock(NONCE, CNT)`, `CNT` rising by 1 modulo 2^64 per block, for `k` blocks (R191, R192). -/
def ctrCounters (endian : Endian) (nonce : Nonce) : BitVec 64 → Nat → List Block
  | _, 0 => []
  | c, k + 1 => ctrBlock endian nonce c :: ctrCounters endian nonce (c + 1) k

/-- CTR, the same in both directions: `u_i = xor16(t_i, E(v_i, KEY))` (R191). -/
def ctrBlocks (enc : Block → Block) (endian : Endian) (nonce : Nonce) : BitVec 64 → List Block → List Block
  | _, [] => []
  | c, t :: ts => xor16 t (enc (ctrBlock endian nonce c)) :: ctrBlocks enc endian nonce (c + 1) ts

/-- `CTR_ENC` (R193). -/
def execCtrEnc (s : State) : Host.Outcome State Fault Refusal :=
  let blocks := s.inLen / 16 + 1
  .next <|
    if s.params.capBytes < s.inLen then s.raise .obuf .capacity
    else if s.params.capBytes < 8 + 16 * blocks then s.raise .obuf .capacity
    else
      let bs := groupBytes (padBytes s.input)
      (s.openMode blocks .rand).withRandom 8 fun r t =>
        ((t.setNonce (nonceOf r)).enterLoop (nonceOf r).toList).withCipher
          (s.requestsFor .enc (ctrCounters s.params.ctrEndian (nonceOf r) 0 bs.length))
          (State.publish ((nonceOf r).toList ++
            ungroupBlocks (ctrBlocks (s.ask .enc) s.params.ctrEndian (nonceOf r) 0 bs)))

/-- `CTR_DEC` (R194): it asks `E`, never `D` (R195). -/
def execCtrDec (s : State) : Host.Outcome State Fault Refusal :=
  let blocks := (s.inLen - 8) / 16
  .next <|
    if s.params.capBytes < s.inLen then s.raise .obuf .capacity
    else if s.inLen < 8 ∨ (s.inLen - 8) % 16 ≠ 0 then s.raise .obuf .length
    else
      let nonce := nonceOf (blockAt s.input 0)
      let cs := groupBytes (s.input.drop 8)
      (((s.openMode blocks .block).setNonce nonce).enterLoop []).withCipher
        (s.requestsFor .enc (ctrCounters s.params.ctrEndian nonce 0 cs.length))
        (State.finishUnpad (ungroupBlocks (ctrBlocks (s.ask .enc) s.params.ctrEndian nonce 0 cs)))

end Sys2Proof.Machine
end

