-- ==== Sys2Proof/Machine/Ecb.lean ====
section
/-! DEFINITION. ECB mode: the meanings of `ECB_ENC` and `ECB_DEC` (spec/42_ecb.md). -/

namespace Sys2Proof.Machine

/-- ECB, either way: each block through the cipher on its own (R162). -/
def ecbBlocks (f : Block → Block) (bs : List Block) : List Block := bs.map f

/-- `ECB_ENC` (R160). -/
def execEcbEnc (s : State) : Host.Outcome State Fault Refusal :=
  let blocks := s.inLen / 16 + 1
  .next <|
    if s.params.capBytes < s.inLen then s.raise .obuf .capacity
    else if s.params.capBytes < 16 * blocks then s.raise .obuf .capacity
    else
      let bs := groupBytes (padBytes s.input)
      ((s.openMode blocks .block).enterLoop []).withCipher (s.requestsFor .enc bs)
        (State.publish (ungroupBlocks (ecbBlocks (s.ask .enc) bs)))

/-- `ECB_DEC` (R161). -/
def execEcbDec (s : State) : Host.Outcome State Fault Refusal :=
  let blocks := s.inLen / 16
  .next <|
    if s.params.capBytes < s.inLen then s.raise .obuf .capacity
    else if s.inLen % 16 ≠ 0 then s.raise .obuf .length
    else
      let cs := groupBytes s.input
      ((s.openMode blocks .block).enterLoop []).withCipher (s.requestsFor .dec cs)
        (State.finishUnpad (ungroupBlocks (ecbBlocks (s.ask .dec) cs)))

end Sys2Proof.Machine
end

