-- ==== Sys2Proof/Machine/Dispatch.lean ====
section
/-! DEFINITION. One arm per command: the command level of spec/45_sequencer.md R210. -/

namespace Sys2Proof.Machine

/-- The meaning of a latched command, from its check step to its end (R210). -/
def exec (i : Instr) (s : State) : Host.Outcome State Fault Refusal :=
  match i with
  | .pad => Sys2Proof.Machine.execPad s
  | .unpad => Sys2Proof.Machine.execUnpad s
  | .group => Sys2Proof.Machine.execGroup s
  | .ungroup => Sys2Proof.Machine.execUngroup s
  | .xor => Sys2Proof.Machine.execXor s
  | .ecbEnc => Sys2Proof.Machine.execEcbEnc s
  | .ecbDec => Sys2Proof.Machine.execEcbDec s
  | .cbcEnc => Sys2Proof.Machine.execCbcEnc s
  | .cbcDec => Sys2Proof.Machine.execCbcDec s
  | .ctrEnc => Sys2Proof.Machine.execCtrEnc s
  | .ctrDec => Sys2Proof.Machine.execCtrDec s

end Sys2Proof.Machine
end

