-- ==== Sys2Proof/Machine/HostPort.lean ====
section
/-! DEFINITION. The host port: the register map and the one-byte accesses (spec/10_state.md R22 to R36;
spec/20_memory.md R66, R69). -/

namespace Sys2Proof.Machine

/-- A readable register's byte (R22, R23): `KEY` and reserved offsets read 0x00. -/
def State.regRead (s : State) (a : Nat) : Byte :=
  if a = 0x00 then s.opc
  else if a = 0x01 then ctrlBits s.ctrl
  else if a = 0x02 then statusRead s.status
  else if a < 0x04 then 0x00
  else if a < 0x08 then wordByte s.ilen (a - 0x04)
  else if a < 0x0C then wordByte s.olen (a - 0x08)
  else if a < 0x10 then wordByte s.nblk (a - 0x0C)
  else if a < 0x20 then 0x00
  else if a < 0x30 then byteOf s.xa (a - 0x20)
  else if a < 0x40 then byteOf s.xb (a - 0x30)
  else if a < 0x50 then byteOf s.xc (a - 0x40)
  else 0x00

/-- A write to a register (R22, R23, R24): `CMD` starts a command, read-only and reserved offsets ignore it. -/
def State.regWrite (a : Nat) (v : Byte) (s : State) : State :=
  if a = 0x00 then s.startCommand v
  else if a = 0x01 then { s with ctrl := ctrlBits v }
  else if a < 0x04 then s
  else if a < 0x08 then { s with ilen := setWordByte s.ilen (a - 0x04) v }
  else if a < 0x0C then s
  else if a < 0x10 then { s with nblk := setWordByte s.nblk (a - 0x0C) v }
  else if a < 0x20 then { s with key := setByteOf s.key (a - 0x10) v }
  else if a < 0x30 then { s with xa := setByteOf s.xa (a - 0x20) v }
  else if a < 0x40 then { s with xb := setByteOf s.xb (a - 0x30) v }
  else s

/-- The value `HostRead(space, addr)` returns while `BUSY = 0` (R66, R34, R36). -/
def State.readIdle (s : State) (sp : Space) (a : Nat) : Byte :=
  match sp with
  | .reg => s.regRead a
  | .ibuf => if a < s.params.capBytes then s.ibuf.read a else 0x00
  | .obuf => if a < s.olen.toNat then s.obuf.getD a 0x00 else 0x00
  | .blk => if a < s.blkSize then s.blk.read a else 0x00

/-- The value a host read returns while `BUSY = 1` (R69): only `STATUS` and `CMD` answer. -/
def State.readBusy (s : State) (sp : Space) (a : Nat) : Byte :=
  match sp with
  | .reg => if a = 0x00 then s.opc else if a = 0x02 then 0x01 else 0x00
  | .ibuf | .obuf | .blk => 0x00

/-- `HostRead(space, addr)`: the value returned (R66, R69). -/
def State.hostRead (s : State) (sp : Space) (a : Nat) : Byte :=
  if s.busy then s.readBusy sp a else s.readIdle sp a

/-- `HostWrite(space, addr, v)` while `BUSY = 0` (R66, R34, R36). -/
def State.writeIdle (sp : Space) (a : Nat) (v : Byte) (s : State) : State :=
  match sp with
  | .reg => s.regWrite a v
  | .ibuf => if a < s.params.capBytes then { s with ibuf := s.ibuf.write a v } else s
  | .obuf => s
  | .blk => if a < s.blkSize then { s with blk := s.blk.write a v } else s

/-- `HostWrite(space, addr, v)` (R66); while `BUSY = 1` every write is ignored (R69). -/
def State.hostWrite (sp : Space) (a : Nat) (v : Byte) (s : State) : State :=
  if s.busy then s else s.writeIdle sp a v

/-- One host access; the value of a read is recorded in `readData` (log 8) and changes nothing else (R66). -/
def State.hostAccess (x : Access) (s : State) : State :=
  match x with
  | .write sp a v => s.hostWrite sp a v
  | .read sp a => { s with readData := s.readData ++ [s.hostRead sp a] }

end Sys2Proof.Machine
end

