-- ==== Sys2Proof/Machine/Sequencer.lean ====
section
/-! DEFINITION. The mode controller's sequencer: the one step each phase takes (spec/45_sequencer.md R211 to R218). -/

namespace Sys2Proof.Machine

/-- Check step 7 (R213), `s` being the state after step 2. -/
def checkDo (i : Instr) (s : State) : State :=
  match i with
  | .pad => s.publish (padBytes s.input)
  | .unpad => { s with work := s.input, phase := .final }
  | .group => (s.storeBlocks ((List.range (s.blockCount .group)).map fun j => s.ibuf.readBlock (16 * j))).finishOk false
  | .ungroup => s.publish (s.blk.readSeq 0 (16 * s.blockCount .ungroup))
  | .xor => State.finishOk false { s with xc := xor16 s.xa s.xb }
  | .ecbEnc => { s with n := BitVec.ofNat 32 (s.blockCount i), idx := 0, work := [], phase := .block }
  | .ecbDec =>
    { s with n := BitVec.ofNat 32 (s.blockCount i), idx := 0, work := []
             phase := if 0 < s.blockCount i then .block else .final }
  | .cbcEnc => { s with n := BitVec.ofNat 32 (s.blockCount i), phase := .rand }
  | .cbcDec =>
    { s with n := BitVec.ofNat 32 (s.blockCount i), idx := 0, work := [], prev := s.ibuf.readBlock 0
             phase := if 0 < s.blockCount i then .block else .final }
  | .ctrEnc => { s with n := BitVec.ofNat 32 (s.blockCount i), phase := .rand }
  | .ctrDec =>
    { s with n := BitVec.ofNat 32 (s.blockCount i), idx := 0, work := [], nonce := nonceOf (s.ibuf.readBlock 0), cnt := 0
             phase := if 0 < s.blockCount i then .block else .final }

/-- The check step of a legal command (R213, steps 2 to 7): the first failing check ends the command. -/
def checkStep (i : Instr) (s : State) : State :=
  let t := s.clearDest (destOf i)
  if readsIbuf i && decide (t.params.capBytes < t.inLen) then t.raise (destOf i) .capacity
  else if !lengthOk i t.inLen then t.raise (destOf i) .length
  else if t.params.capBytes < t.resultLen i then t.raise (destOf i) .capacity
  else checkDo i t

/-- The random step (R215) of the two commands that have one; for another command no step is enabled. -/
def randomStep (i : Instr) (s : State) : Host.Outcome State Fault Refusal :=
  let answered (n : Nat) (go : Block → State → State) : Host.Outcome State Fault Refusal :=
    let t := s.sendOnce (.random n)
    .next <|
      if t.rng.live then
        match t.rng.answer with
        | .fail => t.drawTaken.raise .obuf .rng
        | .ok r => go r t.drawTaken
      else t
  match i with
  | .cbcEnc => answered 16 fun r t => (t.setPrev r).enterLoop r.toList
  | .ctrEnc => answered 8 fun r t => (t.setNonce (nonceOf r)).enterLoop (nonceOf r).toList
  | .pad | .unpad | .group | .ungroup | .xor | .ecbEnc | .ecbDec | .cbcDec | .ctrDec => .fault .noStepEnabled

/-- The data block `t` of the block step (R220, R221) and what the cipher is asked of it (R216); none for a command
without a block loop. -/
def blockRequest (i : Instr) (s : State) : Option (Block × CipherOp × Block) :=
  let k := s.idx.toNat
  match i with
  | .ecbEnc => some (s.plainBlock k, .enc, s.plainBlock k)
  | .ecbDec => some (s.bodyBlock 0 k, .dec, s.bodyBlock 0 k)
  | .cbcEnc => some (s.plainBlock k, .enc, xor16 (s.plainBlock k) s.prev)
  | .cbcDec => some (s.bodyBlock 16 k, .dec, s.bodyBlock 16 k)
  | .ctrEnc => some (s.plainBlock k, .enc, ctrBlock s.params.ctrEndian s.nonce s.cnt)
  | .ctrDec => some (s.bodyBlock 8 k, .enc, ctrBlock s.params.ctrEndian s.nonce s.cnt)
  | .pad | .unpad | .group | .ungroup | .xor => none

/-- What the block step does with the cipher's answer `a` to data block `t` (R216). -/
def blockTake (i : Instr) (t a : Block) (s : State) : State :=
  match i with
  | .cbcEnc => { s with work := s.work ++ a.toList, prev := a }
  | .cbcDec => { s with work := s.work ++ (xor16 a s.prev).toList, prev := t }
  | .ctrEnc | .ctrDec => { s with work := s.work ++ (xor16 t a).toList, cnt := s.cnt + 1 }
  | .ecbEnc | .ecbDec => { s with work := s.work ++ a.toList }
  | .pad | .unpad | .group | .ungroup | .xor => s

/-- The end of every block step (R216): `IDX <- IDX + 1; PHASE <- FINAL if IDX + 1 = N else BLOCK`. -/
def blockAdvance (s : State) : State :=
  { s with idx := s.idx + 1, outstanding := none, phase := if s.idx + 1 = s.n then .final else .block }

/-- The block step (R216), enabled when `IDX < N`: one cipher request and, where the cipher answers, its answer. -/
def blockStep (i : Instr) (s : State) : Host.Outcome State Fault Refusal :=
  match blockRequest i s with
  | none => .fault .noStepEnabled
  | some (t, op, x) =>
    if s.idx.toNat < s.n.toNat then
      let u := s.sendOnce (.cipher op x s.key)
      .next (if u.cipher.live then blockAdvance (blockTake i t (u.ask op x) u) else u)
    else .fault .noStepEnabled

/-- The final step (R217); a unit command that ends in its check step has none. -/
def finalStep (i : Instr) (s : State) : Host.Outcome State Fault Refusal :=
  match i with
  | .ecbEnc | .cbcEnc | .ctrEnc => .next (s.publish s.work)
  | .unpad | .ecbDec | .cbcDec | .ctrDec => .next (s.finishUnpad s.work)
  | .pad | .group | .ungroup | .xor => .fault .noStepEnabled

end Sys2Proof.Machine
end

