-- ==== Sys2Proof/Machine/Run.lean ====
section
/-! DEFINITION. How the machine moves: a latched command is decoded and run as a whole, or one sequencer step at a time
(spec/45_sequencer.md R210 to R217). -/

namespace Sys2Proof.Machine

/-- The bytes of the latched command: the MFL fetches nothing, a command is the byte latched into `OPC` (R72). -/
def State.commandBytes (s : State) : List Byte := [s.opc]

/-- The command latched in `OPC`, if it is one (R213 step 1). -/
def State.command (s : State) : Option Instr :=
  match decode s.commandBytes with
  | .ok (i, _) => some i
  | .error _ => none

/-- The end of an illegal command (R213 step 1, R242): no destination. -/
def State.endIllegal (s : State) : State := s.raise .none .illegal

/-- One step of the sequencer (R211 to R217). In `IDLE` no step is enabled, and the state stays (R273). -/
def State.seqStep (s : State) : Host.Outcome State Fault Refusal :=
  match s.phase, s.command with
  | .idle, _ => .next s
  | .check, none => .next s.endIllegal
  | .check, some i => .next (checkStep i s)
  | .rand, some i => randomStep i s
  | .block, some i => blockStep i s
  | .final, some i => finalStep i s
  | .rand, none | .block, none | .final, none => .fault .noStepEnabled

/-- `k` steps of the sequencer, stopping at a fault. -/
def State.seqRun : Nat → State → Host.Outcome State Fault Refusal
  | 0, s => .next s
  | k + 1, s =>
    match s.seqStep with
    | .next t => State.seqRun k t
    | .fault f => .fault f
    | .refused r => .refused r

/-- The MFL left alone: a latched command runs as a whole, at the command level (R210); one that has begun at the
sequencer level runs on to its end, which is at most `N - IDX` block steps, the random step and the final step away
(R224), or to where it waits (R86; log 5). -/
def State.runCommand (s : State) : Host.Outcome State Fault Refusal :=
  match s.phase with
  | .idle => .next s
  | .check =>
    match s.command with
    | some i => exec i s
    | none => .next s.endIllegal
  | .rand | .block | .final => s.seqRun (s.n.toNat - s.idx.toNat + 2)

end Sys2Proof.Machine
end

