-- ==== Sys2Proof/Machine/Pins.lean ====
section
/-! DEFINITION. The signal-level binding (spec/20_memory.md R87): the placement of block bytes on a 128-bit vector
(spec/00_scope.md R14), the signals the MFL drives, and one rising edge of `clk` as a move of the machine. -/

namespace Sys2Proof.Machine

/-- A block on a 128-bit vector: byte `i` at bits `8i+7 : 8i` (R14, R64). -/
def blockBits (b : Block) : BitVec 128 :=
  (List.range 16).foldl (fun w i => w ||| ((byteOf b i).setWidth 128 <<< (8 * i))) 0

/-- The block a 128-bit vector carries (R14). -/
def bitsBlock (w : BitVec 128) : Block := blockOf fun i => w.extractLsb' (8 * i) 8

/-- `h_space`: 0 `REG`, 1 `IBUF`, 2 `OBUF`, 3 `BLK` (R87). -/
def spaceCode : Space → BitVec 2
  | .reg => 0
  | .ibuf => 1
  | .obuf => 2
  | .blk => 3

/-- The space of an `h_space` value (R87). -/
def spaceOfCode (c : BitVec 2) : Space :=
  if c = 0 then .reg else if c = 1 then .ibuf else if c = 2 then .obuf else .blk

/-- The access a host payload stands for. -/
def HostPins.access (p : HostPins) : Access :=
  if p.hWrite then .write (spaceOfCode p.hSpace) p.hAddr.toNat p.hWdata
  else .read (spaceOfCode p.hSpace) p.hAddr.toNat

/-- The random answer a response payload stands for (R87): with `r_rsp_fail` the data is ignored. -/
def RandomRspPins.answer (p : RandomRspPins) : RandomAnswer :=
  if p.rRspFail then .fail else .ok (bitsBlock p.rRspData)

/-- A transfer happens on a rising clock edge at which `valid` and `ready` are both 1 (R87). -/
def transferHappens (valid ready : Bool) : Bool := valid && ready

/-! ### The signals the MFL drives -/

/-- `c_req_valid` with its payload: a cipher request stands on the port from the step that makes it until the cipher takes
it (R80, R87); `none` is `c_req_valid = 0`. -/
def State.cReq (s : State) : Option CipherPins :=
  match s.outstanding with
  | some { request := .cipher op b k, accepted := false } =>
    some { cReqDec := decide (op = .dec), cReqBlock := blockBits b, cReqKey := blockBits k }
  | some { request := .cipher _ _ _, accepted := true } | some { request := .random _, accepted := _ } | none => none

/-- `r_req_valid` with its payload (R84, R87). -/
def State.rReq (s : State) : Option RandomPins :=
  match s.outstanding with
  | some { request := .random n, accepted := false } => some { rReqLen16 := decide (n = 16) }
  | some { request := .random _, accepted := true } | some { request := .cipher _ _ _, accepted := _ } | none => none

/-- `c_rsp_ready`: when it is raised is timing, but only while an answer is owed (log 14, log 21). -/
def State.cRspReady (s : State) (m : MflTiming) : Bool := m.cRspReady && decide (0 < s.owed.cipher)

/-- `r_rsp_ready`, in the same way. -/
def State.rRspReady (s : State) (m : MflTiming) : Bool := m.rRspReady && decide (0 < s.owed.random)

/-- `h_rdata`: the byte a read returns, valid in the cycle of the transfer (R87). -/
def State.hRdata (s : State) (p : HostPins) : Byte := s.hostRead (spaceOfCode p.hSpace) p.hAddr.toNat

/-! ### The five transfers of an edge -/

/-- The state after the host access of an edge, if one transfers (R66, R69). -/
def State.afterHost (p : InputPins) (m : MflTiming) (s : State) : State :=
  if transferHappens p.hValid m.hReady then s.hostAccess p.host.access else s

/-- Does the outstanding request transfer, on whichever request port it stands? -/
def State.requestTransfers (s : State) (p : InputPins) : Bool :=
  transferHappens s.cReq.isSome p.cReqReady || transferHappens s.rReq.isSome p.rReqReady

/-- Does an answer of the cipher transfer? -/
def State.cipherAnswers (s : State) (p : InputPins) (m : MflTiming) : Bool :=
  transferHappens p.cRspValid (s.cRspReady m)

/-- Does an answer of the random source transfer? -/
def State.randomAnswers (s : State) (p : InputPins) (m : MflTiming) : Bool :=
  transferHappens p.rRspValid (s.rRspReady m)

/-! ### One rising edge -/

/-- The request port after the edge: a request that transfers is the collaborator's to answer. -/
def State.takeRequest (p : InputPins) (s : State) : State :=
  if s.requestTransfers p then { s with outstanding := s.outstanding.map fun w => { w with accepted := true } } else s

/-- An outcome with its next state changed by `f`. -/
def nextWith (f : State → State) (o : Host.Outcome State Fault Refusal) : Host.Outcome State Fault Refusal :=
  match o with
  | .next t => .next (f t)
  | .fault e => .fault e
  | .refused r => .refused r

/-- A step of the sequencer with both collaborators answering, or neither; whether they answer afterwards is as before. -/
def State.seqStepAnswered (answers : Bool) (s : State) : Host.Outcome State Fault Refusal :=
  nextWith (State.answering s.cipher.live s.rng.live) (s.answering answers answers).seqStep

/-- What the running command does at the edge, whose answer ports bring what `p` holds (R215, R216). An answer that
transfers is one to a request of before a reset while such answers are owed, and is then discarded (R271; log 21);
otherwise it answers the outstanding request, and the step that waits on it is taken. With no request outstanding the
command takes its next step at an edge of the MFL's choice (log 14). -/
def State.sequencerEdge (p : InputPins) (m : MflTiming) (s : State) : Host.Outcome State Fault Refusal :=
  match s.outstanding with
  | some { request := .cipher op b k, accepted := true } =>
    if s.cipherAnswers p m ∧ s.late.cipher = 0 then
      State.seqStepAnswered true { s with cipher := s.cipher.learn op b k (bitsBlock p.cRspBlock) }
    else .next s
  | some { request := .random _, accepted := true } =>
    if s.randomAnswers p m ∧ s.late.random = 0 then
      State.seqStepAnswered true { s with rng := s.rng.give p.rRsp.answer }
    else .next s
  | some { request := _, accepted := false } => .next (s.takeRequest p)
  | none => if m.advance then s.seqStepAnswered false else .next s

/-- An edge at which `rst` is 1: reset (R270). A request that transfers at the edge has been taken, and its answer is
owed; an answer that transfers at it is discarded and owed no more (R271; log 21). DESIGN CHOICE (log 20): a host access
that transfers at the same edge is not performed; the spec leaves open whether it is. -/
def State.resetEdge (p : InputPins) (m : MflTiming) (s : State) : State :=
  { s.resetInput with late := (s.takeRequest p).owed.given (s.cipherAnswers p m) (s.randomAnswers p m) }

/-- One rising edge of `clk` (R87): reset alone where `rst` is 1 (log 20); otherwise the host access that transfers and,
where a command is running before the edge, its sequencer, both on the registers as they stand before the edge
(log 22). -/
def State.edge (p : InputPins) (m : MflTiming) (s : State) : Host.Outcome State Fault Refusal :=
  if p.rst then .next (s.resetEdge p m)
  else
    nextWith (fun u => { u with late := s.late.given (s.cipherAnswers p m) (s.randomAnswers p m) })
      (if s.busy then (s.afterHost p m).sequencerEdge p m else .next (s.afterHost p m))

/-! ### Payloads are held -/

/-- The sender holds its payload steady from one edge to the next while `valid` is 1 and `ready` is 0 (R87). -/
def holdsPayload {α : Type} (valid ready : Bool) (payload next : α) : Prop := valid = true → ready = false → next = payload

/-- The MFL, sender on the two request ports, from the edge `p` in state `s` to the state `t` after it. -/
def mflHolds (p : InputPins) (s t : State) : Prop :=
  holdsPayload s.cReq.isSome p.cReqReady s.cReq t.cReq ∧ holdsPayload s.rReq.isSome p.rReqReady s.rReq t.rReq

/-- The host, the cipher and the random source, senders on the other three, from the edge `p` in state `s` to the next
edge `q`: a premise about the outside world, for a claim that needs it. -/
def State.sendersHold (m : MflTiming) (p q : InputPins) (s : State) : Prop :=
  holdsPayload p.hValid m.hReady p.host q.host ∧
  holdsPayload p.cRspValid (s.cRspReady m) p.cRspBlock q.cRspBlock ∧
  holdsPayload p.rRspValid (s.rRspReady m) p.rRsp q.rRsp

end Sys2Proof.Machine
end

