-- ==== Sys2Proof/Machine/Moves.lean ====
section
/-! DEFINITION. What each move of the agenda does (log 6), and how a command comes to be the next to run (log 11). -/

namespace Sys2Proof.Machine

/-- One move of the agenda (log 6). -/
def State.takeMove (m : Move) (s : State) : Host.Outcome State Fault Refusal :=
  match m with
  | .host x => .next (s.hostAccess x)
  | .reset => .next s.resetInput
  | .mfl => s.runCommand
  | .mflStep => s.seqStep
  | .answering c r => .next (s.answering c r)
  | .edge p m => s.edge p m

/-- The state in which the very next move runs the command byte `v`: its `CMD` write has been accepted (R212) and the
MFL moves next (log 11). -/
def State.latchNext (v : Byte) (s : State) : State :=
  { s.startCommand v with agenda := .mfl :: s.agenda }

end Sys2Proof.Machine
end

