-- ==== Sys2Proof/Machine/Step.lean ====
section
/-! DEFINITION. The step: the next move of the agenda, or, with an empty agenda, the MFL left alone (log 6). -/

namespace Sys2Proof.Machine

/-- One step of the machine. -/
def step (s : State) : Host.Outcome State Fault Refusal :=
  match s.agenda with
  | [] => s.runCommand
  | m :: rest => State.takeMove m { s with agenda := rest }

/-- `s` with the command of a table word latched as the next to run (R72, R212; log 11). -/
def State.withFetchWord (s : State) (nbits w : Nat) : State :=
  s.latchNext ((tableWordBytes nbits w).headD 0)

end Sys2Proof.Machine
end

