-- ==== Sys2Proof/Machine/HostNotation.lean ====
section
/-! DEFINITION. The host notation: what the statements of spec/30_encoding.md R106, R107 do, and the source's function
calls as programs (R108). `WAIT` is the command left alone to its end and then one read of `STATUS` (log 17);
no statement but `WAIT` and `RUN` moves the MFL (log 23). -/

namespace Sys2Proof.Machine

/-- The result of a statement (R106, R107). -/
inductive StmtResult where
  /-- the statement has no result -/
  | done
  /-- the value read -/
  | byte (v : Byte)
  /-- a little-endian value -/
  | number (n : Nat)
  /-- a byte sequence -/
  | bytes (l : List Byte)
  deriving DecidableEq, Repr

/-- `le32(n)`: the four bytes of `n`, least significant first (R107). -/
def le32 (n : Nat) : List Byte := (List.range 4).map fun j => BitVec.ofNat 8 (n / 256 ^ j)

/-- The little-endian value of a byte sequence (R107). -/
def leValue : List Byte → Nat
  | [] => 0
  | b :: bs => b.toNat + 256 * leValue bs

/-- `WR <space> a+j <bytes>[j]` for every `j`, in order. -/
def writeRun (sp : Space) (a : Nat) : List Byte → List Access
  | [] => []
  | v :: vs => .write sp a v :: writeRun sp (a + 1) vs

/-- The expansion of a statement into accesses (R107); none for one that uses what it reads. -/
def expandStmt : Stmt → Option (List Access)
  | .access x => some [x]
  | .command i => some [.write .reg 0x00 (opcodeOf i)]
  | .strict b => some [.write .reg 0x01 (if b then 1 else 0)]
  | .setIlen n => some (writeRun .reg 0x04 (le32 n))
  | .setNblk n => some (writeRun .reg 0x0C (le32 n))
  | .loadI bytes => some (writeRun .ibuf 0 bytes ++ writeRun .reg 0x04 (le32 bytes.length))
  | .loadK bytes => some (writeRun .reg 0x10 bytes)
  | .loadA bytes => some (writeRun .reg 0x20 bytes)
  | .loadB bytes => some (writeRun .reg 0x30 bytes)
  | .loadBlk j bytes => some (writeRun .blk (16 * j) bytes)
  | .wait | .run _ | .getOlen | .getNblk | .getO | .getC | .copyOI | .flipI _ _ => none

/-- Accesses performed one after another (R70), with no sequencer step between them (log 23). -/
def State.hostAccesses : List Access → State → State
  | [], s => s
  | x :: xs, s => State.hostAccesses xs (s.hostAccess x)

/-- `RD <space> a+j` for `j = 0 .. k-1`, with no sequencer step between them (log 23): the state and the bytes read. -/
def State.readRun (sp : Space) (a : Nat) : Nat → State → State × List Byte
  | 0, s => (s, [])
  | k + 1, s =>
    let (t, l) := State.readRun sp (a + 1) k (s.hostAccess (.read sp a))
    (t, s.hostRead sp a :: l)

/-- `GETOLEN` and `GETNBLK`: four reads from `a` on and their little-endian value. -/
def State.readNumber (a : Nat) (s : State) : State × Nat :=
  let (t, l) := s.readRun .reg a 4
  (t, leValue l)

/-- The loop of `COPYOI`: `v <- RD OBUF j, WR IBUF j v` for `k` addresses from `j` on. -/
def State.copyLoop : Nat → Nat → State → State
  | 0, _, s => s
  | k + 1, j, s =>
    State.copyLoop k (j + 1) ((s.hostAccess (.read .obuf j)).hostAccess (.write .ibuf j (s.hostRead .obuf j)))

/-- `WAIT`: the running command runs to its end, and `STATUS` is read; no result where the command never ends (R86). -/
def State.waitEnd (s : State) : Option (State × Byte) :=
  match s.runCommand with
  | .next t => if t.busy then none else some (t.hostAccess (.read .reg 0x02), t.hostRead .reg 0x02)
  | .fault _ | .refused _ => none

/-- One statement (R106, R107); none where it never ends. DESIGN CHOICE, unsafe (log 23): the spec gives no timing (R294),
and here the MFL moves in `WAIT` and `RUN` alone, so a command that a bare `<MNEMONIC>` (or `WR REG 0x00`) starts stands
still, with `BUSY = 1`, until the next of them. -/
def State.runStmt (st : Stmt) (s : State) : Option (State × StmtResult) :=
  match st with
  | .access (.read sp a) => some (s.hostAccess (.read sp a), .byte (s.hostRead sp a))
  | .wait => s.waitEnd.map fun (t, v) => (t, .byte v)
  | .run i => (s.hostWrite .reg 0x00 (opcodeOf i)).waitEnd.map fun (t, v) => (t, .byte v)
  | .getOlen =>
    let (t, n) := s.readNumber 0x08
    some (t, .number n)
  | .getNblk =>
    let (t, n) := s.readNumber 0x0C
    some (t, .number n)
  | .getO =>
    let (t, n) := s.readNumber 0x08
    let (u, l) := t.readRun .obuf 0 n
    some (u, .bytes l)
  | .getC =>
    let (t, l) := s.readRun .reg 0x40 16
    some (t, .bytes l)
  | .copyOI =>
    let (t, n) := s.readNumber 0x08
    some ((t.copyLoop n 0).hostAccesses (writeRun .reg 0x04 (le32 n)), .done)
  | .flipI a mask =>
    let v := s.hostRead .ibuf a
    some ((s.hostAccess (.read .ibuf a)).hostAccess (.write .ibuf a (v ^^^ mask)), .done)
  | .access (.write _ _ _) | .command _ | .strict _ | .setIlen _ | .setNblk _ | .loadI _ | .loadK _ | .loadA _ | .loadB _
  | .loadBlk _ _ => (expandStmt st).map fun xs => (s.hostAccesses xs, .done)

/-- Statements one after another, the MFL standing still between them (log 23): the state and the results. -/
def State.runStmts : List Stmt → State → Option (State × List StmtResult)
  | [], s => some (s, [])
  | st :: rest, s =>
    match s.runStmt st with
    | none => none
    | some (t, r) => (State.runStmts rest t).map fun (u, rs) => (u, r :: rs)

/-! ### The source's calls (R108) -/

/-- A call `f(bytes[, key])` of the source's surface up to the read of `STATUS`. -/
def surfaceProgram (i : Instr) (key : Option Block) (bytes : List Byte) : List Stmt :=
  (match key with
    | none => []
    | some k => [.loadK k.toList]) ++ [.loadI bytes, .run i]

/-- The call: after its program the host reads `STATUS`; where the `ERR` field of the byte read is 0 the call returns
`GETO`, otherwise it returns that error. -/
def State.surfaceCall (i : Instr) (key : Option Block) (bytes : List Byte) (s : State) :
    Option (State × Except (BitVec 4) StmtResult) :=
  match s.runStmts (surfaceProgram i key bytes) with
  | none => none
  | some (t, _) =>
    let err := errOf (t.hostRead .reg 0x02)
    let u := t.hostAccess (.read .reg 0x02)
    if err = 0 then (u.runStmt .getO).map fun (v, r) => (v, .ok r) else some (u, .error err)

/-- A program's last result. -/
def State.lastResult (prog : List Stmt) (s : State) : Option (State × StmtResult) :=
  (s.runStmts prog).map fun (t, rs) => (t, rs.getLastD .done)

/-- `k` blocks of `BLK` from block `j` on, read byte by byte. -/
def State.readBlocks (j : Nat) : Nat → State → State × List Block
  | 0, s => (s, [])
  | k + 1, s =>
    let (t, l) := s.readRun .blk (16 * j) 16
    let (u, bs) := State.readBlocks (j + 1) k t
    (u, blockOf (l.getD · 0x00) :: bs)

/-- `group(data)` as a program. -/
def groupProgram (data : List Byte) : List Stmt := [.loadI data, .run .group]

/-- `group(data)`: after its program the host reads `GETNBLK`, and its result is the blocks `0 .. GETNBLK-1` of `BLK`. -/
def State.groupCall (data : List Byte) (s : State) : Option (State × List Block) :=
  (s.runStmts (groupProgram data)).map fun (t, _) =>
    let (u, n) := t.readNumber 0x0C
    u.readBlocks 0 n

/-- `LOADBLK j blocks[j]` for every `j` from `j` on. -/
def loadBlocks (j : Nat) : List Block → List Stmt
  | [] => []
  | b :: bs => .loadBlk j b.toList :: loadBlocks (j + 1) bs

/-- `un_group(blocks)` as a program. -/
def ungroupProgram (blocks : List Block) : List Stmt :=
  loadBlocks 0 blocks ++ [.setNblk blocks.length, .run .ungroup, .getO]

/-- `un_group(blocks)`: its result is `GETO`. -/
def State.ungroupCall (blocks : List Block) (s : State) : Option (State × StmtResult) := s.lastResult (ungroupProgram blocks)

/-- `xor(a, b)` as a program. -/
def xorProgram (a b : Block) : List Stmt := [.loadA a.toList, .loadB b.toList, .run .xor, .getC]

/-- `xor(a, b)`: its result is `GETC`. -/
def State.xorCall (a b : Block) (s : State) : Option (State × StmtResult) := s.lastResult (xorProgram a b)

end Sys2Proof.Machine
end

