-- ==== Sys2Proof/Safety.lean ====
section
/-! DEFINITION. What counts as a safe run: the invariant of the machine (the relations between `STATUS`, `PHASE`, `OPC`,
the lengths and the hidden registers that the spec's rules keep), and the terms the claims use. -/

namespace Sys2Proof.Machine

/-- The values `STATUS` can hold (R26, R240): after reset, running, ended with each code, ended with `PADINV`. -/
def statusValues : List Byte := [0x00, 0x01, 0x02, 0x06, 0x12, 0x22, 0x32, 0x42, 0x52]

/-- The hidden registers at rest (R46, R50). -/
abbrev State.hiddenClear (s : State) : Prop :=
  s.n = 0 ∧ s.idx = 0 ∧ s.prev = zeroBlock ∧ s.nonce = zeroNonce ∧ s.cnt = 0 ∧ s.work = [] ∧ s.outstanding = none

/-- The check step of `i` would pass (R213 steps 3 to 6). -/
abbrev State.checksPass (i : Instr) (s : State) : Prop :=
  (readsIbuf i = true → s.inLen ≤ s.params.capBytes) ∧ lengthOk i s.inLen = true ∧ s.resultLen i ≤ s.params.capBytes

/-- The destination has been cleared (R213 step 2). -/
abbrev State.outputClear (s : State) : Prop := s.obuf = [] ∧ s.olen = 0

/-- The commands with a random step (R215). -/
def drawsRandom : Instr → Bool
  | .cbcEnc | .ctrEnc => true
  | .pad | .unpad | .group | .ungroup | .xor | .ecbEnc | .ecbDec | .cbcDec | .ctrDec => false

/-- The six mode commands (R216). -/
def isMode : Instr → Bool
  | .ecbEnc | .ecbDec | .cbcEnc | .cbcDec | .ctrEnc | .ctrDec => true
  | .pad | .unpad | .group | .ungroup | .xor => false

/-- The three encrypt commands (R217). -/
def isEncrypt : Instr → Bool
  | .ecbEnc | .cbcEnc | .ctrEnc => true
  | .pad | .unpad | .group | .ungroup | .xor | .ecbDec | .cbcDec | .ctrDec => false

/-- The commands that finish with unpadding (R123). -/
def finishesUnpadding : Instr → Bool
  | .unpad | .ecbDec | .cbcDec | .ctrDec => true
  | .pad | .group | .ungroup | .xor | .ecbEnc | .cbcEnc | .ctrEnc => false

/-- What is outstanding while `i` waits in its block step: its cipher request (R216). -/
def State.blockAsked (i : Instr) (s : State) : Option PortRequest :=
  (blockRequest i s).map fun q => .cipher q.2.1 q.2.2 s.key

/-- The length of the prefix that stands at the front of the working output: only the encrypt commands put one there
(R215). -/
def outPrefix (i : Instr) : Nat := if isEncrypt i then prefixLen i else 0

/-- The sequencer's registers agree with its phase, for the latched command `i` (R211 to R217). -/
def State.phaseOk (i : Instr) (s : State) : Prop :=
  match s.phase with
  | .idle | .check => s.hiddenClear
  | .rand =>
    drawsRandom i = true ∧ s.checksPass i ∧ s.outputClear ∧ s.n.toNat = s.blockCount i ∧ s.idx = 0 ∧ s.work = [] ∧
    (s.asked = none ∨ s.asked = some (.random (prefixLen i)))
  | .block =>
    isMode i = true ∧ s.checksPass i ∧ s.outputClear ∧ s.n.toNat = s.blockCount i ∧ s.idx.toNat < s.n.toNat ∧
    s.work.length = outPrefix i + 16 * s.idx.toNat ∧ (s.asked = none ∨ s.asked = s.blockAsked i) ∧
    (prefixLen i = 8 → s.cnt.toNat = s.idx.toNat)
  | .final =>
    (isMode i = true ∨ i = .unpad) ∧ s.checksPass i ∧ s.outputClear ∧ s.work.length = s.resultLen i ∧
    s.idx = s.n ∧ s.outstanding = none

/-- THE INVARIANT: the parameters are those of R8; the buffers hold their canonical form inside their spaces (R33, R35);
`OLEN` is the length of `OBUF` and at most `CAP_BYTES` (R28, R34); `CTRL`'s reserved bits read 0 (R23); `STATUS` holds a
value of R26 and R240, `BUSY` exactly when `PHASE` is not `IDLE` (R41), and `STATUS` is 0x01 then; the sequencer's
registers agree with the phase. -/
structure State.Inv (s : State) : Prop where
  params_wf : s.params.wf = true
  ibuf_wf : s.ibuf.wf = true ∧ s.ibuf.below s.params.capBytes = true
  blk_wf : s.blk.wf = true ∧ s.blk.below s.blkSize = true
  olen_eq : s.olen.toNat = s.obuf.length ∧ s.obuf.length ≤ s.params.capBytes
  ctrl_reserved : ctrlBits s.ctrl = s.ctrl
  status_legal : s.status ∈ statusValues
  busy_iff : s.busy = true ↔ s.phase ≠ .idle
  sequencer : match s.command with
    | some i => s.phaseOk i
    | none => (s.phase = .idle ∨ s.phase = .check) ∧ s.hiddenClear

/-- The cipher and the random source answer (the liveness assumption of R86; log 5). -/
abbrev State.live (s : State) : Prop := s.cipher.live = true ∧ s.rng.live = true

/-- The property `CipherInverse` of R9 on the blocks `bs`: `D(E(b, k), k) = b`. -/
abbrev CipherPort.inverseOn (c : CipherPort) (k : Key) (bs : List Block) : Prop :=
  ∀ b ∈ bs, c.answer .dec (c.answer .enc b k) k = b

/-- A command at its end: the hidden registers are zero, the MFL is idle and `STATUS` is `status`; everything else is as
in `s` (R218, R247). -/
def State.endedWith (s : State) (status : Byte) : State :=
  { s with status := status, n := 0, idx := 0, prev := zeroBlock, nonce := zeroNonce, cnt := 0, work := []
           outstanding := none, phase := .idle }

/-- `s` with the output `w` in `OBUF`, `OLEN` its length (R34). -/
def State.withOutput (s : State) (w : List Byte) : State := { s with obuf := w, olen := BitVec.ofNat 32 w.length }

/-- A command that finishes with unpadding, applied to the data `w`, at its end (R123): valid padding is stripped;
malformed padding is `ERR_PADDING` with no output where `CTRL.STRICT = 1`, and the data unchanged with `PADINV` where it
is 0. -/
def State.endedUnpadding (s : State) (w : List Byte) : State :=
  if (padCheck w).1 then (s.withOutput (w.take (w.length - (padCheck w).2))).endedWith 0x02
  else if s.strict then (s.withOutput []).endedWith 0x52
  else (s.withOutput w).endedWith 0x06

/-- Run the command `i` from the host's side: write its opcode to `CMD` and leave the MFL alone (R108, R210). -/
def State.hostRun (i : Instr) (s : State) : Host.Outcome State Fault Refusal :=
  (s.hostWrite .reg 0x00 (opcodeOf i)).runCommand

/-- The operation a command asks the cipher for (R82); `CTR_DEC` asks `ENC` (R195). -/
def cipherOpOf : Instr → CipherOp
  | .ecbDec | .cbcDec => .dec
  | .pad | .unpad | .group | .ungroup | .xor | .ecbEnc | .cbcEnc | .ctrEnc | .ctrDec => .enc

/-- The ends of R249's table: which `STATUS` a legal command can end with. -/
def endsOf : Instr → List Byte
  | .pad | .ungroup | .ecbEnc => [0x02, 0x22]
  | .unpad => [0x02, 0x06, 0x22, 0x52]
  | .group => [0x02, 0x22, 0x32]
  | .xor => [0x02]
  | .ecbDec | .cbcDec | .ctrDec => [0x02, 0x06, 0x22, 0x32, 0x52]
  | .cbcEnc | .ctrEnc => [0x02, 0x22, 0x42]

end Sys2Proof.Machine
end

