-- ==== Sys2Proof/Certificates/Slice0/Obligations.lean ====
section
/-! DEFINITION. The statements for the provers. Each docstring names the rule of the spec the statement formalises. -/

open Sys2Proof Sys2Proof.Machine

/-! ### Encoding -/

/-- 30_encoding.md R100, R103: any sequence of commands, encoded one after another, decodes back to itself and leaves
exactly the bytes after it. -/
def Obligations.DecodeInvertsEncodeOnStreams : Prop :=
  ∀ (is : List Instr) (rest : List Byte), (∀ i ∈ is, i.wf = true) →
    decodeMany is.length ((is.map encode).flatten ++ rest) = .ok (is, rest)

/-- R101 (its decoder): the decoder compares the whole byte; what it accepts is the encoding and nothing else. -/
def Obligations.DecodedBytesAreTheEncoding : Prop :=
  ∀ (bytes : List Byte) (i : Instr) (rest : List Byte), decode bytes = .ok (i, rest) ↔ bytes = encode i ++ rest

/-- R102: the opcode map, row = bits 7:4, column = bits 3:0. -/
def Obligations.OpcodeMap : Prop :=
  ∀ row col : BitVec 4, decodeByte (row ++ col) =
    match row.toNat, col.toNat with
    | 0, 1 => some .pad
    | 0, 2 => some .unpad
    | 0, 3 => some .group
    | 0, 4 => some .ungroup
    | 0, 5 => some .xor
    | 1, 0 => some .ecbEnc
    | 1, 1 => some .ecbDec
    | 2, 0 => some .cbcEnc
    | 2, 1 => some .cbcDec
    | 3, 0 => some .ctrEnc
    | 3, 1 => some .ctrDec
    | _, _ => none

/-- R100: a few opcode bytes written out bit by bit decode to the commands of the table. -/
def Obligations.OpcodeWordsDecode : Prop :=
  decodeTableWord 8 0b00000001 = some .pad ∧ decodeTableWord 8 0b00000100 = some .ungroup ∧
  decodeTableWord 8 0b00010000 = some .ecbEnc ∧ decodeTableWord 8 0b00100001 = some .cbcDec ∧
  decodeTableWord 8 0b00110001 = some .ctrDec ∧ decodeTableWord 8 0b00000000 = none

/-- R105, R242: the other 245 byte values are illegal; written to `CMD` of an idle MFL, each ends at once with
`ERR_ILLEGAL` and changes nothing but `OPC` and `STATUS`, at both levels. -/
def Obligations.IllegalCommandTouchesNothing : Prop :=
  ((List.range 256).filter fun k => (decodeByte (BitVec.ofNat 8 k)).isNone).length = 245 ∧
  decodeByte 0x00 = none ∧
  ∀ (s : State) (v : Byte), s.Inv → s.phase = .idle → decodeByte v = none →
    (s.hostWrite .reg 0x00 v).runCommand = .next { s with opc := v, status := 0x12 } ∧
    (s.hostWrite .reg 0x00 v).seqStep = .next { s with opc := v, status := 0x12 }

/-! ### The step -/

/-- R72, R210: where a command is latched and the MFL moves next, the step is `exec` of the decoded command. -/
def Obligations.StepRunsTheLatchedCommand : Prop :=
  ∀ (s : State) (i : Instr) (rest : List Move), s.phase = .check → decode [s.opc] = .ok (i, []) →
    (s.agenda = [] → step s = exec i s) ∧
    (s.agenda = .mfl :: rest → step s = exec i { s with agenda := rest })

/-- Log 11: `withFetchWord` latches the command so that the very next step runs it, from any state. -/
def Obligations.FetchWordRunsNext : Prop :=
  ∀ (s : State) (w : Nat) (i : Instr), decodeTableWord 8 w = some i →
    step (s.withFetchWord 8 w) = exec i { s with opc := opcodeOf i, status := 0x01, phase := .check }

/-- R70, R273, R86, R210: the other moves of the agenda, one at a time in their order. The MFL left alone, by the move
`mfl` or with an empty agenda, does nothing where it is idle, ends an illegal command, and runs a command already in `RAND`,
`BLOCK` or `FINAL` through the steps it has left; where a legal command is latched `StepRunsTheLatchedCommand` says what it
does. -/
def Obligations.StepTakesTheNextMove : Prop :=
  ∀ (s : State) (rest : List Move) (x : Access) (p : InputPins) (m : MflTiming) (c r : Bool),
    (s.agenda = .host x :: rest → step s = .next (State.hostAccess x { s with agenda := rest })) ∧
    (s.agenda = .reset :: rest → step s = .next (State.resetInput { s with agenda := rest })) ∧
    (s.agenda = .mflStep :: rest → step s = State.seqStep { s with agenda := rest }) ∧
    (s.agenda = .edge p m :: rest → step s = State.edge p m { s with agenda := rest }) ∧
    (s.agenda = .answering c r :: rest →
      step s = .next { s with
        cipher := { s.cipher with live := c }, rng := { s.rng with live := r }, agenda := rest }) ∧
    (s.agenda = .mfl :: rest →
      (s.phase = .idle → step s = .next { s with agenda := rest }) ∧
      (s.phase = .check → s.command = none → step s = .next (State.endedWith { s with agenda := rest } 0x12)) ∧
      (s.phase = .rand ∨ s.phase = .block ∨ s.phase = .final →
        step s = State.seqRun (s.n.toNat - s.idx.toNat + 2) { s with agenda := rest })) ∧
    (s.agenda = [] →
      (s.phase = .idle → step s = .next s) ∧
      (s.phase = .check → s.command = none → step s = .next (s.endedWith 0x12)) ∧
      (s.phase = .rand ∨ s.phase = .block ∨ s.phase = .final →
        step s = s.seqRun (s.n.toNat - s.idx.toNat + 2)))

/-! ### The unit commands -/

/-- 40_padding_codec.md R120, R127: the shape of `pad`. -/
def Obligations.PadShape : Prop :=
  ∀ x : List Byte,
    (padBytes x).length = 16 * (x.length / 16 + 1) ∧ (padBytes x).length % 16 = 0 ∧
    x.length < (padBytes x).length ∧ (padBytes x).length ≤ x.length + 16 ∧
    (padBytes x).take x.length = x ∧
    (padBytes x).getLast?.map BitVec.toNat = some ((padBytes x).length - x.length)

/-- R121, R122: the validator is `(false, 0)` on the empty sequence; otherwise it depends on the last byte and on the
length alone. -/
def Obligations.ValidatorLooksAtLastByteAndLength : Prop :=
  padCheck [] = (false, 0) ∧
  (∀ (x : List Byte) (b : Byte),
    (padCheck (x ++ [b])).2 = b.toNat ∧
    ((padCheck (x ++ [b])).1 = true ↔ 1 ≤ b.toNat ∧ b.toNat ≤ 16 ∧ b.toNat ≤ x.length + 1)) ∧
  (∀ (x y : List Byte) (b : Byte), x.length = y.length → padCheck (x ++ [b]) = padCheck (y ++ [b])) ∧
  padCheck [0x01, 0x02, 0x03, 0x02] = (true, 2)

/-- R124: `PAD`. -/
def Obligations.PadResult : Prop :=
  opcodeOf .pad = 0x01 ∧
  ∀ s : State,
    (s.params.capBytes < s.inLen ∨ s.params.capBytes < s.inLen + (16 - s.inLen % 16) →
      exec .pad s = .next ((s.withOutput []).endedWith 0x22)) ∧
    (s.inLen ≤ s.params.capBytes → s.inLen + (16 - s.inLen % 16) ≤ s.params.capBytes →
      exec .pad s = .next ((s.withOutput (s.input ++
        List.replicate (16 - s.inLen % 16) (BitVec.ofNat 8 (16 - s.inLen % 16)))).endedWith 0x02)) ∧
    (∀ t, s.params.wf = true → exec .pad s = .next t → t.status = 0x02 → t.olen.toNat = 16 * (s.inLen / 16 + 1))

/-- R125 with R123: `UNPAD`. -/
def Obligations.UnpadResult : Prop :=
  opcodeOf .unpad = 0x02 ∧
  ∀ s : State,
    (s.params.capBytes < s.inLen → exec .unpad s = .next ((s.withOutput []).endedWith 0x22)) ∧
    (s.inLen ≤ s.params.capBytes → exec .unpad s = .next (s.endedUnpadding s.input))

/-- 41_segmenter_xor.md R143: `GROUP`. The blocks it stores are said byte by byte. -/
def Obligations.GroupResult : Prop :=
  opcodeOf .group = 0x03 ∧
  ∀ s : State, s.blk.wf = true →
    (s.params.capBytes < s.inLen → exec .group s = .next (State.endedWith { s with nblk := 0 } 0x22)) ∧
    (s.inLen ≤ s.params.capBytes → s.inLen % 16 ≠ 0 → exec .group s = .next (State.endedWith { s with nblk := 0 } 0x32)) ∧
    (s.inLen ≤ s.params.capBytes → s.inLen % 16 = 0 → ∃ m : Memory,
      exec .group s =
        .next (State.endedWith { s with blk := m, nblk := BitVec.ofNat 32 (s.inLen / 16) } 0x02) ∧
      m.wf = true ∧
      ∀ a, m.read a = if a < 16 * (s.inLen / 16) then s.ibuf.read a else s.blk.read a)

/-- R144: `UNGROUP`. -/
def Obligations.UngroupResult : Prop :=
  opcodeOf .ungroup = 0x04 ∧
  ∀ s : State,
    (s.params.capBytes < 16 * s.nblk.toNat → exec .ungroup s = .next ((s.withOutput []).endedWith 0x22)) ∧
    (16 * s.nblk.toNat ≤ s.params.capBytes →
      exec .ungroup s = .next ((s.withOutput (s.blk.readSeq 0 (16 * s.nblk.toNat))).endedWith 0x02))

/-- R145: `XOR`, which cannot fail. -/
def Obligations.XorResult : Prop :=
  opcodeOf .xor = 0x05 ∧
  ∀ s : State, ∃ c : Block,
    exec .xor s = .next (State.endedWith { s with xc := c } 0x02) ∧
    ∀ k, k < 16 → byteOf c k = byteOf s.xa k ^^^ byteOf s.xb k

/-- R140, R141, R142: the segmenter and the combiner byte by byte. -/
def Obligations.SegmenterAndCombinerBytes : Prop :=
  (∀ (x : List Byte) (j k : Nat), j < x.length / 16 → k < 16 →
    (groupBytes x)[j]?.map (byteOf · k) = x[16 * j + k]?) ∧
  (∀ (bs : List Block) (j k : Nat), k < 16 → (ungroupBlocks bs)[16 * j + k]? = bs[j]?.map (byteOf · k)) ∧
  (∀ (bs : List Block), (ungroupBlocks bs).length = 16 * bs.length) ∧
  (∀ (a b : Block) (k : Nat), k < 16 → byteOf (xor16 a b) k = byteOf a k ^^^ byteOf b k)

/-- R147: the laws of the combiner. -/
def Obligations.XorLaws : Prop :=
  ∀ a b c : Block, xor16 a (xor16 a b) = b ∧ xor16 a a = zeroBlock ∧ xor16 a b = xor16 b a ∧ xor16 a zeroBlock = a ∧
    xor16 (xor16 a b) c = xor16 a (xor16 b c)

/-! ### The mode commands -/

/-- 42_ecb.md R160: `ECB_ENC`. -/
def Obligations.EcbEncResult : Prop :=
  opcodeOf .ecbEnc = 0x10 ∧
  ∀ s : State,
    (s.params.capBytes < s.inLen ∨ s.params.capBytes < 16 * (s.inLen / 16 + 1) →
      exec .ecbEnc s = .next ((s.withOutput []).endedWith 0x22)) ∧
    (s.inLen ≤ s.params.capBytes → 16 * (s.inLen / 16 + 1) ≤ s.params.capBytes → s.cipher.live = true →
      exec .ecbEnc s = .next (((s.withOutput (ungroupBlocks ((groupBytes (padBytes s.input)).map
          fun b => s.cipher.answer .enc b s.key))).afterRequests
        ((groupBytes (padBytes s.input)).map fun b => .cipher .enc b s.key)).endedWith 0x02) ∧
      (groupBytes (padBytes s.input)).length = s.inLen / 16 + 1)

/-- R161 with R123: `ECB_DEC`. -/
def Obligations.EcbDecResult : Prop :=
  opcodeOf .ecbDec = 0x11 ∧
  ∀ s : State,
    (s.params.capBytes < s.inLen → exec .ecbDec s = .next ((s.withOutput []).endedWith 0x22)) ∧
    (s.inLen ≤ s.params.capBytes → s.inLen % 16 ≠ 0 → exec .ecbDec s = .next ((s.withOutput []).endedWith 0x32)) ∧
    (s.inLen ≤ s.params.capBytes → s.inLen % 16 = 0 → s.cipher.live = true →
      exec .ecbDec s = .next ((s.afterRequests ((groupBytes s.input).map fun c => .cipher .dec c s.key)).endedUnpadding
        (ungroupBlocks ((groupBytes s.input).map fun c => s.cipher.answer .dec c s.key))))

/-- 43_cbc.md R170, R171, R172: `CBC_ENC`. `c_i = E(xor16(b_i, c_{i-1}), KEY)` with `c_{-1} = IV`. -/
def Obligations.CbcEncResult : Prop :=
  opcodeOf .cbcEnc = 0x20 ∧
  ∀ s : State,
    (s.params.capBytes < s.inLen ∨ s.params.capBytes < 16 + 16 * (s.inLen / 16 + 1) →
      exec .cbcEnc s = .next ((s.withOutput []).endedWith 0x22)) ∧
    (s.inLen ≤ s.params.capBytes → 16 + 16 * (s.inLen / 16 + 1) ≤ s.params.capBytes → s.rng.live = true →
      s.rng.answer = .fail →
      exec .cbcEnc s = .next (((State.withOutput { s with rng := s.rng.advance } []).afterRequests
        [.random 16]).endedWith 0x42)) ∧
    (∀ iv : Block, s.inLen ≤ s.params.capBytes → 16 + 16 * (s.inLen / 16 + 1) ≤ s.params.capBytes → s.live →
      s.rng.answer = .ok iv → ∃ xs cs : List Block,
        exec .cbcEnc s = .next (((State.withOutput { s with rng := s.rng.advance } (iv.toList ++ ungroupBlocks cs)).afterRequests
          (.random 16 :: xs.map fun x => .cipher .enc x s.key)).endedWith 0x02) ∧
        xs.length = s.inLen / 16 + 1 ∧ cs.length = s.inLen / 16 + 1 ∧
        ∀ k, k < s.inLen / 16 + 1 →
          xs[k]? = some (xor16 ((groupBytes (padBytes s.input)).getD k zeroBlock) ((iv :: cs).getD k zeroBlock)) ∧
          cs[k]? = xs[k]?.map fun x => s.cipher.answer .enc x s.key)

/-- R173, R174 with R123: `CBC_DEC`. `p_i = xor16(D(c_i, KEY), c_{i-1})` with `c_{-1} = IV`. -/
def Obligations.CbcDecResult : Prop :=
  opcodeOf .cbcDec = 0x21 ∧
  ∀ s : State,
    (s.params.capBytes < s.inLen → exec .cbcDec s = .next ((s.withOutput []).endedWith 0x22)) ∧
    (s.inLen ≤ s.params.capBytes → s.inLen < 16 ∨ s.inLen % 16 ≠ 0 →
      exec .cbcDec s = .next ((s.withOutput []).endedWith 0x32)) ∧
    (s.inLen ≤ s.params.capBytes → 16 ≤ s.inLen → s.inLen % 16 = 0 → s.cipher.live = true → ∃ ps : List Block,
      exec .cbcDec s = .next ((s.afterRequests
        ((groupBytes (s.input.drop 16)).map fun c => .cipher .dec c s.key)).endedUnpadding (ungroupBlocks ps)) ∧
      ps.length = s.inLen / 16 - 1 ∧
      ∀ k, k < s.inLen / 16 - 1 →
        ps[k]? = some (xor16 (s.cipher.answer .dec ((groupBytes s.input).getD (k + 1) zeroBlock) s.key)
          ((groupBytes s.input).getD k zeroBlock)))

/-- 44_ctr.md R190: the counter block, byte by byte, in either order of `CTR_ENDIAN`. -/
def Obligations.CounterBlockBytes : Prop :=
  (∀ (e : Endian) (nonce : Nonce) (c : BitVec 64) (k : Nat), k < 8 → byteOf (ctrBlock e nonce c) k = nonce.toList.getD k 0) ∧
  (∀ (nonce : Nonce) (c : BitVec 64) (k : Nat), k < 8 →
    (byteOf (ctrBlock .be nonce c) (8 + k)).toNat = c.toNat / 256 ^ (7 - k) % 256 ∧
    (byteOf (ctrBlock .le nonce c) (8 + k)).toNat = c.toNat / 256 ^ k % 256) ∧
  ctrBlock .be #v[0xc0, 0xc1, 0xc2, 0xc3, 0xc4, 0xc5, 0xc6, 0xc7] 1 =
    #v[0xc0, 0xc1, 0xc2, 0xc3, 0xc4, 0xc5, 0xc6, 0xc7, 0, 0, 0, 0, 0, 0, 0, 1]

/-- R193, R191, R192, R196: `CTR_ENC`. Block `i` uses the counter value `i`. -/
def Obligations.CtrEncResult : Prop :=
  opcodeOf .ctrEnc = 0x30 ∧
  ∀ s : State,
    (s.params.capBytes < s.inLen ∨ s.params.capBytes < 8 + 16 * (s.inLen / 16 + 1) →
      exec .ctrEnc s = .next ((s.withOutput []).endedWith 0x22)) ∧
    (s.inLen ≤ s.params.capBytes → 8 + 16 * (s.inLen / 16 + 1) ≤ s.params.capBytes → s.rng.live = true →
      s.rng.answer = .fail →
      exec .ctrEnc s = .next (((State.withOutput { s with rng := s.rng.advance } []).afterRequests
        [.random 8]).endedWith 0x42)) ∧
    (∀ r : Block, s.inLen ≤ s.params.capBytes → 8 + 16 * (s.inLen / 16 + 1) ≤ s.params.capBytes → s.live →
      s.rng.answer = .ok r →
      exec .ctrEnc s = .next (((State.withOutput { s with rng := s.rng.advance }
        (r.toList.take 8 ++ ungroupBlocks ((List.range (s.inLen / 16 + 1)).map fun k =>
          xor16 ((groupBytes (padBytes s.input)).getD k zeroBlock)
            (s.cipher.answer .enc (ctrBlock s.params.ctrEndian (nonceOf r) (BitVec.ofNat 64 k)) s.key)))).afterRequests
        (.random 8 :: (List.range (s.inLen / 16 + 1)).map fun k =>
          .cipher .enc (ctrBlock s.params.ctrEndian (nonceOf r) (BitVec.ofNat 64 k)) s.key)).endedWith 0x02))

/-- R194 with R123: `CTR_DEC`. It asks `E`, never `D` (R195). -/
def Obligations.CtrDecResult : Prop :=
  opcodeOf .ctrDec = 0x31 ∧
  ∀ s : State,
    (s.params.capBytes < s.inLen → exec .ctrDec s = .next ((s.withOutput []).endedWith 0x22)) ∧
    (s.inLen ≤ s.params.capBytes → s.inLen < 8 ∨ (s.inLen - 8) % 16 ≠ 0 →
      exec .ctrDec s = .next ((s.withOutput []).endedWith 0x32)) ∧
    (∀ nonce : Nonce, s.inLen ≤ s.params.capBytes → 8 ≤ s.inLen → (s.inLen - 8) % 16 = 0 → s.cipher.live = true →
      nonce.toList = s.input.take 8 →
      exec .ctrDec s = .next ((s.afterRequests ((List.range ((s.inLen - 8) / 16)).map fun k =>
          .cipher .enc (ctrBlock s.params.ctrEndian nonce (BitVec.ofNat 64 k)) s.key)).endedUnpadding
        (ungroupBlocks ((List.range ((s.inLen - 8) / 16)).map fun k =>
          xor16 ((groupBytes (s.input.drop 8)).getD k zeroBlock)
            (s.cipher.answer .enc (ctrBlock s.params.ctrEndian nonce (BitVec.ofNat 64 k)) s.key)))))

/-- R175, R197: the lengths of CBC and CTR outputs. -/
def Obligations.CbcCtrLengths : Prop :=
  ∀ (s t : State), s.params.wf = true →
    (exec .cbcEnc s = .next t → t.phase = .idle → t.status = 0x02 →
      t.olen.toNat = 16 + 16 * (s.inLen / 16 + 1) ∧ t.olen.toNat % 16 = 0 ∧ 32 ≤ t.olen.toNat) ∧
    (∀ k, exec .cbcDec s = .next t → t.phase = .idle → s.inLen = 16 * (k + 1) → t.olen.toNat ≤ 16 * k) ∧
    (exec .ctrEnc s = .next t → t.phase = .idle → t.status = 0x02 →
      t.olen.toNat = 8 + 16 * (s.inLen / 16 + 1) ∧ 24 ≤ t.olen.toNat ∧ t.olen.toNat % 16 = 8 ∧
      (s.inLen = 13 → t.olen.toNat = 24))

/-- 42_ecb.md R164, the documented weakness: equal plaintext blocks give equal ciphertext blocks. -/
def Obligations.EcbShowsEqualBlocks : Prop :=
  ∀ (s t : State) (j k : Nat), s.params.wf = true → exec .ecbEnc s = .next t → t.status = 0x02 →
    j < s.inLen / 16 + 1 → k < s.inLen / 16 + 1 →
    (groupBytes (padBytes s.input))[j]? = (groupBytes (padBytes s.input))[k]? →
    (t.obuf.drop (16 * j)).take 16 = (t.obuf.drop (16 * k)).take 16

/-- 43_cbc.md R179: what a change `d` of one ciphertext block, or of the IV, does to the decrypted blocks. -/
def Obligations.CbcChangedBlock : Prop :=
  ∀ (dec : Block → Block) (iv d : Block) (cs : List Block) (k : Nat), k < cs.length →
    (cbcDecrypt dec iv (cs.set k (xor16 (cs.getD k zeroBlock) d)))[k]? =
      some (xor16 (dec (xor16 (cs.getD k zeroBlock) d)) ((iv :: cs).getD k zeroBlock)) ∧
    (cbcDecrypt dec iv (cs.set k (xor16 (cs.getD k zeroBlock) d)))[k + 1]? =
      (cbcDecrypt dec iv cs)[k + 1]?.map (xor16 · d) ∧
    (∀ j, j ≠ k → j ≠ k + 1 →
      (cbcDecrypt dec iv (cs.set k (xor16 (cs.getD k zeroBlock) d)))[j]? = (cbcDecrypt dec iv cs)[j]?) ∧
    (cbcDecrypt dec (xor16 iv d) cs)[0]? = (cbcDecrypt dec iv cs)[0]?.map (xor16 · d) ∧
    (∀ j, 0 < j → (cbcDecrypt dec (xor16 iv d) cs)[j]? = (cbcDecrypt dec iv cs)[j]?)

/-- 44_ctr.md R199 (the body): a change `d` of ciphertext block `k` changes exactly `d` of recovered block `k`. -/
def Obligations.CtrChangedBlock : Prop :=
  ∀ (enc : Block → Block) (e : Endian) (nonce : Nonce) (c : BitVec 64) (d : Block) (ts : List Block) (k : Nat),
    k < ts.length →
    ctrBlocks enc e nonce c (ts.set k (xor16 (ts.getD k zeroBlock) d)) =
      (ctrBlocks enc e nonce c ts).set k (xor16 ((ctrBlocks enc e nonce c ts).getD k zeroBlock) d)

/-- 45_sequencer.md R220, R221: the blocks the sequencer fetches are those the command rules name. -/
def Obligations.FetchedBlocks : Prop :=
  ∀ s : State,
    (∀ k, k < s.inLen / 16 + 1 → (groupBytes (padBytes s.input))[k]? = some (s.plainBlock k)) ∧
    (∀ k j, k < s.inLen / 16 → j < 16 → byteOf (s.plainBlock k) j = s.ibuf.read (16 * k + j)) ∧
    (∀ j, j < 16 → byteOf (s.plainBlock (s.inLen / 16)) j =
      if j < s.inLen % 16 then s.ibuf.read (16 * (s.inLen / 16) + j) else BitVec.ofNat 8 (16 - s.inLen % 16)) ∧
    (∀ pre k j, j < 16 → byteOf (s.bodyBlock pre k) j = s.ibuf.read (pre + 16 * k + j)) ∧
    (∀ pre k, k < (s.inLen - pre) / 16 →
      (groupBytes (s.input.drop pre))[k]? = some (s.bodyBlock pre k) ∧ pre + 16 * k + 16 ≤ s.inLen)

/-! ### The two levels -/

/-- R210: from an idle state, a write to `CMD` followed by sequencer steps ends in exactly the state the command level
gives, requests on the ports included. -/
def Obligations.LevelsAgree : Prop :=
  ∀ (s : State) (v : Byte), s.Inv → s.phase = .idle →
    (∀ i, decodeByte v = some i →
      ∀ k, 3 + s.blockCount i ≤ k → (s.hostWrite .reg 0x00 v).seqRun k = (s.hostWrite .reg 0x00 v).runCommand) ∧
    (decodeByte v = none → ∀ k, 1 ≤ k → (s.hostWrite .reg 0x00 v).seqRun k = (s.hostWrite .reg 0x00 v).runCommand) ∧
    (s.live → ∃ t, (s.hostWrite .reg 0x00 v).runCommand = .next t ∧ t.phase = .idle)

/-- R224, R86: under the liveness assumption every command ends after at most `3 + N` steps, with `N < 2^28`; it makes at
most `N` cipher requests and at most one random request. From every state with the invariant, whatever the phase, the MFL
left alone comes to rest. -/
def Obligations.CommandsTerminate : Prop :=
  (∀ (s : State) (i : Instr), s.Inv → s.phase = .check → s.command = some i → s.live → ∃ (k : Nat) (t : State),
    k ≤ 3 + s.blockCount i ∧ s.seqRun k = .next t ∧ t.phase = .idle ∧
    (isMode i = true → s.checksPass i → s.blockCount i < 2 ^ 28) ∧
    ∃ rs : List PortRequest, t.requests = s.requests ++ rs ∧
      (rs.filter fun r => match r with | .random _ => false | .cipher _ _ _ => true).length ≤ s.blockCount i ∧
      (rs.filter fun r => match r with | .random _ => true | .cipher _ _ _ => false).length ≤ 1) ∧
  (∀ s : State, s.Inv → s.live → ∃ t, s.runCommand = .next t ∧ t.phase = .idle)

/-- R82, R85, R195: which requests a command makes: `KEY` in every cipher request, the operation of the command, the one
random request first; the unit commands make none; and `N` cipher requests unless an error came before the loop. -/
def Obligations.RequestsOfACommand : Prop :=
  ∀ (i : Instr) (s t : State), s.live → exec i s = .next t → ∃ (bs : List Block),
    t.requests = s.requests ++
        ((if drawsRandom i = true ∧ t.status ≠ 0x22 then [.random (prefixLen i)] else []) ++
          bs.map fun b => .cipher (cipherOpOf i) b s.key) ∧
    (isMode i = false → bs = []) ∧
    (isMode i = true → t.status ∈ [0x02, 0x06, 0x52] → bs.length = s.blockCount i) ∧
    (t.status ∈ [0x22, 0x32, 0x42] → bs = [])

/-- R86, R292, R271: where the collaborator it waits on does not answer, `STATUS` stays 0x01 for ever, `WAIT` never ends,
and reset leaves the MFL idle with `STATUS = 0x00`. -/
def Obligations.WaitsForEver : Prop :=
  ∀ s : State, s.Inv → (s.phase = .block ∧ s.cipher.live = false) ∨ (s.phase = .rand ∧ s.rng.live = false) →
    (∀ k, ∃ t, s.seqRun k = .next t ∧ t.status = 0x01 ∧ t.phase = s.phase ∧ t.hostRead .reg 0x02 = 0x01) ∧
    s.waitEnd = none ∧ s.resetInput.phase = .idle ∧ s.resetInput.status = 0x00

/-! ### Errors, ends and frames -/

/-- R247, R219: a command that ends with an error leaves its destination's length cleared, `STATUS = 0x02 | (code << 4)`,
the hidden registers zero and `PHASE` idle, and changes nothing else but what it asked its ports; an illegal command has no
destination and asked nothing. -/
def Obligations.FailedCommandLeavesNothing : Prop :=
  (∀ (i : Instr) (s t : State), exec i s = .next t → t.phase = .idle → t.err ≠ 0 →
    ∃ code : ErrCode, t = State.endedWith
      { (match destOf i with
          | .obuf => s.withOutput []
          | .nblk => { s with nblk := 0 }
          | .xc | .none => s) with rng := t.rng, requests := t.requests } (0x02 ||| (errNumber code <<< 4))) ∧
  (∀ s : State, s.phase = .check → s.command = none → s.runCommand = .next (s.endedWith 0x12))

/-- R249: which command can end with which code, both ways. -/
def Obligations.ErrorTable : Prop :=
  (∀ (i : Instr) (s t : State), s.params.wf = true → exec i s = .next t → t.phase = .idle → t.status ∈ endsOf i) ∧
  (∀ (i : Instr) (st : Byte), st ∈ endsOf i →
    ∃ s t : State, s.Inv ∧ s.phase = .check ∧ s.command = some i ∧ exec i s = .next t ∧ t.phase = .idle ∧ t.status = st) ∧
  (∀ s : State, s.phase = .check → s.command = none → ∃ t, s.runCommand = .next t ∧ t.phase = .idle ∧ t.status = 0x12)

/-- R219, R21: what a command leaves unchanged when it ends or waits: the inputs always, every destination but its own,
byte for byte. -/
def Obligations.CommandFrame : Prop :=
  ∀ (i : Instr) (s t : State), s.blk.wf = true → exec i s = .next t →
    (t.opc = s.opc ∧ t.ctrl = s.ctrl ∧ t.ilen = s.ilen ∧ t.key = s.key ∧ t.xa = s.xa ∧ t.xb = s.xb ∧
      t.params = s.params ∧ t.cipher = s.cipher ∧ t.readData = s.readData ∧ t.agenda = s.agenda) ∧
    (∀ a, t.ibuf.read a = s.ibuf.read a) ∧
    (destOf i ≠ .obuf → t.obuf = s.obuf ∧ t.olen = s.olen) ∧
    (destOf i ≠ .nblk → t.nblk = s.nblk ∧ ∀ a, t.blk.read a = s.blk.read a) ∧
    (destOf i ≠ .xc → t.xc = s.xc) ∧
    (destOf i = .nblk → ∀ a, 16 * (s.inLen / 16) ≤ a → t.blk.read a = s.blk.read a) ∧
    (drawsRandom i = false → t.rng = s.rng) ∧
    (isMode i = false → t.requests = s.requests)

/-- R21 at the sequencer level: no step of the sequencer writes `IBUF`, `ILEN`, `KEY`, `CTRL`, `XA` or `XB`. -/
def Obligations.SequencerNeverWritesInputs : Prop :=
  ∀ s t : State, s.seqStep = .next t →
    t.ibuf = s.ibuf ∧ t.ilen = s.ilen ∧ t.key = s.key ∧ t.ctrl = s.ctrl ∧ t.xa = s.xa ∧ t.xb = s.xb ∧ t.opc = s.opc ∧
    t.params = s.params

/-- R33: the bytes of `IBUF` at addresses `>= ILEN` are ignored by every command. -/
def Obligations.BytesBeyondIlenAreIgnored : Prop :=
  ∀ (i : Instr) (s t : State) (m : Memory), (∀ a, a < s.inLen → m.read a = s.ibuf.read a) → exec i s = .next t →
    exec i { s with ibuf := m } = .next { t with ibuf := m }

/-! ### The host port -/

/-- 20_memory.md R69: host accesses while `STATUS.BUSY = 1`. -/
def Obligations.BusyAccesses : Prop :=
  ∀ s : State, s.busy = true →
    (∀ sp a v, s.hostWrite sp a v = s) ∧ s.hostRead .reg 0x02 = 0x01 ∧ s.hostRead .reg 0x00 = s.opc ∧
    (∀ sp a, ¬(sp = .reg ∧ (a = 0x00 ∨ a = 0x02)) → s.hostRead sp a = 0x00)

/-- 10_state.md R22: the register map as an idle MFL reads it. -/
def Obligations.RegisterMapReads : Prop :=
  ∀ s : State, s.busy = false →
    s.hostRead .reg 0x00 = s.opc ∧ s.hostRead .reg 0x01 = s.ctrl &&& 0x01 ∧ s.hostRead .reg 0x02 = s.status &&& 0xF7 ∧
    (∀ j, j < 4 →
      (s.hostRead .reg (0x04 + j)).toNat = s.ilen.toNat / 256 ^ j % 256 ∧
      (s.hostRead .reg (0x08 + j)).toNat = s.olen.toNat / 256 ^ j % 256 ∧
      (s.hostRead .reg (0x0C + j)).toNat = s.nblk.toNat / 256 ^ j % 256) ∧
    (∀ j, j < 16 →
      s.hostRead .reg (0x10 + j) = 0x00 ∧ s.hostRead .reg (0x20 + j) = byteOf s.xa j ∧
      s.hostRead .reg (0x30 + j) = byteOf s.xb j ∧ s.hostRead .reg (0x40 + j) = byteOf s.xc j) ∧
    s.hostRead .reg 0x03 = 0x00 ∧ ∀ a, 0x50 ≤ a → s.hostRead .reg a = 0x00

/-- R22, R66: the register map as an idle MFL takes writes: the byte written and nothing else. -/
def Obligations.RegisterMapWrites : Prop :=
  ∀ (s : State) (v : Byte), s.busy = false →
    s.hostWrite .reg 0x01 v = { s with ctrl := v &&& 0x01 } ∧
    (∀ j, j < 4 → ∃ w : Word,
      s.hostWrite .reg (0x04 + j) v = { s with ilen := w } ∧
      ∀ k, k < 4 → w.toNat / 256 ^ k % 256 = if k = j then v.toNat else s.ilen.toNat / 256 ^ k % 256) ∧
    (∀ j, j < 4 → ∃ w : Word,
      s.hostWrite .reg (0x0C + j) v = { s with nblk := w } ∧
      ∀ k, k < 4 → w.toNat / 256 ^ k % 256 = if k = j then v.toNat else s.nblk.toNat / 256 ^ k % 256) ∧
    (∀ j, j < 16 →
      (∃ b : Block, s.hostWrite .reg (0x10 + j) v = { s with key := b } ∧
        ∀ k, k < 16 → byteOf b k = if k = j then v else byteOf s.key k) ∧
      (∃ b : Block, s.hostWrite .reg (0x20 + j) v = { s with xa := b } ∧
        ∀ k, k < 16 → byteOf b k = if k = j then v else byteOf s.xa k) ∧
      (∃ b : Block, s.hostWrite .reg (0x30 + j) v = { s with xb := b } ∧
        ∀ k, k < 16 → byteOf b k = if k = j then v else byteOf s.xb k))

/-- R23: reserved offsets, reserved bits and read-only registers read 0 or ignore writes; `STATUS` bit 3 and `CTRL` bits
7:1 read 0. -/
def Obligations.ReservedAndReadOnly : Prop :=
  ∀ (s : State) (v : Byte), s.busy = false →
    (∀ a, a = 0x03 ∨ 0x50 ≤ a → s.hostRead .reg a = 0x00 ∧ s.hostWrite .reg a v = s) ∧
    (∀ a, a = 0x02 ∨ (0x08 ≤ a ∧ a < 0x0C) ∨ (0x40 ≤ a ∧ a < 0x50) → s.hostWrite .reg a v = s) ∧
    (s.hostRead .reg 0x02).getLsbD 3 = false ∧
    (∀ k, 1 ≤ k → (s.hostRead .reg 0x01).getLsbD k = false ∧
      ((s.hostWrite .reg 0x01 v).hostRead .reg 0x01).getLsbD k = false)

/-- R66, R33 to R35: the buffers of an idle MFL: a write inside `IBUF` or `BLK` changes that byte and no other, `OBUF` is
read-only and reads as the byte sequence of length `OLEN`. -/
def Obligations.BufferAccesses : Prop :=
  ∀ (s : State) (a : Nat) (v : Byte), s.Inv → s.busy = false →
    (a < s.params.capBytes → ∃ m : Memory, s.hostWrite .ibuf a v = { s with ibuf := m } ∧ m.wf = true ∧
      s.hostRead .ibuf a = s.ibuf.read a ∧ ∀ b, m.read b = if b = a then v else s.ibuf.read b) ∧
    (a < 16 * (s.params.capBytes / 16) → ∃ m : Memory, s.hostWrite .blk a v = { s with blk := m } ∧ m.wf = true ∧
      s.hostRead .blk a = s.blk.read a ∧ ∀ b, m.read b = if b = a then v else s.blk.read b) ∧
    s.hostWrite .obuf a v = s ∧ s.hostRead .obuf a = s.obuf.getD a 0x00

/-- R36: an address at or beyond the end of a buffer's space reads 0x00 and ignores writes. -/
def Obligations.BeyondTheSpaces : Prop :=
  ∀ (s : State) (a : Nat) (v : Byte), s.Inv → s.busy = false →
    (s.params.capBytes ≤ a → s.hostRead .ibuf a = 0x00 ∧ s.hostWrite .ibuf a v = s ∧
      s.hostRead .obuf a = 0x00 ∧ s.hostWrite .obuf a v = s) ∧
    (16 * (s.params.capBytes / 16) ≤ a → s.hostRead .blk a = 0x00 ∧ s.hostWrite .blk a v = s)

/-- R67: every write other than to `CMD` is idempotent. -/
def Obligations.WritesAreIdempotent : Prop :=
  ∀ (s : State) (sp : Space) (a : Nat) (v : Byte), s.Inv → ¬(sp = .reg ∧ a = 0x00) →
    (s.hostWrite sp a v).hostWrite sp a v = s.hostWrite sp a v

/-- R30: the key cannot be read: whatever accesses the host performs, the bytes it reads do not depend on `KEY`
(accesses alone, with no command run between them, log 23). -/
def Obligations.KeyCannotBeRead : Prop :=
  ∀ (s : State) (k : Key) (xs : List Access),
    (State.hostAccesses xs { s with key := k }).readData = (s.hostAccesses xs).readData

/-- R212: the start of a command. -/
def Obligations.StartOfACommand : Prop :=
  ∀ (s : State) (v : Byte), s.Inv →
    (s.phase = .idle → s.hostWrite .reg 0x00 v = { s with opc := v, status := 0x01, phase := .check }) ∧
    (s.phase ≠ .idle → s.hostWrite .reg 0x00 v = s)

/-- R26: the relations between the fields of `STATUS`. -/
def Obligations.StatusFields : Prop :=
  ∀ s : State, s.Inv →
    (s.busy = true → s.done = false ∧ s.padinv = false ∧ s.err = 0) ∧ (s.done = true → s.busy = false) ∧
    (s.padinv = true → s.err = 0) ∧ (s.err = 5 → s.padinv = false) ∧ (s.busy = true ↔ s.phase ≠ .idle) ∧ s.err.toNat ≤ 5

/-! ### Reset -/

/-- R270, R272: the reset input, in any phase: the registers of R50, `IBUF` and `BLK` unchanged. -/
def Obligations.ResetGivesTheTable : Prop :=
  ∀ (s : State) (rest : List Move), s.agenda = .reset :: rest → ∃ t, step s = .next t ∧
    t.opc = 0x00 ∧ t.ctrl = 0x01 ∧ t.status = 0x00 ∧ t.ilen = 0 ∧ t.olen = 0 ∧ t.nblk = 0 ∧
    t.key = zeroBlock ∧ t.xa = zeroBlock ∧ t.xb = zeroBlock ∧ t.xc = zeroBlock ∧ t.obuf = [] ∧
    t.phase = .idle ∧ t.n = 0 ∧ t.idx = 0 ∧ t.prev = zeroBlock ∧ t.nonce = zeroNonce ∧ t.cnt = 0 ∧
    t.ibuf = s.ibuf ∧ t.blk = s.blk ∧ t.busy = false ∧ t.done = false ∧ t.strict = true ∧ t.params = s.params

/-- R271: reset during a command: the answer to a random request made before the reset is discarded, whether or not the
source answers in the meantime, and no other is (log 13); on the pins the answer to a request that has been taken is owed
from then on (log 21). -/
def Obligations.ResetDiscardsTheLateAnswer : Prop :=
  ∀ (s : State) (i : Instr), s.Inv → s.command = some i →
    (s.phase = .rand → s.rng.live = false → ∃ t, s.seqStep = .next t ∧ t.resetInput.rng = s.rng.advance) ∧
    (∀ n, s.asked = some (.random n) → s.resetInput.rng = s.rng.advance) ∧
    (∀ op b k, s.asked = some (.cipher op b k) → s.resetInput.rng = s.rng) ∧
    (s.outstanding = none → s.resetInput.rng = s.rng ∧ s.resetInput.late = s.late) ∧
    (∀ r, s.outstanding = some ⟨r, false⟩ → s.resetInput.late = s.late) ∧
    (∀ n, s.outstanding = some ⟨.random n, true⟩ →
      s.resetInput.late = { s.late with random := s.late.random + 1 }) ∧
    (∀ op b k, s.outstanding = some ⟨.cipher op b k, true⟩ →
      s.resetInput.late = { s.late with cipher := s.late.cipher + 1 }) ∧
    s.resetInput.outstanding = none ∧ s.resetInput.obuf = [] ∧ s.resetInput.done = false

/-- R50, R52: the state after reset, for every contents of the buffers; `State.reset` is one of these states. The
parameters and the contents are the model's choice (logs 1, 2). -/
def Obligations.ResetStateMeetsInvariant : Prop :=
  (∀ (p : Params) (ibuf blk : Memory), p.wf = true → ibuf.wf = true → ibuf.below p.capBytes = true → blk.wf = true →
    blk.below (16 * (p.capBytes / 16)) = true → (State.afterPowerOn p ibuf blk).Inv) ∧
  State.reset = State.afterPowerOn Config.params [] [] ∧ State.reset.Inv

/-! ### The invariant -/

/-- Every step keeps the invariant, from every state that meets it. -/
def Obligations.StepKeepsInvariant : Prop := ∀ s t : State, s.Inv → step s = .next t → t.Inv

/-- From a state that meets the invariant every step answers a next state: the machine never stops. -/
def Obligations.StepNeverStops : Prop := ∀ s : State, s.Inv → ∃ t, step s = .next t

/-! ### Round trips in the host notation -/

/-- R126: `unpad(pad(x)) = x`, as functions and as commands, for either `CTRL.STRICT`; the converse does not hold. -/
def Obligations.PadRoundTrip : Prop :=
  (∀ x : List Byte, padCheck (padBytes x) = (true, 16 - x.length % 16) ∧
    (padBytes x).take ((padBytes x).length - (16 - x.length % 16)) = x) ∧
  (∀ (s : State) (x : List Byte), s.Inv → s.phase = .idle → x.length + 16 ≤ s.params.capBytes → ∃ t rs,
    s.runStmts [.loadI x, .run .pad, .copyOI, .run .unpad] = some (t, rs) ∧
    t.obuf = x ∧ t.olen.toNat = x.length ∧ t.status = 0x02) ∧
  (∃ x : List Byte, (padCheck x).1 = true ∧ padBytes (x.take (x.length - (padCheck x).2)) ≠ x)

/-- R146: the segmenter's round trips, as functions and as commands. -/
def Obligations.SegmenterRoundTrip : Prop :=
  (∀ x : List Byte, x.length % 16 = 0 → ungroupBlocks (groupBytes x) = x) ∧
  (∀ bs : List Block, groupBytes (ungroupBlocks bs) = bs ∧ (ungroupBlocks bs).length = 16 * bs.length) ∧
  (∀ x y : List Byte, x.length % 16 = 0 → y.length % 16 = 0 → groupBytes (x ++ y) = groupBytes x ++ groupBytes y) ∧
  (∀ (s : State) (x : List Byte), s.Inv → s.phase = .idle → x.length % 16 = 0 → x.length ≤ s.params.capBytes → ∃ t rs,
    s.runStmts [.loadI x, .run .group, .run .ungroup] = some (t, rs) ∧ t.obuf = x ∧ t.olen.toNat = x.length) ∧
  (∀ (s : State) (bs : List Block), s.Inv → s.phase = .idle → 16 * bs.length ≤ s.params.capBytes → ∃ t rs,
    s.runStmts (loadBlocks 0 bs ++ [.setNblk bs.length, .run .ungroup, .copyOI, .run .group]) = some (t, rs) ∧
    t.storedBlocks bs.length = bs ∧ t.nblk.toNat = bs.length)

/-- 42_ecb.md R163: the ECB round trip, for a cipher that inverts on the blocks used; without that property it fails. -/
def Obligations.EcbRoundTrip : Prop :=
  (∀ (s : State) (k : Key) (p : List Byte), s.Inv → s.phase = .idle → s.live →
    16 * (p.length / 16 + 1) ≤ s.params.capBytes → s.cipher.inverseOn k (groupBytes (padBytes p)) → ∃ t rs,
    s.runStmts [.loadK k.toList, .loadI p, .run .ecbEnc, .copyOI, .run .ecbDec] = some (t, rs) ∧
    t.obuf = p ∧ t.olen.toNat = p.length ∧ t.status = 0x02) ∧
  (∃ (s : State) (k : Key) (p : List Byte), s.Inv ∧ s.phase = .idle ∧ s.live ∧
    16 * (p.length / 16 + 1) ≤ s.params.capBytes ∧ ∃ t rs,
    s.runStmts [.loadK k.toList, .loadI p, .run .ecbEnc, .copyOI, .run .ecbDec] = some (t, rs) ∧ t.obuf ≠ p)

/-- 43_cbc.md R176: the CBC round trip, for every IV drawn. -/
def Obligations.CbcRoundTrip : Prop :=
  ∀ (s : State) (k : Key) (iv : Block) (p : List Byte), s.Inv → s.phase = .idle → s.live →
    16 + 16 * (p.length / 16 + 1) ≤ s.params.capBytes → s.rng.answer = .ok iv →
    s.cipher.inverseOn k (cbcCombined (fun b => s.cipher.answer .enc b k) iv (groupBytes (padBytes p))) → ∃ t rs,
    s.runStmts [.loadK k.toList, .loadI p, .run .cbcEnc, .copyOI, .run .cbcDec] = some (t, rs) ∧
    t.obuf = p ∧ t.olen.toNat = p.length ∧ t.status = 0x02

/-- 44_ctr.md R198: the CTR round trip, for every nonce drawn, with no assumption on the cipher. -/
def Obligations.CtrRoundTrip : Prop :=
  ∀ (s : State) (k : Key) (r : Block) (p : List Byte), s.Inv → s.phase = .idle → s.live →
    8 + 16 * (p.length / 16 + 1) ≤ s.params.capBytes → s.rng.answer = .ok r → ∃ t rs,
    s.runStmts [.loadK k.toList, .loadI p, .run .ctrEnc, .copyOI, .run .ctrDec] = some (t, rs) ∧
    t.obuf = p ∧ t.olen.toNat = p.length ∧ t.status = 0x02

/-! ### The pins -/

/-- 00_scope.md R14: block byte `i` is bits `8i+7 : 8i` of the 128-bit vector, and the vector carries the whole block. -/
def Obligations.BlockOnTheVector : Prop :=
  (∀ (b : Block) (k : Nat), k < 16 → (blockBits b).extractLsb' (8 * k) 8 = byteOf b k) ∧
  (∀ b : Block, bitsBlock (blockBits b) = b) ∧ (∀ w : BitVec 128, blockBits (bitsBlock w) = w)

/-- 20_memory.md R87 with R66, R80, R84, R271: one rising edge. Reset where `rst` is 1, whatever else transfers (log 20),
the answer to a request taken by then being owed and one that transfers at the edge owed no more (log 21); otherwise the
MFL holds its request until it is taken, a host access that transfers is performed, a request that transfers is taken
unchanged, an answer that transfers is the one the sequencer's step uses (R215, R216), answers owed from before a reset
come first and are discarded (log 21), a command whose answer has not come waits (R86), and with nothing outstanding it
takes one step or stays as it is (log 14), whatever the host reads at the same edge (log 22). In each case the whole next
state is said. -/
def Obligations.EdgesOfTheBinding : Prop :=
  ∀ (s : State) (p : InputPins) (m : MflTiming), s.Inv →
    (p.rst = true → ∃ l, s.edge p m = .next { s.resetInput with late := l } ∧
      (∀ op b k a, s.outstanding = some ⟨.cipher op b k, a⟩ → a = true ∨ p.cReqReady = true →
        l.cipher + (if s.cipherAnswers p m then 1 else 0) = s.late.cipher + 1 ∧
        l.random + (if s.randomAnswers p m then 1 else 0) = s.late.random) ∧
      (∀ n a, s.outstanding = some ⟨.random n, a⟩ → a = true ∨ p.rReqReady = true →
        l.cipher + (if s.cipherAnswers p m then 1 else 0) = s.late.cipher ∧
        l.random + (if s.randomAnswers p m then 1 else 0) = s.late.random + 1) ∧
      (s.outstanding = none ∨ (∃ op b k, s.outstanding = some ⟨.cipher op b k, false⟩ ∧ p.cReqReady = false) ∨
          (∃ n, s.outstanding = some ⟨.random n, false⟩ ∧ p.rReqReady = false) →
        l.cipher + (if s.cipherAnswers p m then 1 else 0) = s.late.cipher ∧
        l.random + (if s.randomAnswers p m then 1 else 0) = s.late.random)) ∧
    (p.rst = false → ∃ t, s.edge p m = .next t ∧ mflHolds p s t ∧
      t.late.cipher = s.late.cipher - (if s.cipherAnswers p m then 1 else 0) ∧
      t.late.random = s.late.random - (if s.randomAnswers p m then 1 else 0) ∧
      t.readData = s.readData ++
        (if p.hValid = true ∧ m.hReady = true ∧ p.host.hWrite = false then [s.hRdata p.host] else []) ∧
      (s.busy = false →
        (p.hValid = true → m.hReady = true → t = { s.hostAccess p.host.access with late := t.late }) ∧
        (p.hValid = false ∨ m.hReady = false → t = { s with late := t.late })) ∧
      (s.busy = true → s.outstanding = none →
        (m.advance = false → t = { s with readData := t.readData, late := t.late }) ∧
        (m.advance = true → ∃ u,
          State.seqStep { s with cipher := { s.cipher with live := false }, rng := { s.rng with live := false } } = .next u ∧
          t = { u with
            cipher := { u.cipher with live := s.cipher.live }, rng := { u.rng with live := s.rng.live }
            readData := t.readData, late := t.late })) ∧
      (∀ op b k, s.outstanding = some ⟨.cipher op b k, false⟩ →
        s.cReq = some ⟨decide (op = .dec), blockBits b, blockBits k⟩ ∧ s.rReq = none ∧
        t = { s with outstanding := some ⟨.cipher op b k, p.cReqReady⟩, readData := t.readData, late := t.late }) ∧
      (∀ n, s.outstanding = some ⟨.random n, false⟩ →
        s.rReq = some ⟨decide (n = 16)⟩ ∧ s.cReq = none ∧
        t = { s with outstanding := some ⟨.random n, p.rReqReady⟩, readData := t.readData, late := t.late }) ∧
      (∀ op b k, s.outstanding = some ⟨.cipher op b k, true⟩ → s.cReq = none ∧ s.rReq = none ∧
        (p.cRspValid = false ∨ m.cRspReady = false ∨ 0 < s.late.cipher →
          t = { s with readData := t.readData, late := t.late }) ∧
        (p.cRspValid = true → m.cRspReady = true → s.late.cipher = 0 →
          t = { s with
            idx := s.idx + 1, phase := if s.idx + 1 = s.n then .final else .block, outstanding := none
            cipher := { s.cipher with known := ⟨op, b, k, bitsBlock p.cRspBlock⟩ :: s.cipher.known }
            work := t.work, prev := t.prev, cnt := t.cnt, readData := t.readData, late := t.late } ∧
          (s.command = some .ecbEnc ∨ s.command = some .ecbDec →
            t.work = s.work ++ (bitsBlock p.cRspBlock).toList ∧ t.prev = s.prev ∧ t.cnt = s.cnt) ∧
          (s.command = some .cbcEnc →
            t.work = s.work ++ (bitsBlock p.cRspBlock).toList ∧ t.prev = bitsBlock p.cRspBlock ∧ t.cnt = s.cnt) ∧
          (s.command = some .cbcDec →
            t.work = s.work ++ (xor16 (bitsBlock p.cRspBlock) s.prev).toList ∧
            t.prev = s.bodyBlock 16 s.idx.toNat ∧ t.cnt = s.cnt) ∧
          (s.command = some .ctrEnc →
            t.work = s.work ++ (xor16 (s.plainBlock s.idx.toNat) (bitsBlock p.cRspBlock)).toList ∧
            t.prev = s.prev ∧ t.cnt = s.cnt + 1) ∧
          (s.command = some .ctrDec →
            t.work = s.work ++ (xor16 (s.bodyBlock 8 s.idx.toNat) (bitsBlock p.cRspBlock)).toList ∧
            t.prev = s.prev ∧ t.cnt = s.cnt + 1))) ∧
      (∀ n, s.outstanding = some ⟨.random n, true⟩ → s.cReq = none ∧ s.rReq = none ∧
        (p.rRspValid = false ∨ m.rRspReady = false ∨ 0 < s.late.random →
          t = { s with readData := t.readData, late := t.late }) ∧
        (p.rRspValid = true → m.rRspReady = true → s.late.random = 0 →
          (p.rRsp.rRspFail = true →
            t = { (s.withOutput []).endedWith 0x42 with
              rng := s.rng.advance, readData := t.readData, late := t.late }) ∧
          (p.rRsp.rRspFail = false → n = 16 →
            t = { s with
              prev := bitsBlock p.rRsp.rRspData, work := (bitsBlock p.rRsp.rRspData).toList, idx := 0, phase := .block
              outstanding := none, rng := s.rng.advance, readData := t.readData, late := t.late }) ∧
          (p.rRsp.rRspFail = false → n = 8 →
            t = { s with
              nonce := nonceOf (bitsBlock p.rRsp.rRspData), cnt := 0, work := (bitsBlock p.rRsp.rRspData).toList.take 8
              idx := 0, phase := .block, outstanding := none, rng := s.rng.advance, readData := t.readData
              late := t.late }) ∧
          (n = 16 ∨ n = 8))))
end

