-- ==== Sys2Proof/Laws/Memory.lean ====
section
/-! SUPPORT. The laws of the buffers: a read after a write, and that every operation keeps the canonical form. -/

namespace Sys2Proof.Machine

theorem Memory.read_nil (a : Nat) : Memory.read [] a = Memory.unlisted := rfl

theorem Memory.read_cons (b : Nat) (v : Byte) (m : Memory) (a : Nat) :
    Memory.read ((b, v) :: m) a = if a = b then v else Memory.read m a := rfl

theorem Memory.wfFrom_cons (lo a : Nat) (v : Byte) (m : Memory) :
    Memory.wfFrom lo ((a, v) :: m) = true ↔ lo ≤ a ∧ v ≠ Memory.unlisted ∧ Memory.wfFrom (a + 1) m = true := by
  simp [Memory.wfFrom, and_assoc]

theorem Memory.wfFrom_mono {lo lo' : Nat} (h : lo' ≤ lo) {m : Memory} (hm : Memory.wfFrom lo m = true) :
    Memory.wfFrom lo' m = true := by
  cases m with
  | nil => rfl
  | cons c m =>
    obtain ⟨a, v⟩ := c
    rw [Memory.wfFrom_cons] at hm ⊢
    exact ⟨le_trans h hm.1, hm.2⟩

/-- In canonical form from `lo` on, an address below `lo` lists no cell. -/
theorem Memory.read_of_wfFrom_lt {lo a : Nat} {m : Memory} (hm : Memory.wfFrom lo m = true) (h : a < lo) :
    Memory.read m a = Memory.unlisted := by
  induction m generalizing lo with
  | nil => rfl
  | cons c m ih =>
    obtain ⟨b, v⟩ := c
    rw [Memory.wfFrom_cons] at hm
    rw [Memory.read_cons, if_neg (by omega)]
    exact ih hm.2.2 (by omega)

/-- A read after a write, in canonical form: the byte written there, and every other byte as before. -/
theorem Memory.read_write_from {lo : Nat} {m : Memory} (hm : Memory.wfFrom lo m = true) (a : Nat) (v : Byte) (b : Nat) :
    Memory.read (Memory.write m a v) b = if b = a then v else Memory.read m b := by
  induction m generalizing lo with
  | nil =>
    by_cases hv : v = Memory.unlisted <;> by_cases hb : b = a <;> simp [Memory.write, Memory.read, hv, hb]
  | cons c m ih =>
    obtain ⟨k, w⟩ := c
    rw [Memory.wfFrom_cons] at hm
    have below : a ≤ k → Memory.read m a = Memory.unlisted := fun h =>
      Memory.read_of_wfFrom_lt hm.2.2 (by omega)
    unfold Memory.write
    by_cases h1 : a < k
    · by_cases hv : v = Memory.unlisted
      · rw [if_pos h1, if_pos hv]
        by_cases hb : b = a
        · subst hb
          rw [Memory.read_cons, if_neg (by omega), if_pos rfl, below (by omega), hv]
        · rw [if_neg hb]
      · rw [if_pos h1, if_neg hv, Memory.read_cons]
    · rw [if_neg h1]
      by_cases h2 : a = k
      · subst h2
        rw [if_pos rfl]
        by_cases hv : v = Memory.unlisted
        · rw [if_pos hv, Memory.read_cons]
          by_cases hb : b = a
          · subst hb
            rw [if_pos rfl, below (le_refl _), hv]
          · rw [if_neg hb, if_neg hb]
        · rw [if_neg hv, Memory.read_cons, Memory.read_cons]
          by_cases hb : b = a <;> simp [hb]
      · rw [if_neg h2, Memory.read_cons, Memory.read_cons, ih hm.2.2]
        by_cases hb : b = a
        · simp [hb, h2]
        · simp [hb]

theorem Memory.read_write {m : Memory} (hm : Memory.wf m = true) (a : Nat) (v : Byte) (b : Nat) :
    Memory.read (Memory.write m a v) b = if b = a then v else Memory.read m b :=
  Memory.read_write_from hm a v b

/-- A write keeps the canonical form. -/
theorem Memory.wfFrom_write {lo : Nat} {m : Memory} (hm : Memory.wfFrom lo m = true) {a : Nat} (ha : lo ≤ a) (v : Byte) :
    Memory.wfFrom lo (Memory.write m a v) = true := by
  induction m generalizing lo with
  | nil =>
    by_cases hv : v = Memory.unlisted <;> simp [Memory.write, Memory.wfFrom, hv, ha]
  | cons c m ih =>
    obtain ⟨k, w⟩ := c
    have hm' := (Memory.wfFrom_cons _ _ _ _).1 hm
    unfold Memory.write
    by_cases h1 : a < k
    · rw [if_pos h1]
      by_cases hv : v = Memory.unlisted
      · rw [if_pos hv]
        exact hm
      · rw [if_neg hv, Memory.wfFrom_cons, Memory.wfFrom_cons]
        exact ⟨ha, hv, by omega, hm'.2⟩
    · rw [if_neg h1]
      by_cases h2 : a = k
      · subst h2
        rw [if_pos rfl]
        by_cases hv : v = Memory.unlisted
        · rw [if_pos hv]
          exact Memory.wfFrom_mono (by omega) hm'.2.2
        · rw [if_neg hv, Memory.wfFrom_cons]
          exact ⟨ha, hv, hm'.2.2⟩
      · rw [if_neg h2, Memory.wfFrom_cons]
        exact ⟨hm'.1, hm'.2.1, ih hm'.2.2 (by omega)⟩

theorem Memory.wf_write {m : Memory} (hm : Memory.wf m = true) (a : Nat) (v : Byte) : Memory.wf (Memory.write m a v) = true :=
  Memory.wfFrom_write hm (Nat.zero_le a) v

theorem Memory.below_cons (size a : Nat) (v : Byte) (m : Memory) :
    Memory.below size ((a, v) :: m) = true ↔ a < size ∧ Memory.below size m = true := by
  simp only [Memory.below, List.all_cons, Bool.and_eq_true, decide_eq_true_eq]

/-- A write inside the space stays inside it. -/
theorem Memory.below_write {size : Nat} {m : Memory} (hm : Memory.below size m = true) {a : Nat} (ha : a < size) (v : Byte) :
    Memory.below size (Memory.write m a v) = true := by
  induction m with
  | nil => by_cases hv : v = Memory.unlisted <;> simp [Memory.write, Memory.below, hv, ha]
  | cons c m ih =>
    obtain ⟨k, w⟩ := c
    rw [Memory.below_cons] at hm
    unfold Memory.write
    split
    · split
      · exact (Memory.below_cons ..).2 hm
      · exact (Memory.below_cons ..).2 ⟨ha, (Memory.below_cons ..).2 hm⟩
    · split
      · split
        · exact hm.2
        · exact (Memory.below_cons ..).2 ⟨ha, hm.2⟩
      · exact (Memory.below_cons ..).2 ⟨hm.1, ih hm.2⟩

/-- Canonical memories that read the same everywhere are the same data. -/
theorem Memory.ext_from {lo : Nat} {m m' : Memory} (hm : Memory.wfFrom lo m = true) (hm' : Memory.wfFrom lo m' = true)
    (h : ∀ a, Memory.read m a = Memory.read m' a) : m = m' := by
  induction m generalizing lo m' with
  | nil =>
    cases m' with
    | nil => rfl
    | cons c m' =>
      obtain ⟨k, w⟩ := c
      have h1 := h k
      rw [Memory.read_cons, if_pos rfl, Memory.read_nil] at h1
      exact absurd h1.symm ((Memory.wfFrom_cons _ _ _ _).1 hm').2.1
  | cons c m ih =>
    obtain ⟨k, w⟩ := c
    have hk := (Memory.wfFrom_cons _ _ _ _).1 hm
    cases m' with
    | nil =>
      have h1 := h k
      rw [Memory.read_cons, if_pos rfl, Memory.read_nil] at h1
      exact absurd h1 hk.2.1
    | cons c' m' =>
      obtain ⟨k', w'⟩ := c'
      have hk' := (Memory.wfFrom_cons _ _ _ _).1 hm'
      have hkk : k = k' := by
        rcases Nat.lt_trichotomy k k' with h1 | h1 | h1
        · have h2 := h k
          rw [Memory.read_cons, if_pos rfl, Memory.read_cons, if_neg (by omega),
            Memory.read_of_wfFrom_lt hk'.2.2 (by omega)] at h2
          exact absurd h2 hk.2.1
        · exact h1
        · have h2 := h k'
          rw [Memory.read_cons, if_neg (by omega), Memory.read_cons, if_pos rfl,
            Memory.read_of_wfFrom_lt hk.2.2 (by omega)] at h2
          exact absurd h2.symm hk'.2.1
      subst hkk
      have hw : w = w' := by simpa [Memory.read_cons] using h k
      subst hw
      congr 1
      refine ih hk.2.2 hk'.2.2 fun a => ?_
      by_cases ha : a = k
      · rw [ha, Memory.read_of_wfFrom_lt hk.2.2 (by omega), Memory.read_of_wfFrom_lt hk'.2.2 (by omega)]
      · simpa [Memory.read_cons, ha] using h a

@[simp] theorem Memory.length_readSeq (m : Memory) (a k : Nat) : (Memory.readSeq m a k).length = k := by
  induction k generalizing a with
  | zero => rfl
  | succ k ih => simp [Memory.readSeq, ih]

theorem Memory.getElem?_readSeq (m : Memory) (a k i : Nat) :
    (Memory.readSeq m a k)[i]? = if i < k then some (Memory.read m (a + i)) else none := by
  induction k generalizing a i with
  | zero => simp [Memory.readSeq]
  | succ k ih =>
    cases i with
    | zero => simp [Memory.readSeq]
    | succ i =>
      simp only [Memory.readSeq, List.getElem?_cons_succ, ih, Nat.add_lt_add_iff_right]
      rw [show a + 1 + i = a + (i + 1) by omega]

theorem Memory.wf_writeSeq {m : Memory} (hm : Memory.wf m = true) (a : Nat) (vs : List Byte) :
    Memory.wf (Memory.writeSeq m a vs) = true := by
  induction vs generalizing m a with
  | nil => exact hm
  | cons v vs ih => exact ih (Memory.wf_write hm a v) (a + 1)

theorem Memory.below_writeSeq {size : Nat} {m : Memory} (hm : Memory.below size m = true) {a : Nat} {vs : List Byte}
    (h : a + vs.length ≤ size) : Memory.below size (Memory.writeSeq m a vs) = true := by
  induction vs generalizing m a with
  | nil => exact hm
  | cons v vs ih =>
    simp only [List.length_cons] at h
    exact ih (Memory.below_write hm (by omega) v) (by omega)

/-- A read after a sequence is stored from `a` on. -/
theorem Memory.read_writeSeq {m : Memory} (hm : Memory.wf m = true) (a : Nat) (vs : List Byte) (b : Nat) :
    Memory.read (Memory.writeSeq m a vs) b = if a ≤ b then (vs[b - a]?).getD (Memory.read m b) else Memory.read m b := by
  induction vs generalizing m a with
  | nil => simp [Memory.writeSeq]
  | cons v vs ih =>
    rw [Memory.writeSeq, ih (Memory.wf_write hm a v), Memory.read_write hm]
    by_cases h1 : b = a
    · subst h1
      simp
    · by_cases h2 : a ≤ b
      · rw [if_pos (by omega), if_neg h1, if_pos h2, show b - a = (b - (a + 1)) + 1 by omega]
        simp
      · rw [if_neg (by omega), if_neg h1, if_neg h2]

theorem Memory.wf_writeBlocks {m : Memory} (hm : Memory.wf m = true) (j : Nat) (bs : List Block) :
    Memory.wf (Memory.writeBlocks m j bs) = true := by
  induction bs generalizing m j with
  | nil => exact hm
  | cons b bs ih => exact ih (Memory.wf_writeSeq hm _ _) (j + 1)

theorem Memory.below_writeBlocks {size : Nat} {m : Memory} (hm : Memory.below size m = true) {j : Nat} {bs : List Block}
    (h : 16 * (j + bs.length) ≤ size) : Memory.below size (Memory.writeBlocks m j bs) = true := by
  induction bs generalizing m j with
  | nil => exact hm
  | cons b bs ih =>
    simp only [List.length_cons] at h
    refine ih (Memory.below_writeSeq hm ?_) (by omega)
    rw [Vector.length_toList]
    omega

/-- Storing blocks from block `j` on is storing their bytes from address `16*j` on. -/
theorem Memory.writeBlocks_eq (m : Memory) (j : Nat) (bs : List Block) :
    Memory.writeBlocks m j bs = Memory.writeSeq m (16 * j) (bs.map Vector.toList).flatten := by
  have append (m : Memory) (a : Nat) (xs ys : List Byte) :
      Memory.writeSeq m a (xs ++ ys) = Memory.writeSeq (Memory.writeSeq m a xs) (a + xs.length) ys := by
    induction xs generalizing m a with
    | nil => rfl
    | cons x xs ih =>
      rw [List.cons_append, Memory.writeSeq, ih, Memory.writeSeq, List.length_cons,
        show a + 1 + xs.length = a + (xs.length + 1) by omega]
  induction bs generalizing m j with
  | nil => rfl
  | cons b bs ih =>
    rw [Memory.writeBlocks, ih, List.map_cons, List.flatten_cons, append, Vector.length_toList,
      show 16 * (j + 1) = 16 * j + 16 by omega]

end Sys2Proof.Machine
end

