-- ==== Sys2Proof/Laws/Blocks.lean ====
section
/-! SUPPORT. The laws of blocks, of the padding codec, of the segmenter and of the combiner, and of the block fetches. -/

namespace Sys2Proof.Machine

/-! ### Bytes of a block -/

theorem byteOf_blockOf (f : Nat → Byte) {i : Nat} (h : i < 16) : byteOf (blockOf f) i = f i := by
  simp [byteOf, blockOf, h]

theorem byteOf_of_le (b : Block) {i : Nat} (h : 16 ≤ i) : byteOf b i = 0 := by
  simp [byteOf, Vector.getElem?_eq_none h]

theorem getElem_eq_byteOf (b : Block) {i : Nat} (h : i < 16) : b[i] = byteOf b i := by
  simp [byteOf, h]

theorem block_ext {a b : Block} (h : ∀ i, i < 16 → byteOf a i = byteOf b i) : a = b := by
  apply Vector.ext
  intro i hi
  rw [getElem_eq_byteOf a hi, getElem_eq_byteOf b hi, h i hi]

theorem blockOf_congr {f g : Nat → Byte} (h : ∀ i, i < 16 → f i = g i) : blockOf f = blockOf g :=
  block_ext fun i hi => by rw [byteOf_blockOf f hi, byteOf_blockOf g hi, h i hi]

theorem blockOf_byteOf (b : Block) : blockOf (byteOf b) = b := block_ext fun _ hi => byteOf_blockOf _ hi

theorem getElem?_toList (b : Block) {i : Nat} (h : i < 16) : b.toList[i]? = some (byteOf b i) := by
  simp [byteOf, h]

@[simp] theorem length_toList (b : Block) : b.toList.length = 16 := Vector.length_toList ..

theorem byteOf_setByteOf (b : Block) (i : Nat) (v : Byte) {j : Nat} (h : j < 16) :
    byteOf (setByteOf b i v) j = if j = i then v else byteOf b j := by
  by_cases hj : j = i
  · subst hj
    simp [byteOf, setByteOf, h]
  · simp [byteOf, setByteOf, hj, Ne.symm hj]

@[simp] theorem byteOf_zeroBlock (i : Nat) : byteOf zeroBlock i = 0 := by
  by_cases h : i < 16
  · simp [byteOf, zeroBlock, h]
  · exact byteOf_of_le _ (by omega)

/-! ### The combiner (R142, R147) -/

theorem byteOf_xor16 (a b : Block) (i : Nat) : byteOf (xor16 a b) i = byteOf a i ^^^ byteOf b i := by
  by_cases h : i < 16
  · exact byteOf_blockOf _ h
  · rw [byteOf_of_le _ (by omega), byteOf_of_le _ (by omega), byteOf_of_le _ (by omega)]
    rfl

theorem xor16_comm (a b : Block) : xor16 a b = xor16 b a :=
  block_ext fun i _ => by rw [byteOf_xor16, byteOf_xor16, BitVec.xor_comm]

theorem xor16_assoc (a b c : Block) : xor16 (xor16 a b) c = xor16 a (xor16 b c) :=
  block_ext fun i _ => by simp only [byteOf_xor16, BitVec.xor_assoc]

theorem xor16_self (a : Block) : xor16 a a = zeroBlock :=
  block_ext fun i _ => by simp [byteOf_xor16]

theorem xor16_zero (a : Block) : xor16 a zeroBlock = a :=
  block_ext fun i _ => by simp [byteOf_xor16]

theorem xor16_cancel (a b : Block) : xor16 (xor16 a b) b = a := by
  rw [xor16_assoc, xor16_self, xor16_zero]

/-! ### The padding codec (R120, R127, R128) -/

theorem padLen_pos (k : Nat) : 0 < padLen k := by
  unfold padLen
  omega

theorem padLen_le (k : Nat) : padLen k ≤ 16 := by
  unfold padLen
  omega

theorem add_padLen (k : Nat) : k + padLen k = 16 * (k / 16 + 1) := by
  unfold padLen
  omega

theorem toNat_padLen (k : Nat) : (BitVec.ofNat 8 (padLen k)).toNat = padLen k := by
  have h := padLen_le k
  rw [BitVec.toNat_ofNat]
  omega

theorem length_padBytes (s : List Byte) : (padBytes s).length = 16 * (s.length / 16 + 1) := by
  rw [padBytes, List.length_append, List.length_replicate, add_padLen]

theorem getLast?_padBytes (s : List Byte) : (padBytes s).getLast? = some (BitVec.ofNat 8 (padLen s.length)) := by
  have h := padLen_pos s.length
  rw [padBytes, List.getLast?_append, List.getLast?_replicate, if_neg (by omega)]
  rfl

/-- `padcheck(pad(x)) = (true, 16 - (len(x) mod 16))` (R126). -/
theorem padCheck_padBytes (s : List Byte) : padCheck (padBytes s) = (true, padLen s.length) := by
  have h1 := padLen_pos s.length
  have h2 := padLen_le s.length
  simp only [padCheck, getLast?_padBytes, toNat_padLen]
  simp only [padBytes, List.length_append, List.length_replicate, Prod.mk.injEq, and_true, Bool.and_eq_true,
    decide_eq_true_eq]
  omega

/-- Stripping the padding gives back `x` (R126). -/
theorem take_padBytes (s : List Byte) : (padBytes s).take ((padBytes s).length - padLen s.length) = s := by
  simp [padBytes]

/-! ### The segmenter (R140, R141, R146) -/

theorem byteOf_blockAt (s : List Byte) (j : Nat) {i : Nat} (h : i < 16) : byteOf (blockAt s j) i = s.getD (16 * j + i) 0 :=
  byteOf_blockOf _ h

@[simp] theorem length_groupBytes (s : List Byte) : (groupBytes s).length = s.length / 16 := by simp [groupBytes]

theorem getElem?_groupBytes (s : List Byte) {j : Nat} (h : j < s.length / 16) : (groupBytes s)[j]? = some (blockAt s j) := by
  simp [groupBytes, h]

theorem ungroupBlocks_nil : ungroupBlocks [] = [] := rfl

theorem ungroupBlocks_cons (b : Block) (bs : List Block) : ungroupBlocks (b :: bs) = b.toList ++ ungroupBlocks bs := rfl

theorem ungroupBlocks_append (bs cs : List Block) : ungroupBlocks (bs ++ cs) = ungroupBlocks bs ++ ungroupBlocks cs := by
  simp [ungroupBlocks]

@[simp] theorem length_ungroupBlocks (bs : List Block) : (ungroupBlocks bs).length = 16 * bs.length := by
  induction bs with
  | nil => rfl
  | cons b bs ih =>
    rw [ungroupBlocks_cons, List.length_append, ih, length_toList, List.length_cons]
    omega

theorem getElem?_ungroupBlocks (bs : List Block) (j : Nat) {i : Nat} (h : i < 16) :
    (ungroupBlocks bs)[16 * j + i]? = bs[j]?.map (byteOf · i) := by
  induction bs generalizing j with
  | nil => simp [ungroupBlocks_nil]
  | cons b bs ih =>
    rw [ungroupBlocks_cons]
    cases j with
    | zero =>
      rw [List.getElem?_append_left (by rw [length_toList]; omega), Nat.mul_zero, Nat.zero_add, getElem?_toList _ h]
      rfl
    | succ j =>
      rw [List.getElem?_append_right (by rw [length_toList]; omega), length_toList,
        show 16 * (j + 1) + i - 16 = 16 * j + i by omega, ih, List.getElem?_cons_succ]

/-- `group(un_group(b)) = b` (R146). -/
theorem groupBytes_ungroupBlocks (bs : List Block) : groupBytes (ungroupBlocks bs) = bs := by
  apply List.ext_getElem?
  intro j
  by_cases hj : j < bs.length
  · rw [getElem?_groupBytes _ (by rw [length_ungroupBlocks]; omega)]
    rw [List.getElem?_eq_getElem hj]
    congr 1
    refine block_ext fun i hi => ?_
    rw [byteOf_blockAt _ _ hi, List.getD_eq_getElem?_getD, getElem?_ungroupBlocks _ _ hi, List.getElem?_eq_getElem hj]
    rfl
  · rw [List.getElem?_eq_none (by simp; omega), List.getElem?_eq_none (by omega)]

/-- `un_group(group(x)) = x` for an aligned `x` (R146). -/
theorem ungroupBlocks_groupBytes {s : List Byte} (h : s.length % 16 = 0) : ungroupBlocks (groupBytes s) = s := by
  apply List.ext_getElem?
  intro k
  by_cases hk : k < s.length
  · have hk' : k = 16 * (k / 16) + k % 16 := (Nat.div_add_mod k 16).symm
    have hlt : k % 16 < 16 := Nat.mod_lt _ (by omega)
    rw [hk', getElem?_ungroupBlocks _ _ hlt, getElem?_groupBytes _ (by omega), ← hk', Option.map_some,
      byteOf_blockAt _ _ hlt, ← hk', List.getD_eq_getElem?_getD, List.getElem?_eq_getElem hk]
    rfl
  · rw [List.getElem?_eq_none (by simp; omega), List.getElem?_eq_none (by omega)]

/-- `group(s ++ t) = group(s) ++ group(t)` for aligned `s` and `t` (R146). -/
theorem groupBytes_append {s t : List Byte} (hs : s.length % 16 = 0) (ht : t.length % 16 = 0) :
    groupBytes (s ++ t) = groupBytes s ++ groupBytes t := by
  conv_lhs => rw [← ungroupBlocks_groupBytes hs, ← ungroupBlocks_groupBytes ht]
  rw [← ungroupBlocks_append, groupBytes_ungroupBlocks]

/-! ### The input and the block fetches (R220, R221) -/

@[simp] theorem length_input (s : State) : s.input.length = s.inLen := Memory.length_readSeq ..

theorem getD_input (s : State) {k : Nat} (h : k < s.inLen) : s.input.getD k 0 = s.ibuf.read k := by
  rw [List.getD_eq_getElem?_getD, State.input, Memory.getElem?_readSeq, if_pos h]
  simp

theorem length_padBytes_input (s : State) : (padBytes s.input).length / 16 = s.inLen / 16 + 1 := by
  rw [length_padBytes, length_input]
  omega

/-- The fetched plaintext blocks are those of `group(pad(IBUF[0:ILEN]))` (R220). -/
theorem groupBytes_padBytes_input (s : State) :
    groupBytes (padBytes s.input) = (List.range (s.inLen / 16 + 1)).map s.plainBlock := by
  rw [groupBytes, length_padBytes_input]
  apply List.map_congr_left
  intro j hj
  rw [List.mem_range] at hj
  refine block_ext fun i hi => ?_
  rw [byteOf_blockAt _ _ hi, padBytes, length_input]
  unfold State.plainBlock
  by_cases hlt : j < s.inLen / 16
  · rw [if_pos hlt, Memory.readBlock, byteOf_blockOf _ hi, List.getD_append _ _ _ _ (by rw [length_input]; omega),
      getD_input _ (by omega)]
  · rw [if_neg hlt, byteOf_blockOf _ hi]
    by_cases hi' : i < s.inLen % 16
    · rw [if_pos hi', List.getD_append _ _ _ _ (by rw [length_input]; omega), getD_input _ (by omega)]
    · have h := add_padLen s.inLen
      rw [if_neg hi', List.getD_append_right _ _ _ _ (by rw [length_input]; omega), length_input,
        List.getD_eq_getElem?_getD, List.getElem?_replicate, if_pos (by omega)]
      rfl

/-- The fetched ciphertext blocks are those of the input behind its prefix (R221). -/
theorem groupBytes_drop_input (s : State) (pre : Nat) :
    groupBytes (s.input.drop pre) = (List.range ((s.inLen - pre) / 16)).map (s.bodyBlock pre) := by
  rw [groupBytes, List.length_drop, length_input]
  apply List.map_congr_left
  intro j hj
  rw [List.mem_range] at hj
  refine block_ext fun i hi => ?_
  rw [byteOf_blockAt _ _ hi, State.bodyBlock, Memory.readBlock, byteOf_blockOf _ hi, List.getD_eq_getElem?_getD,
    List.getElem?_drop, ← List.getD_eq_getElem?_getD, getD_input _ (by omega)]
  congr 1
  omega

/-- The IV, or the nonce's bytes, read from the front of `IBUF` (R173, R194). -/
theorem byteOf_blockAt_input (s : State) {i : Nat} (hi : i < 16) (h : i < s.inLen) :
    byteOf (blockAt s.input 0) i = byteOf (s.ibuf.readBlock 0) i := by
  rw [byteOf_blockAt _ _ hi, Memory.readBlock, byteOf_blockOf _ hi, getD_input _ (by omega)]

theorem nonceOf_congr {a b : Block} (h : ∀ i, i < 8 → byteOf a i = byteOf b i) : nonceOf a = nonceOf b := by
  apply Vector.ext
  intro i hi
  simp [nonceOf, h i hi]

/-! ### The block loops as index laws -/

@[simp] theorem length_cbcEncrypt (enc : Block → Block) (iv : Block) (bs : List Block) :
    (cbcEncrypt enc iv bs).length = bs.length := by
  induction bs generalizing iv with
  | nil => rfl
  | cons b bs ih => simp [cbcEncrypt, ih]

@[simp] theorem length_cbcCombined (enc : Block → Block) (iv : Block) (bs : List Block) :
    (cbcCombined enc iv bs).length = bs.length := by
  induction bs generalizing iv with
  | nil => rfl
  | cons b bs ih => simp [cbcCombined, ih]

@[simp] theorem length_cbcDecrypt (dec : Block → Block) (iv : Block) (cs : List Block) :
    (cbcDecrypt dec iv cs).length = cs.length := by
  induction cs generalizing iv with
  | nil => rfl
  | cons c cs ih => simp [cbcDecrypt, ih]

@[simp] theorem length_ctrBlocks (enc : Block → Block) (e : Endian) (nonce : Nonce) (c : BitVec 64) (ts : List Block) :
    (ctrBlocks enc e nonce c ts).length = ts.length := by
  induction ts generalizing c with
  | nil => rfl
  | cons t ts ih => simp [ctrBlocks, ih]

@[simp] theorem length_ctrCounters (e : Endian) (nonce : Nonce) (c : BitVec 64) (k : Nat) :
    (ctrCounters e nonce c k).length = k := by
  induction k generalizing c with
  | zero => rfl
  | succ k ih => simp [ctrCounters, ih]

end Sys2Proof.Machine
end

