-- ==== Sys2Proof/Laws/State.lean ====
section
/-! SUPPORT. One lemma per field per update of State: what each named update writes and what it leaves. -/

namespace Sys2Proof.Machine

/-! ### `startCommand` -/

@[simp] theorem State.startCommand_opc (v : Byte) (s : State) : (s.startCommand v).opc = v := rfl
@[simp] theorem State.startCommand_ctrl (v : Byte) (s : State) : (s.startCommand v).ctrl = s.ctrl := rfl
@[simp] theorem State.startCommand_status (v : Byte) (s : State) : (s.startCommand v).status = statusStart := rfl
@[simp] theorem State.startCommand_ilen (v : Byte) (s : State) : (s.startCommand v).ilen = s.ilen := rfl
@[simp] theorem State.startCommand_olen (v : Byte) (s : State) : (s.startCommand v).olen = s.olen := rfl
@[simp] theorem State.startCommand_nblk (v : Byte) (s : State) : (s.startCommand v).nblk = s.nblk := rfl
@[simp] theorem State.startCommand_key (v : Byte) (s : State) : (s.startCommand v).key = s.key := rfl
@[simp] theorem State.startCommand_xa (v : Byte) (s : State) : (s.startCommand v).xa = s.xa := rfl
@[simp] theorem State.startCommand_xb (v : Byte) (s : State) : (s.startCommand v).xb = s.xb := rfl
@[simp] theorem State.startCommand_xc (v : Byte) (s : State) : (s.startCommand v).xc = s.xc := rfl
@[simp] theorem State.startCommand_ibuf (v : Byte) (s : State) : (s.startCommand v).ibuf = s.ibuf := rfl
@[simp] theorem State.startCommand_obuf (v : Byte) (s : State) : (s.startCommand v).obuf = s.obuf := rfl
@[simp] theorem State.startCommand_blk (v : Byte) (s : State) : (s.startCommand v).blk = s.blk := rfl
@[simp] theorem State.startCommand_phase (v : Byte) (s : State) : (s.startCommand v).phase = .check := rfl
@[simp] theorem State.startCommand_n (v : Byte) (s : State) : (s.startCommand v).n = s.n := rfl
@[simp] theorem State.startCommand_idx (v : Byte) (s : State) : (s.startCommand v).idx = s.idx := rfl
@[simp] theorem State.startCommand_prev (v : Byte) (s : State) : (s.startCommand v).prev = s.prev := rfl
@[simp] theorem State.startCommand_nonce (v : Byte) (s : State) : (s.startCommand v).nonce = s.nonce := rfl
@[simp] theorem State.startCommand_cnt (v : Byte) (s : State) : (s.startCommand v).cnt = s.cnt := rfl
@[simp] theorem State.startCommand_work (v : Byte) (s : State) : (s.startCommand v).work = s.work := rfl
@[simp] theorem State.startCommand_params (v : Byte) (s : State) : (s.startCommand v).params = s.params := rfl
@[simp] theorem State.startCommand_cipher (v : Byte) (s : State) : (s.startCommand v).cipher = s.cipher := rfl
@[simp] theorem State.startCommand_rng (v : Byte) (s : State) : (s.startCommand v).rng = s.rng := rfl
@[simp] theorem State.startCommand_outstanding (v : Byte) (s : State) : (s.startCommand v).outstanding = s.outstanding := rfl
@[simp] theorem State.startCommand_late (v : Byte) (s : State) : (s.startCommand v).late = s.late := rfl
@[simp] theorem State.startCommand_requests (v : Byte) (s : State) : (s.startCommand v).requests = s.requests := rfl
@[simp] theorem State.startCommand_readData (v : Byte) (s : State) : (s.startCommand v).readData = s.readData := rfl
@[simp] theorem State.startCommand_agenda (v : Byte) (s : State) : (s.startCommand v).agenda = s.agenda := rfl

/-! ### `endCommand` -/

@[simp] theorem State.endCommand_opc (v : Byte) (s : State) : (s.endCommand v).opc = s.opc := rfl
@[simp] theorem State.endCommand_ctrl (v : Byte) (s : State) : (s.endCommand v).ctrl = s.ctrl := rfl
@[simp] theorem State.endCommand_status (v : Byte) (s : State) : (s.endCommand v).status = v := rfl
@[simp] theorem State.endCommand_ilen (v : Byte) (s : State) : (s.endCommand v).ilen = s.ilen := rfl
@[simp] theorem State.endCommand_olen (v : Byte) (s : State) : (s.endCommand v).olen = s.olen := rfl
@[simp] theorem State.endCommand_nblk (v : Byte) (s : State) : (s.endCommand v).nblk = s.nblk := rfl
@[simp] theorem State.endCommand_key (v : Byte) (s : State) : (s.endCommand v).key = s.key := rfl
@[simp] theorem State.endCommand_xa (v : Byte) (s : State) : (s.endCommand v).xa = s.xa := rfl
@[simp] theorem State.endCommand_xb (v : Byte) (s : State) : (s.endCommand v).xb = s.xb := rfl
@[simp] theorem State.endCommand_xc (v : Byte) (s : State) : (s.endCommand v).xc = s.xc := rfl
@[simp] theorem State.endCommand_ibuf (v : Byte) (s : State) : (s.endCommand v).ibuf = s.ibuf := rfl
@[simp] theorem State.endCommand_obuf (v : Byte) (s : State) : (s.endCommand v).obuf = s.obuf := rfl
@[simp] theorem State.endCommand_blk (v : Byte) (s : State) : (s.endCommand v).blk = s.blk := rfl
@[simp] theorem State.endCommand_phase (v : Byte) (s : State) : (s.endCommand v).phase = .idle := rfl
@[simp] theorem State.endCommand_n (v : Byte) (s : State) : (s.endCommand v).n = 0 := rfl
@[simp] theorem State.endCommand_idx (v : Byte) (s : State) : (s.endCommand v).idx = 0 := rfl
@[simp] theorem State.endCommand_prev (v : Byte) (s : State) : (s.endCommand v).prev = zeroBlock := rfl
@[simp] theorem State.endCommand_nonce (v : Byte) (s : State) : (s.endCommand v).nonce = zeroNonce := rfl
@[simp] theorem State.endCommand_cnt (v : Byte) (s : State) : (s.endCommand v).cnt = 0 := rfl
@[simp] theorem State.endCommand_work (v : Byte) (s : State) : (s.endCommand v).work = [] := rfl
@[simp] theorem State.endCommand_params (v : Byte) (s : State) : (s.endCommand v).params = s.params := rfl
@[simp] theorem State.endCommand_cipher (v : Byte) (s : State) : (s.endCommand v).cipher = s.cipher := rfl
@[simp] theorem State.endCommand_rng (v : Byte) (s : State) : (s.endCommand v).rng = s.rng := rfl
@[simp] theorem State.endCommand_outstanding (v : Byte) (s : State) : (s.endCommand v).outstanding = none := rfl
@[simp] theorem State.endCommand_late (v : Byte) (s : State) : (s.endCommand v).late = s.late := rfl
@[simp] theorem State.endCommand_requests (v : Byte) (s : State) : (s.endCommand v).requests = s.requests := rfl
@[simp] theorem State.endCommand_readData (v : Byte) (s : State) : (s.endCommand v).readData = s.readData := rfl
@[simp] theorem State.endCommand_agenda (v : Byte) (s : State) : (s.endCommand v).agenda = s.agenda := rfl

/-! ### `setObuf` -/

@[simp] theorem State.setObuf_opc (w : List Byte) (s : State) : (s.setObuf w).opc = s.opc := rfl
@[simp] theorem State.setObuf_ctrl (w : List Byte) (s : State) : (s.setObuf w).ctrl = s.ctrl := rfl
@[simp] theorem State.setObuf_status (w : List Byte) (s : State) : (s.setObuf w).status = s.status := rfl
@[simp] theorem State.setObuf_ilen (w : List Byte) (s : State) : (s.setObuf w).ilen = s.ilen := rfl
@[simp] theorem State.setObuf_olen (w : List Byte) (s : State) : (s.setObuf w).olen = BitVec.ofNat 32 w.length := rfl
@[simp] theorem State.setObuf_nblk (w : List Byte) (s : State) : (s.setObuf w).nblk = s.nblk := rfl
@[simp] theorem State.setObuf_key (w : List Byte) (s : State) : (s.setObuf w).key = s.key := rfl
@[simp] theorem State.setObuf_xa (w : List Byte) (s : State) : (s.setObuf w).xa = s.xa := rfl
@[simp] theorem State.setObuf_xb (w : List Byte) (s : State) : (s.setObuf w).xb = s.xb := rfl
@[simp] theorem State.setObuf_xc (w : List Byte) (s : State) : (s.setObuf w).xc = s.xc := rfl
@[simp] theorem State.setObuf_ibuf (w : List Byte) (s : State) : (s.setObuf w).ibuf = s.ibuf := rfl
@[simp] theorem State.setObuf_obuf (w : List Byte) (s : State) : (s.setObuf w).obuf = w := rfl
@[simp] theorem State.setObuf_blk (w : List Byte) (s : State) : (s.setObuf w).blk = s.blk := rfl
@[simp] theorem State.setObuf_phase (w : List Byte) (s : State) : (s.setObuf w).phase = s.phase := rfl
@[simp] theorem State.setObuf_n (w : List Byte) (s : State) : (s.setObuf w).n = s.n := rfl
@[simp] theorem State.setObuf_idx (w : List Byte) (s : State) : (s.setObuf w).idx = s.idx := rfl
@[simp] theorem State.setObuf_prev (w : List Byte) (s : State) : (s.setObuf w).prev = s.prev := rfl
@[simp] theorem State.setObuf_nonce (w : List Byte) (s : State) : (s.setObuf w).nonce = s.nonce := rfl
@[simp] theorem State.setObuf_cnt (w : List Byte) (s : State) : (s.setObuf w).cnt = s.cnt := rfl
@[simp] theorem State.setObuf_work (w : List Byte) (s : State) : (s.setObuf w).work = s.work := rfl
@[simp] theorem State.setObuf_params (w : List Byte) (s : State) : (s.setObuf w).params = s.params := rfl
@[simp] theorem State.setObuf_cipher (w : List Byte) (s : State) : (s.setObuf w).cipher = s.cipher := rfl
@[simp] theorem State.setObuf_rng (w : List Byte) (s : State) : (s.setObuf w).rng = s.rng := rfl
@[simp] theorem State.setObuf_outstanding (w : List Byte) (s : State) : (s.setObuf w).outstanding = s.outstanding := rfl
@[simp] theorem State.setObuf_late (w : List Byte) (s : State) : (s.setObuf w).late = s.late := rfl
@[simp] theorem State.setObuf_requests (w : List Byte) (s : State) : (s.setObuf w).requests = s.requests := rfl
@[simp] theorem State.setObuf_readData (w : List Byte) (s : State) : (s.setObuf w).readData = s.readData := rfl
@[simp] theorem State.setObuf_agenda (w : List Byte) (s : State) : (s.setObuf w).agenda = s.agenda := rfl

/-! ### `send` -/

@[simp] theorem State.send_opc (r : PortRequest) (s : State) : (s.send r).opc = s.opc := rfl
@[simp] theorem State.send_ctrl (r : PortRequest) (s : State) : (s.send r).ctrl = s.ctrl := rfl
@[simp] theorem State.send_status (r : PortRequest) (s : State) : (s.send r).status = s.status := rfl
@[simp] theorem State.send_ilen (r : PortRequest) (s : State) : (s.send r).ilen = s.ilen := rfl
@[simp] theorem State.send_olen (r : PortRequest) (s : State) : (s.send r).olen = s.olen := rfl
@[simp] theorem State.send_nblk (r : PortRequest) (s : State) : (s.send r).nblk = s.nblk := rfl
@[simp] theorem State.send_key (r : PortRequest) (s : State) : (s.send r).key = s.key := rfl
@[simp] theorem State.send_xa (r : PortRequest) (s : State) : (s.send r).xa = s.xa := rfl
@[simp] theorem State.send_xb (r : PortRequest) (s : State) : (s.send r).xb = s.xb := rfl
@[simp] theorem State.send_xc (r : PortRequest) (s : State) : (s.send r).xc = s.xc := rfl
@[simp] theorem State.send_ibuf (r : PortRequest) (s : State) : (s.send r).ibuf = s.ibuf := rfl
@[simp] theorem State.send_obuf (r : PortRequest) (s : State) : (s.send r).obuf = s.obuf := rfl
@[simp] theorem State.send_blk (r : PortRequest) (s : State) : (s.send r).blk = s.blk := rfl
@[simp] theorem State.send_phase (r : PortRequest) (s : State) : (s.send r).phase = s.phase := rfl
@[simp] theorem State.send_n (r : PortRequest) (s : State) : (s.send r).n = s.n := rfl
@[simp] theorem State.send_idx (r : PortRequest) (s : State) : (s.send r).idx = s.idx := rfl
@[simp] theorem State.send_prev (r : PortRequest) (s : State) : (s.send r).prev = s.prev := rfl
@[simp] theorem State.send_nonce (r : PortRequest) (s : State) : (s.send r).nonce = s.nonce := rfl
@[simp] theorem State.send_cnt (r : PortRequest) (s : State) : (s.send r).cnt = s.cnt := rfl
@[simp] theorem State.send_work (r : PortRequest) (s : State) : (s.send r).work = s.work := rfl
@[simp] theorem State.send_params (r : PortRequest) (s : State) : (s.send r).params = s.params := rfl
@[simp] theorem State.send_cipher (r : PortRequest) (s : State) : (s.send r).cipher = s.cipher := rfl
@[simp] theorem State.send_rng (r : PortRequest) (s : State) : (s.send r).rng = s.rng := rfl
@[simp] theorem State.send_outstanding (r : PortRequest) (s : State) : (s.send r).outstanding = some { request := r, accepted := false } := rfl
@[simp] theorem State.send_late (r : PortRequest) (s : State) : (s.send r).late = s.late := rfl
@[simp] theorem State.send_requests (r : PortRequest) (s : State) : (s.send r).requests = s.requests ++ [r] := rfl
@[simp] theorem State.send_readData (r : PortRequest) (s : State) : (s.send r).readData = s.readData := rfl
@[simp] theorem State.send_agenda (r : PortRequest) (s : State) : (s.send r).agenda = s.agenda := rfl

/-! ### `afterRequests` -/

@[simp] theorem State.afterRequests_opc (rs : List PortRequest) (s : State) : (s.afterRequests rs).opc = s.opc := rfl
@[simp] theorem State.afterRequests_ctrl (rs : List PortRequest) (s : State) : (s.afterRequests rs).ctrl = s.ctrl := rfl
@[simp] theorem State.afterRequests_status (rs : List PortRequest) (s : State) : (s.afterRequests rs).status = s.status := rfl
@[simp] theorem State.afterRequests_ilen (rs : List PortRequest) (s : State) : (s.afterRequests rs).ilen = s.ilen := rfl
@[simp] theorem State.afterRequests_olen (rs : List PortRequest) (s : State) : (s.afterRequests rs).olen = s.olen := rfl
@[simp] theorem State.afterRequests_nblk (rs : List PortRequest) (s : State) : (s.afterRequests rs).nblk = s.nblk := rfl
@[simp] theorem State.afterRequests_key (rs : List PortRequest) (s : State) : (s.afterRequests rs).key = s.key := rfl
@[simp] theorem State.afterRequests_xa (rs : List PortRequest) (s : State) : (s.afterRequests rs).xa = s.xa := rfl
@[simp] theorem State.afterRequests_xb (rs : List PortRequest) (s : State) : (s.afterRequests rs).xb = s.xb := rfl
@[simp] theorem State.afterRequests_xc (rs : List PortRequest) (s : State) : (s.afterRequests rs).xc = s.xc := rfl
@[simp] theorem State.afterRequests_ibuf (rs : List PortRequest) (s : State) : (s.afterRequests rs).ibuf = s.ibuf := rfl
@[simp] theorem State.afterRequests_obuf (rs : List PortRequest) (s : State) : (s.afterRequests rs).obuf = s.obuf := rfl
@[simp] theorem State.afterRequests_blk (rs : List PortRequest) (s : State) : (s.afterRequests rs).blk = s.blk := rfl
@[simp] theorem State.afterRequests_phase (rs : List PortRequest) (s : State) : (s.afterRequests rs).phase = s.phase := rfl
@[simp] theorem State.afterRequests_n (rs : List PortRequest) (s : State) : (s.afterRequests rs).n = s.n := rfl
@[simp] theorem State.afterRequests_idx (rs : List PortRequest) (s : State) : (s.afterRequests rs).idx = s.idx := rfl
@[simp] theorem State.afterRequests_prev (rs : List PortRequest) (s : State) : (s.afterRequests rs).prev = s.prev := rfl
@[simp] theorem State.afterRequests_nonce (rs : List PortRequest) (s : State) : (s.afterRequests rs).nonce = s.nonce := rfl
@[simp] theorem State.afterRequests_cnt (rs : List PortRequest) (s : State) : (s.afterRequests rs).cnt = s.cnt := rfl
@[simp] theorem State.afterRequests_work (rs : List PortRequest) (s : State) : (s.afterRequests rs).work = s.work := rfl
@[simp] theorem State.afterRequests_params (rs : List PortRequest) (s : State) : (s.afterRequests rs).params = s.params := rfl
@[simp] theorem State.afterRequests_cipher (rs : List PortRequest) (s : State) : (s.afterRequests rs).cipher = s.cipher := rfl
@[simp] theorem State.afterRequests_rng (rs : List PortRequest) (s : State) : (s.afterRequests rs).rng = s.rng := rfl
@[simp] theorem State.afterRequests_outstanding (rs : List PortRequest) (s : State) : (s.afterRequests rs).outstanding = s.outstanding := rfl
@[simp] theorem State.afterRequests_late (rs : List PortRequest) (s : State) : (s.afterRequests rs).late = s.late := rfl
@[simp] theorem State.afterRequests_requests (rs : List PortRequest) (s : State) : (s.afterRequests rs).requests = s.requests ++ rs := rfl
@[simp] theorem State.afterRequests_readData (rs : List PortRequest) (s : State) : (s.afterRequests rs).readData = s.readData := rfl
@[simp] theorem State.afterRequests_agenda (rs : List PortRequest) (s : State) : (s.afterRequests rs).agenda = s.agenda := rfl

/-! ### `answering` -/

@[simp] theorem State.answering_opc (c r : Bool) (s : State) : (s.answering c r).opc = s.opc := rfl
@[simp] theorem State.answering_ctrl (c r : Bool) (s : State) : (s.answering c r).ctrl = s.ctrl := rfl
@[simp] theorem State.answering_status (c r : Bool) (s : State) : (s.answering c r).status = s.status := rfl
@[simp] theorem State.answering_ilen (c r : Bool) (s : State) : (s.answering c r).ilen = s.ilen := rfl
@[simp] theorem State.answering_olen (c r : Bool) (s : State) : (s.answering c r).olen = s.olen := rfl
@[simp] theorem State.answering_nblk (c r : Bool) (s : State) : (s.answering c r).nblk = s.nblk := rfl
@[simp] theorem State.answering_key (c r : Bool) (s : State) : (s.answering c r).key = s.key := rfl
@[simp] theorem State.answering_xa (c r : Bool) (s : State) : (s.answering c r).xa = s.xa := rfl
@[simp] theorem State.answering_xb (c r : Bool) (s : State) : (s.answering c r).xb = s.xb := rfl
@[simp] theorem State.answering_xc (c r : Bool) (s : State) : (s.answering c r).xc = s.xc := rfl
@[simp] theorem State.answering_ibuf (c r : Bool) (s : State) : (s.answering c r).ibuf = s.ibuf := rfl
@[simp] theorem State.answering_obuf (c r : Bool) (s : State) : (s.answering c r).obuf = s.obuf := rfl
@[simp] theorem State.answering_blk (c r : Bool) (s : State) : (s.answering c r).blk = s.blk := rfl
@[simp] theorem State.answering_phase (c r : Bool) (s : State) : (s.answering c r).phase = s.phase := rfl
@[simp] theorem State.answering_n (c r : Bool) (s : State) : (s.answering c r).n = s.n := rfl
@[simp] theorem State.answering_idx (c r : Bool) (s : State) : (s.answering c r).idx = s.idx := rfl
@[simp] theorem State.answering_prev (c r : Bool) (s : State) : (s.answering c r).prev = s.prev := rfl
@[simp] theorem State.answering_nonce (c r : Bool) (s : State) : (s.answering c r).nonce = s.nonce := rfl
@[simp] theorem State.answering_cnt (c r : Bool) (s : State) : (s.answering c r).cnt = s.cnt := rfl
@[simp] theorem State.answering_work (c r : Bool) (s : State) : (s.answering c r).work = s.work := rfl
@[simp] theorem State.answering_params (c r : Bool) (s : State) : (s.answering c r).params = s.params := rfl
@[simp] theorem State.answering_cipher (c r : Bool) (s : State) : (s.answering c r).cipher = { s.cipher with live := c } := rfl
@[simp] theorem State.answering_rng (c r : Bool) (s : State) : (s.answering c r).rng = { s.rng with live := r } := rfl
@[simp] theorem State.answering_outstanding (c r : Bool) (s : State) : (s.answering c r).outstanding = s.outstanding := rfl
@[simp] theorem State.answering_late (c r : Bool) (s : State) : (s.answering c r).late = s.late := rfl
@[simp] theorem State.answering_requests (c r : Bool) (s : State) : (s.answering c r).requests = s.requests := rfl
@[simp] theorem State.answering_readData (c r : Bool) (s : State) : (s.answering c r).readData = s.readData := rfl
@[simp] theorem State.answering_agenda (c r : Bool) (s : State) : (s.answering c r).agenda = s.agenda := rfl

/-! ### `drawTaken` -/

@[simp] theorem State.drawTaken_opc (s : State) : (s.drawTaken).opc = s.opc := rfl
@[simp] theorem State.drawTaken_ctrl (s : State) : (s.drawTaken).ctrl = s.ctrl := rfl
@[simp] theorem State.drawTaken_status (s : State) : (s.drawTaken).status = s.status := rfl
@[simp] theorem State.drawTaken_ilen (s : State) : (s.drawTaken).ilen = s.ilen := rfl
@[simp] theorem State.drawTaken_olen (s : State) : (s.drawTaken).olen = s.olen := rfl
@[simp] theorem State.drawTaken_nblk (s : State) : (s.drawTaken).nblk = s.nblk := rfl
@[simp] theorem State.drawTaken_key (s : State) : (s.drawTaken).key = s.key := rfl
@[simp] theorem State.drawTaken_xa (s : State) : (s.drawTaken).xa = s.xa := rfl
@[simp] theorem State.drawTaken_xb (s : State) : (s.drawTaken).xb = s.xb := rfl
@[simp] theorem State.drawTaken_xc (s : State) : (s.drawTaken).xc = s.xc := rfl
@[simp] theorem State.drawTaken_ibuf (s : State) : (s.drawTaken).ibuf = s.ibuf := rfl
@[simp] theorem State.drawTaken_obuf (s : State) : (s.drawTaken).obuf = s.obuf := rfl
@[simp] theorem State.drawTaken_blk (s : State) : (s.drawTaken).blk = s.blk := rfl
@[simp] theorem State.drawTaken_phase (s : State) : (s.drawTaken).phase = s.phase := rfl
@[simp] theorem State.drawTaken_n (s : State) : (s.drawTaken).n = s.n := rfl
@[simp] theorem State.drawTaken_idx (s : State) : (s.drawTaken).idx = s.idx := rfl
@[simp] theorem State.drawTaken_prev (s : State) : (s.drawTaken).prev = s.prev := rfl
@[simp] theorem State.drawTaken_nonce (s : State) : (s.drawTaken).nonce = s.nonce := rfl
@[simp] theorem State.drawTaken_cnt (s : State) : (s.drawTaken).cnt = s.cnt := rfl
@[simp] theorem State.drawTaken_work (s : State) : (s.drawTaken).work = s.work := rfl
@[simp] theorem State.drawTaken_params (s : State) : (s.drawTaken).params = s.params := rfl
@[simp] theorem State.drawTaken_cipher (s : State) : (s.drawTaken).cipher = s.cipher := rfl
@[simp] theorem State.drawTaken_rng (s : State) : (s.drawTaken).rng = s.rng.advance := rfl
@[simp] theorem State.drawTaken_outstanding (s : State) : (s.drawTaken).outstanding = none := rfl
@[simp] theorem State.drawTaken_late (s : State) : (s.drawTaken).late = s.late := rfl
@[simp] theorem State.drawTaken_requests (s : State) : (s.drawTaken).requests = s.requests := rfl
@[simp] theorem State.drawTaken_readData (s : State) : (s.drawTaken).readData = s.readData := rfl
@[simp] theorem State.drawTaken_agenda (s : State) : (s.drawTaken).agenda = s.agenda := rfl

/-! ### `enterLoop` -/

@[simp] theorem State.enterLoop_opc (w : List Byte) (s : State) : (s.enterLoop w).opc = s.opc := rfl
@[simp] theorem State.enterLoop_ctrl (w : List Byte) (s : State) : (s.enterLoop w).ctrl = s.ctrl := rfl
@[simp] theorem State.enterLoop_status (w : List Byte) (s : State) : (s.enterLoop w).status = s.status := rfl
@[simp] theorem State.enterLoop_ilen (w : List Byte) (s : State) : (s.enterLoop w).ilen = s.ilen := rfl
@[simp] theorem State.enterLoop_olen (w : List Byte) (s : State) : (s.enterLoop w).olen = s.olen := rfl
@[simp] theorem State.enterLoop_nblk (w : List Byte) (s : State) : (s.enterLoop w).nblk = s.nblk := rfl
@[simp] theorem State.enterLoop_key (w : List Byte) (s : State) : (s.enterLoop w).key = s.key := rfl
@[simp] theorem State.enterLoop_xa (w : List Byte) (s : State) : (s.enterLoop w).xa = s.xa := rfl
@[simp] theorem State.enterLoop_xb (w : List Byte) (s : State) : (s.enterLoop w).xb = s.xb := rfl
@[simp] theorem State.enterLoop_xc (w : List Byte) (s : State) : (s.enterLoop w).xc = s.xc := rfl
@[simp] theorem State.enterLoop_ibuf (w : List Byte) (s : State) : (s.enterLoop w).ibuf = s.ibuf := rfl
@[simp] theorem State.enterLoop_obuf (w : List Byte) (s : State) : (s.enterLoop w).obuf = s.obuf := rfl
@[simp] theorem State.enterLoop_blk (w : List Byte) (s : State) : (s.enterLoop w).blk = s.blk := rfl
@[simp] theorem State.enterLoop_phase (w : List Byte) (s : State) : (s.enterLoop w).phase = .block := rfl
@[simp] theorem State.enterLoop_n (w : List Byte) (s : State) : (s.enterLoop w).n = s.n := rfl
@[simp] theorem State.enterLoop_idx (w : List Byte) (s : State) : (s.enterLoop w).idx = 0 := rfl
@[simp] theorem State.enterLoop_prev (w : List Byte) (s : State) : (s.enterLoop w).prev = s.prev := rfl
@[simp] theorem State.enterLoop_nonce (w : List Byte) (s : State) : (s.enterLoop w).nonce = s.nonce := rfl
@[simp] theorem State.enterLoop_cnt (w : List Byte) (s : State) : (s.enterLoop w).cnt = s.cnt := rfl
@[simp] theorem State.enterLoop_work (w : List Byte) (s : State) : (s.enterLoop w).work = w := rfl
@[simp] theorem State.enterLoop_params (w : List Byte) (s : State) : (s.enterLoop w).params = s.params := rfl
@[simp] theorem State.enterLoop_cipher (w : List Byte) (s : State) : (s.enterLoop w).cipher = s.cipher := rfl
@[simp] theorem State.enterLoop_rng (w : List Byte) (s : State) : (s.enterLoop w).rng = s.rng := rfl
@[simp] theorem State.enterLoop_outstanding (w : List Byte) (s : State) : (s.enterLoop w).outstanding = s.outstanding := rfl
@[simp] theorem State.enterLoop_late (w : List Byte) (s : State) : (s.enterLoop w).late = s.late := rfl
@[simp] theorem State.enterLoop_requests (w : List Byte) (s : State) : (s.enterLoop w).requests = s.requests := rfl
@[simp] theorem State.enterLoop_readData (w : List Byte) (s : State) : (s.enterLoop w).readData = s.readData := rfl
@[simp] theorem State.enterLoop_agenda (w : List Byte) (s : State) : (s.enterLoop w).agenda = s.agenda := rfl

/-! ### `setPrev` -/

@[simp] theorem State.setPrev_opc (iv : Block) (s : State) : (s.setPrev iv).opc = s.opc := rfl
@[simp] theorem State.setPrev_ctrl (iv : Block) (s : State) : (s.setPrev iv).ctrl = s.ctrl := rfl
@[simp] theorem State.setPrev_status (iv : Block) (s : State) : (s.setPrev iv).status = s.status := rfl
@[simp] theorem State.setPrev_ilen (iv : Block) (s : State) : (s.setPrev iv).ilen = s.ilen := rfl
@[simp] theorem State.setPrev_olen (iv : Block) (s : State) : (s.setPrev iv).olen = s.olen := rfl
@[simp] theorem State.setPrev_nblk (iv : Block) (s : State) : (s.setPrev iv).nblk = s.nblk := rfl
@[simp] theorem State.setPrev_key (iv : Block) (s : State) : (s.setPrev iv).key = s.key := rfl
@[simp] theorem State.setPrev_xa (iv : Block) (s : State) : (s.setPrev iv).xa = s.xa := rfl
@[simp] theorem State.setPrev_xb (iv : Block) (s : State) : (s.setPrev iv).xb = s.xb := rfl
@[simp] theorem State.setPrev_xc (iv : Block) (s : State) : (s.setPrev iv).xc = s.xc := rfl
@[simp] theorem State.setPrev_ibuf (iv : Block) (s : State) : (s.setPrev iv).ibuf = s.ibuf := rfl
@[simp] theorem State.setPrev_obuf (iv : Block) (s : State) : (s.setPrev iv).obuf = s.obuf := rfl
@[simp] theorem State.setPrev_blk (iv : Block) (s : State) : (s.setPrev iv).blk = s.blk := rfl
@[simp] theorem State.setPrev_phase (iv : Block) (s : State) : (s.setPrev iv).phase = s.phase := rfl
@[simp] theorem State.setPrev_n (iv : Block) (s : State) : (s.setPrev iv).n = s.n := rfl
@[simp] theorem State.setPrev_idx (iv : Block) (s : State) : (s.setPrev iv).idx = s.idx := rfl
@[simp] theorem State.setPrev_prev (iv : Block) (s : State) : (s.setPrev iv).prev = iv := rfl
@[simp] theorem State.setPrev_nonce (iv : Block) (s : State) : (s.setPrev iv).nonce = s.nonce := rfl
@[simp] theorem State.setPrev_cnt (iv : Block) (s : State) : (s.setPrev iv).cnt = s.cnt := rfl
@[simp] theorem State.setPrev_work (iv : Block) (s : State) : (s.setPrev iv).work = s.work := rfl
@[simp] theorem State.setPrev_params (iv : Block) (s : State) : (s.setPrev iv).params = s.params := rfl
@[simp] theorem State.setPrev_cipher (iv : Block) (s : State) : (s.setPrev iv).cipher = s.cipher := rfl
@[simp] theorem State.setPrev_rng (iv : Block) (s : State) : (s.setPrev iv).rng = s.rng := rfl
@[simp] theorem State.setPrev_outstanding (iv : Block) (s : State) : (s.setPrev iv).outstanding = s.outstanding := rfl
@[simp] theorem State.setPrev_late (iv : Block) (s : State) : (s.setPrev iv).late = s.late := rfl
@[simp] theorem State.setPrev_requests (iv : Block) (s : State) : (s.setPrev iv).requests = s.requests := rfl
@[simp] theorem State.setPrev_readData (iv : Block) (s : State) : (s.setPrev iv).readData = s.readData := rfl
@[simp] theorem State.setPrev_agenda (iv : Block) (s : State) : (s.setPrev iv).agenda = s.agenda := rfl

/-! ### `setNonce` -/

@[simp] theorem State.setNonce_opc (nonce : Nonce) (s : State) : (s.setNonce nonce).opc = s.opc := rfl
@[simp] theorem State.setNonce_ctrl (nonce : Nonce) (s : State) : (s.setNonce nonce).ctrl = s.ctrl := rfl
@[simp] theorem State.setNonce_status (nonce : Nonce) (s : State) : (s.setNonce nonce).status = s.status := rfl
@[simp] theorem State.setNonce_ilen (nonce : Nonce) (s : State) : (s.setNonce nonce).ilen = s.ilen := rfl
@[simp] theorem State.setNonce_olen (nonce : Nonce) (s : State) : (s.setNonce nonce).olen = s.olen := rfl
@[simp] theorem State.setNonce_nblk (nonce : Nonce) (s : State) : (s.setNonce nonce).nblk = s.nblk := rfl
@[simp] theorem State.setNonce_key (nonce : Nonce) (s : State) : (s.setNonce nonce).key = s.key := rfl
@[simp] theorem State.setNonce_xa (nonce : Nonce) (s : State) : (s.setNonce nonce).xa = s.xa := rfl
@[simp] theorem State.setNonce_xb (nonce : Nonce) (s : State) : (s.setNonce nonce).xb = s.xb := rfl
@[simp] theorem State.setNonce_xc (nonce : Nonce) (s : State) : (s.setNonce nonce).xc = s.xc := rfl
@[simp] theorem State.setNonce_ibuf (nonce : Nonce) (s : State) : (s.setNonce nonce).ibuf = s.ibuf := rfl
@[simp] theorem State.setNonce_obuf (nonce : Nonce) (s : State) : (s.setNonce nonce).obuf = s.obuf := rfl
@[simp] theorem State.setNonce_blk (nonce : Nonce) (s : State) : (s.setNonce nonce).blk = s.blk := rfl
@[simp] theorem State.setNonce_phase (nonce : Nonce) (s : State) : (s.setNonce nonce).phase = s.phase := rfl
@[simp] theorem State.setNonce_n (nonce : Nonce) (s : State) : (s.setNonce nonce).n = s.n := rfl
@[simp] theorem State.setNonce_idx (nonce : Nonce) (s : State) : (s.setNonce nonce).idx = s.idx := rfl
@[simp] theorem State.setNonce_prev (nonce : Nonce) (s : State) : (s.setNonce nonce).prev = s.prev := rfl
@[simp] theorem State.setNonce_nonce (nonce : Nonce) (s : State) : (s.setNonce nonce).nonce = nonce := rfl
@[simp] theorem State.setNonce_cnt (nonce : Nonce) (s : State) : (s.setNonce nonce).cnt = 0 := rfl
@[simp] theorem State.setNonce_work (nonce : Nonce) (s : State) : (s.setNonce nonce).work = s.work := rfl
@[simp] theorem State.setNonce_params (nonce : Nonce) (s : State) : (s.setNonce nonce).params = s.params := rfl
@[simp] theorem State.setNonce_cipher (nonce : Nonce) (s : State) : (s.setNonce nonce).cipher = s.cipher := rfl
@[simp] theorem State.setNonce_rng (nonce : Nonce) (s : State) : (s.setNonce nonce).rng = s.rng := rfl
@[simp] theorem State.setNonce_outstanding (nonce : Nonce) (s : State) : (s.setNonce nonce).outstanding = s.outstanding := rfl
@[simp] theorem State.setNonce_late (nonce : Nonce) (s : State) : (s.setNonce nonce).late = s.late := rfl
@[simp] theorem State.setNonce_requests (nonce : Nonce) (s : State) : (s.setNonce nonce).requests = s.requests := rfl
@[simp] theorem State.setNonce_readData (nonce : Nonce) (s : State) : (s.setNonce nonce).readData = s.readData := rfl
@[simp] theorem State.setNonce_agenda (nonce : Nonce) (s : State) : (s.setNonce nonce).agenda = s.agenda := rfl

/-! ### `openMode` -/

@[simp] theorem State.openMode_opc (k : Nat) (p : Phase) (s : State) : (s.openMode k p).opc = s.opc := rfl
@[simp] theorem State.openMode_ctrl (k : Nat) (p : Phase) (s : State) : (s.openMode k p).ctrl = s.ctrl := rfl
@[simp] theorem State.openMode_status (k : Nat) (p : Phase) (s : State) : (s.openMode k p).status = s.status := rfl
@[simp] theorem State.openMode_ilen (k : Nat) (p : Phase) (s : State) : (s.openMode k p).ilen = s.ilen := rfl
@[simp] theorem State.openMode_olen (k : Nat) (p : Phase) (s : State) : (s.openMode k p).olen = 0 := rfl
@[simp] theorem State.openMode_nblk (k : Nat) (p : Phase) (s : State) : (s.openMode k p).nblk = s.nblk := rfl
@[simp] theorem State.openMode_key (k : Nat) (p : Phase) (s : State) : (s.openMode k p).key = s.key := rfl
@[simp] theorem State.openMode_xa (k : Nat) (p : Phase) (s : State) : (s.openMode k p).xa = s.xa := rfl
@[simp] theorem State.openMode_xb (k : Nat) (p : Phase) (s : State) : (s.openMode k p).xb = s.xb := rfl
@[simp] theorem State.openMode_xc (k : Nat) (p : Phase) (s : State) : (s.openMode k p).xc = s.xc := rfl
@[simp] theorem State.openMode_ibuf (k : Nat) (p : Phase) (s : State) : (s.openMode k p).ibuf = s.ibuf := rfl
@[simp] theorem State.openMode_obuf (k : Nat) (p : Phase) (s : State) : (s.openMode k p).obuf = [] := rfl
@[simp] theorem State.openMode_blk (k : Nat) (p : Phase) (s : State) : (s.openMode k p).blk = s.blk := rfl
@[simp] theorem State.openMode_phase (k : Nat) (p : Phase) (s : State) : (s.openMode k p).phase = p := rfl
@[simp] theorem State.openMode_n (k : Nat) (p : Phase) (s : State) : (s.openMode k p).n = BitVec.ofNat 32 k := rfl
@[simp] theorem State.openMode_idx (k : Nat) (p : Phase) (s : State) : (s.openMode k p).idx = s.idx := rfl
@[simp] theorem State.openMode_prev (k : Nat) (p : Phase) (s : State) : (s.openMode k p).prev = s.prev := rfl
@[simp] theorem State.openMode_nonce (k : Nat) (p : Phase) (s : State) : (s.openMode k p).nonce = s.nonce := rfl
@[simp] theorem State.openMode_cnt (k : Nat) (p : Phase) (s : State) : (s.openMode k p).cnt = s.cnt := rfl
@[simp] theorem State.openMode_work (k : Nat) (p : Phase) (s : State) : (s.openMode k p).work = s.work := rfl
@[simp] theorem State.openMode_params (k : Nat) (p : Phase) (s : State) : (s.openMode k p).params = s.params := rfl
@[simp] theorem State.openMode_cipher (k : Nat) (p : Phase) (s : State) : (s.openMode k p).cipher = s.cipher := rfl
@[simp] theorem State.openMode_rng (k : Nat) (p : Phase) (s : State) : (s.openMode k p).rng = s.rng := rfl
@[simp] theorem State.openMode_outstanding (k : Nat) (p : Phase) (s : State) : (s.openMode k p).outstanding = s.outstanding := rfl
@[simp] theorem State.openMode_late (k : Nat) (p : Phase) (s : State) : (s.openMode k p).late = s.late := rfl
@[simp] theorem State.openMode_requests (k : Nat) (p : Phase) (s : State) : (s.openMode k p).requests = s.requests := rfl
@[simp] theorem State.openMode_readData (k : Nat) (p : Phase) (s : State) : (s.openMode k p).readData = s.readData := rfl
@[simp] theorem State.openMode_agenda (k : Nat) (p : Phase) (s : State) : (s.openMode k p).agenda = s.agenda := rfl

/-! ### `storeBlocks` -/

@[simp] theorem State.storeBlocks_opc (bs : List Block) (s : State) : (s.storeBlocks bs).opc = s.opc := rfl
@[simp] theorem State.storeBlocks_ctrl (bs : List Block) (s : State) : (s.storeBlocks bs).ctrl = s.ctrl := rfl
@[simp] theorem State.storeBlocks_status (bs : List Block) (s : State) : (s.storeBlocks bs).status = s.status := rfl
@[simp] theorem State.storeBlocks_ilen (bs : List Block) (s : State) : (s.storeBlocks bs).ilen = s.ilen := rfl
@[simp] theorem State.storeBlocks_olen (bs : List Block) (s : State) : (s.storeBlocks bs).olen = s.olen := rfl
@[simp] theorem State.storeBlocks_nblk (bs : List Block) (s : State) : (s.storeBlocks bs).nblk = BitVec.ofNat 32 bs.length := rfl
@[simp] theorem State.storeBlocks_key (bs : List Block) (s : State) : (s.storeBlocks bs).key = s.key := rfl
@[simp] theorem State.storeBlocks_xa (bs : List Block) (s : State) : (s.storeBlocks bs).xa = s.xa := rfl
@[simp] theorem State.storeBlocks_xb (bs : List Block) (s : State) : (s.storeBlocks bs).xb = s.xb := rfl
@[simp] theorem State.storeBlocks_xc (bs : List Block) (s : State) : (s.storeBlocks bs).xc = s.xc := rfl
@[simp] theorem State.storeBlocks_ibuf (bs : List Block) (s : State) : (s.storeBlocks bs).ibuf = s.ibuf := rfl
@[simp] theorem State.storeBlocks_obuf (bs : List Block) (s : State) : (s.storeBlocks bs).obuf = s.obuf := rfl
@[simp] theorem State.storeBlocks_blk (bs : List Block) (s : State) : (s.storeBlocks bs).blk = s.blk.writeBlocks 0 bs := rfl
@[simp] theorem State.storeBlocks_phase (bs : List Block) (s : State) : (s.storeBlocks bs).phase = s.phase := rfl
@[simp] theorem State.storeBlocks_n (bs : List Block) (s : State) : (s.storeBlocks bs).n = s.n := rfl
@[simp] theorem State.storeBlocks_idx (bs : List Block) (s : State) : (s.storeBlocks bs).idx = s.idx := rfl
@[simp] theorem State.storeBlocks_prev (bs : List Block) (s : State) : (s.storeBlocks bs).prev = s.prev := rfl
@[simp] theorem State.storeBlocks_nonce (bs : List Block) (s : State) : (s.storeBlocks bs).nonce = s.nonce := rfl
@[simp] theorem State.storeBlocks_cnt (bs : List Block) (s : State) : (s.storeBlocks bs).cnt = s.cnt := rfl
@[simp] theorem State.storeBlocks_work (bs : List Block) (s : State) : (s.storeBlocks bs).work = s.work := rfl
@[simp] theorem State.storeBlocks_params (bs : List Block) (s : State) : (s.storeBlocks bs).params = s.params := rfl
@[simp] theorem State.storeBlocks_cipher (bs : List Block) (s : State) : (s.storeBlocks bs).cipher = s.cipher := rfl
@[simp] theorem State.storeBlocks_rng (bs : List Block) (s : State) : (s.storeBlocks bs).rng = s.rng := rfl
@[simp] theorem State.storeBlocks_outstanding (bs : List Block) (s : State) : (s.storeBlocks bs).outstanding = s.outstanding := rfl
@[simp] theorem State.storeBlocks_late (bs : List Block) (s : State) : (s.storeBlocks bs).late = s.late := rfl
@[simp] theorem State.storeBlocks_requests (bs : List Block) (s : State) : (s.storeBlocks bs).requests = s.requests := rfl
@[simp] theorem State.storeBlocks_readData (bs : List Block) (s : State) : (s.storeBlocks bs).readData = s.readData := rfl
@[simp] theorem State.storeBlocks_agenda (bs : List Block) (s : State) : (s.storeBlocks bs).agenda = s.agenda := rfl

/-! ### `clearDest`: everything but the two lengths and `OBUF` -/

@[simp] theorem State.clearDest_opc (d : Dest) (s : State) : (s.clearDest d).opc = s.opc := by cases d <;> rfl
@[simp] theorem State.clearDest_ctrl (d : Dest) (s : State) : (s.clearDest d).ctrl = s.ctrl := by cases d <;> rfl
@[simp] theorem State.clearDest_status (d : Dest) (s : State) : (s.clearDest d).status = s.status := by cases d <;> rfl
@[simp] theorem State.clearDest_ilen (d : Dest) (s : State) : (s.clearDest d).ilen = s.ilen := by cases d <;> rfl
@[simp] theorem State.clearDest_key (d : Dest) (s : State) : (s.clearDest d).key = s.key := by cases d <;> rfl
@[simp] theorem State.clearDest_xa (d : Dest) (s : State) : (s.clearDest d).xa = s.xa := by cases d <;> rfl
@[simp] theorem State.clearDest_xb (d : Dest) (s : State) : (s.clearDest d).xb = s.xb := by cases d <;> rfl
@[simp] theorem State.clearDest_xc (d : Dest) (s : State) : (s.clearDest d).xc = s.xc := by cases d <;> rfl
@[simp] theorem State.clearDest_ibuf (d : Dest) (s : State) : (s.clearDest d).ibuf = s.ibuf := by cases d <;> rfl
@[simp] theorem State.clearDest_blk (d : Dest) (s : State) : (s.clearDest d).blk = s.blk := by cases d <;> rfl
@[simp] theorem State.clearDest_phase (d : Dest) (s : State) : (s.clearDest d).phase = s.phase := by cases d <;> rfl
@[simp] theorem State.clearDest_n (d : Dest) (s : State) : (s.clearDest d).n = s.n := by cases d <;> rfl
@[simp] theorem State.clearDest_idx (d : Dest) (s : State) : (s.clearDest d).idx = s.idx := by cases d <;> rfl
@[simp] theorem State.clearDest_prev (d : Dest) (s : State) : (s.clearDest d).prev = s.prev := by cases d <;> rfl
@[simp] theorem State.clearDest_nonce (d : Dest) (s : State) : (s.clearDest d).nonce = s.nonce := by cases d <;> rfl
@[simp] theorem State.clearDest_cnt (d : Dest) (s : State) : (s.clearDest d).cnt = s.cnt := by cases d <;> rfl
@[simp] theorem State.clearDest_work (d : Dest) (s : State) : (s.clearDest d).work = s.work := by cases d <;> rfl
@[simp] theorem State.clearDest_params (d : Dest) (s : State) : (s.clearDest d).params = s.params := by cases d <;> rfl
@[simp] theorem State.clearDest_cipher (d : Dest) (s : State) : (s.clearDest d).cipher = s.cipher := by cases d <;> rfl
@[simp] theorem State.clearDest_rng (d : Dest) (s : State) : (s.clearDest d).rng = s.rng := by cases d <;> rfl
@[simp] theorem State.clearDest_outstanding (d : Dest) (s : State) : (s.clearDest d).outstanding = s.outstanding := by cases d <;> rfl
@[simp] theorem State.clearDest_late (d : Dest) (s : State) : (s.clearDest d).late = s.late := by cases d <;> rfl
@[simp] theorem State.clearDest_requests (d : Dest) (s : State) : (s.clearDest d).requests = s.requests := by cases d <;> rfl
@[simp] theorem State.clearDest_readData (d : Dest) (s : State) : (s.clearDest d).readData = s.readData := by cases d <;> rfl
@[simp] theorem State.clearDest_agenda (d : Dest) (s : State) : (s.clearDest d).agenda = s.agenda := by cases d <;> rfl

@[simp] theorem State.clearDest_obuf_obuf (s : State) : (s.clearDest .obuf).obuf = [] := rfl
@[simp] theorem State.clearDest_obuf_olen (s : State) : (s.clearDest .obuf).olen = 0 := rfl
@[simp] theorem State.clearDest_obuf_nblk (s : State) : (s.clearDest .obuf).nblk = s.nblk := rfl
@[simp] theorem State.clearDest_nblk_obuf (s : State) : (s.clearDest .nblk).obuf = s.obuf := rfl
@[simp] theorem State.clearDest_nblk_olen (s : State) : (s.clearDest .nblk).olen = s.olen := rfl
@[simp] theorem State.clearDest_nblk_nblk (s : State) : (s.clearDest .nblk).nblk = 0 := rfl
@[simp] theorem State.clearDest_xc_self (s : State) : s.clearDest .xc = s := rfl
@[simp] theorem State.clearDest_none_self (s : State) : s.clearDest .none = s := rfl

/-! ### The outstanding request -/

@[simp] theorem State.asked_send (r : PortRequest) (s : State) : (s.send r).asked = some r := rfl

/-- Nothing is asked exactly when nothing is outstanding. -/
theorem State.asked_eq_none {s : State} : s.asked = none ↔ s.outstanding = none := by simp [State.asked]

/-- With nothing outstanding the request is put on its port. -/
theorem State.sendOnce_unasked {s : State} (h : s.asked = none) (r : PortRequest) : s.sendOnce r = s.send r := by
  simp [State.sendOnce, State.asked_eq_none.1 h]

/-- With a request outstanding none is put on a port (R81). -/
theorem State.sendOnce_asked {s : State} {q : PortRequest} (h : s.asked = some q) (r : PortRequest) : s.sendOnce r = s := by
  cases ho : s.outstanding with
  | none => simp [State.asked, ho] at h
  | some w => simp [State.sendOnce, ho]

/-! ### The ends of a command, the destination, and whole port transactions -/

/-- A whole random transaction, case by case (R215). -/
theorem State.withRandom_eq (n : Nat) (go : Block → State → State) (s : State) :
    s.withRandom n go =
      if s.rng.live then
        match s.rng.answer with
        | .fail => (s.send (.random n)).drawTaken.raise .obuf .rng
        | .ok r => go r (s.send (.random n)).drawTaken
      else s.send (.random n) := rfl

/-- A whole block loop with a cipher that answers (R216). -/
theorem State.withCipher_live {s : State} (h : s.cipher.live = true) (rs : List PortRequest) (fin : State → State) :
    s.withCipher rs fin = fin (s.afterRequests rs) := by
  cases rs with
  | nil => simp [State.withCipher, State.afterRequests]
  | cons r rs => simp [State.withCipher, h]

/-- A block loop with a cipher that does not answer waits on its first request (R86). -/
theorem State.withCipher_waits {s : State} (h : s.cipher.live = false) (r : PortRequest) (rs : List PortRequest)
    (fin : State → State) : s.withCipher (r :: rs) fin = s.send r := by
  simp [State.withCipher, h]


@[simp] theorem State.clearDest_inLen (d : Dest) (s : State) : (s.clearDest d).inLen = s.inLen := by cases d <;> rfl
@[simp] theorem State.clearDest_input (d : Dest) (s : State) : (s.clearDest d).input = s.input := by cases d <;> rfl
@[simp] theorem State.raise_clearDest (d : Dest) (c : ErrCode) (s : State) : (s.clearDest d).raise d c = s.raise d c := by
  cases d <;> rfl
@[simp] theorem State.publish_clearDest (w : List Byte) (s : State) : (s.clearDest .obuf).publish w = s.publish w := rfl
@[simp] theorem State.raise_phase (d : Dest) (c : ErrCode) (s : State) : (s.raise d c).phase = .idle := rfl
@[simp] theorem State.finishOk_phase (b : Bool) (s : State) : (s.finishOk b).phase = .idle := rfl
@[simp] theorem State.publish_phase (w : List Byte) (s : State) : (s.publish w).phase = .idle := rfl

/-- What finishing with unpadding does, case by case (R123). -/
theorem State.finishUnpad_cases (w : List Byte) (s : State) :
    ((padCheck w).1 = true ∧ s.finishUnpad w = (s.setObuf (w.take (w.length - (padCheck w).2))).endCommand 0x02) ∨
    ((padCheck w).1 = false ∧ s.strict = true ∧ s.finishUnpad w = (s.clearDest .obuf).endCommand 0x52) ∨
    ((padCheck w).1 = false ∧ s.strict = false ∧ s.finishUnpad w = (s.setObuf w).endCommand 0x06) := by
  unfold State.finishUnpad
  cases (padCheck w).1 <;> cases s.strict <;> simp [State.finishOk, State.raise, statusOk, statusError, errNumber]

@[simp] theorem State.finishUnpad_phase (w : List Byte) (s : State) : (s.finishUnpad w).phase = .idle := by
  rcases s.finishUnpad_cases w with ⟨-, h⟩ | ⟨-, -, h⟩ | ⟨-, -, h⟩ <;> rw [h] <;> rfl

@[simp] theorem State.finishUnpad_clearDest (w : List Byte) (s : State) :
    (s.clearDest .obuf).finishUnpad w = s.finishUnpad w := by
  have h : (s.clearDest .obuf).strict = s.strict := rfl
  unfold State.finishUnpad
  rw [h]
  cases (padCheck w).1 <;> cases s.strict <;> rfl

end Sys2Proof.Machine
end

