-- ==== Sys2Proof/Laws/Sequencer.lean ====
section
/-! SUPPORT. What the sequencer's steps do: one lemma per step, runs of steps, and the block loop as a whole. -/

namespace Sys2Proof.Machine

/-! ### Decoding the latched byte -/

theorem decodeByte_opcodeOf (i : Instr) : decodeByte (opcodeOf i) = some i := by cases i <;> decide

theorem decodeByte_eq_some {b : Byte} {i : Instr} : decodeByte b = some i ↔ b = opcodeOf i := by
  constructor
  · revert b i
    decide +revert
  · rintro rfl
    exact decodeByte_opcodeOf i

theorem State.command_eq (s : State) : s.command = decodeByte s.opc := by
  unfold State.command State.commandBytes decode
  cases h : decodeByte s.opc <;> simp only [h]

theorem State.command_congr {s t : State} (h : s.opc = t.opc) : s.command = t.command := by
  rw [State.command_eq, State.command_eq, h]

/-! ### What the fetches and the requests depend on -/

theorem State.plainBlock_congr {s t : State} (h : s.ibuf = t.ibuf) (h' : s.ilen = t.ilen) : s.plainBlock = t.plainBlock := by
  funext k
  unfold State.plainBlock State.inLen
  rw [h, h']

theorem State.bodyBlock_congr {s t : State} (h : s.ibuf = t.ibuf) : s.bodyBlock = t.bodyBlock := by
  funext p k
  unfold State.bodyBlock
  rw [h]

theorem State.ask_congr {s t : State} (h : s.cipher = t.cipher) (h' : s.key = t.key) : s.ask = t.ask := by
  unfold State.ask
  rw [h, h']

theorem State.requestsFor_congr {s t : State} (h : s.key = t.key) (op : CipherOp) (bs : List Block) :
    s.requestsFor op bs = t.requestsFor op bs := by
  unfold State.requestsFor
  rw [h]

/-! ### Runs -/

theorem State.seqRun_add {a : Nat} (b : Nat) {s t : State} (h : s.seqRun a = .next t) : s.seqRun (a + b) = t.seqRun b := by
  induction a generalizing s with
  | zero =>
    simp only [State.seqRun, Host.Outcome.next.injEq] at h
    rw [h, Nat.zero_add]
  | succ a ih =>
    rw [show a + 1 + b = (a + b) + 1 by omega]
    rw [State.seqRun] at h ⊢
    cases hs : s.seqStep with
    | next u =>
      rw [hs] at h
      exact ih h
    | fault f => rw [hs] at h; cases h
    | refused r => rw [hs] at h; cases h

theorem State.seqRun_one {s t : State} (h : s.seqStep = .next t) : s.seqRun 1 = .next t := by
  simp [State.seqRun, h]

theorem State.seqRun_succ {s t : State} (k : Nat) (h : s.seqStep = .next t) : s.seqRun (k + 1) = t.seqRun k := by
  simp [State.seqRun, h]

/-- A state the sequencer's step leaves as it is stays for ever. -/
theorem State.seqRun_fixed {s : State} (h : s.seqStep = .next s) (k : Nat) : s.seqRun k = .next s := by
  induction k with
  | zero => rfl
  | succ k ih => rw [State.seqRun_succ k h, ih]

theorem State.seqStep_idle {s : State} (h : s.phase = .idle) : s.seqStep = .next s := by
  simp [State.seqStep, h]

theorem State.seqRun_idle {s : State} (h : s.phase = .idle) (k : Nat) : s.seqRun k = .next s :=
  State.seqRun_fixed (State.seqStep_idle h) k

/-! ### The check step (R213) -/

theorem State.seqStep_check {s : State} {i : Instr} (hp : s.phase = .check) (hc : s.command = some i) :
    s.seqStep = .next (checkStep i s) := by
  simp [State.seqStep, hp, hc]

@[simp] theorem State.clearDest_resultLen (i : Instr) (s : State) : (s.clearDest (destOf i)).resultLen i = s.resultLen i := by
  cases i <;> rfl

/-- Check 3: the input does not fit. -/
theorem checkStep_input_capacity {i : Instr} {s : State} (hr : readsIbuf i = true) (h : s.params.capBytes < s.inLen) :
    checkStep i s = s.raise (destOf i) .capacity := by
  simp [checkStep, hr, h]

/-- Check 4: the length precondition fails. -/
theorem checkStep_length {i : Instr} {s : State} (hr : readsIbuf i = true → s.inLen ≤ s.params.capBytes)
    (h : lengthOk i s.inLen = false) : checkStep i s = s.raise (destOf i) .length := by
  have h3 : (readsIbuf i && decide (s.params.capBytes < s.inLen)) = false := by
    cases hb : readsIbuf i
    · rfl
    · simpa using hr hb
  simp [checkStep, h3, h]

/-- Check 6: the result does not fit. -/
theorem checkStep_result_capacity {i : Instr} {s : State} (hr : readsIbuf i = true → s.inLen ≤ s.params.capBytes)
    (hl : lengthOk i s.inLen = true) (h : s.params.capBytes < s.resultLen i) :
    checkStep i s = s.raise (destOf i) .capacity := by
  have h3 : (readsIbuf i && decide (s.params.capBytes < s.inLen)) = false := by
    cases hb : readsIbuf i
    · rfl
    · simpa using hr hb
  simp [checkStep, h3, hl, h]

/-- Check 7: every check passes. -/
theorem checkStep_passes {i : Instr} {s : State} (hr : readsIbuf i = true → s.inLen ≤ s.params.capBytes)
    (hl : lengthOk i s.inLen = true) (h : s.resultLen i ≤ s.params.capBytes) :
    checkStep i s = checkDo i (s.clearDest (destOf i)) := by
  have h3 : (readsIbuf i && decide (s.params.capBytes < s.inLen)) = false := by
    cases hb : readsIbuf i
    · rfl
    · simpa using hr hb
  simp [checkStep, h3, hl, Nat.not_lt.2 h]

/-- What the check step can do. -/
theorem checkStep_cases (i : Instr) (s : State) :
    checkStep i s = s.raise (destOf i) .capacity ∨
    (lengthOk i s.inLen = false ∧ checkStep i s = s.raise (destOf i) .length) ∨
    ((readsIbuf i = true → s.inLen ≤ s.params.capBytes) ∧ lengthOk i s.inLen = true ∧
      s.resultLen i ≤ s.params.capBytes ∧ checkStep i s = checkDo i (s.clearDest (destOf i))) := by
  by_cases hr : readsIbuf i = true → s.inLen ≤ s.params.capBytes
  · cases hl : lengthOk i s.inLen
    · exact .inr (.inl ⟨rfl, checkStep_length hr hl⟩)
    · rcases Nat.lt_or_ge s.params.capBytes (s.resultLen i) with h | h
      · exact .inl (checkStep_result_capacity hr hl h)
      · exact .inr (.inr ⟨hr, rfl, h, checkStep_passes hr hl h⟩)
  · obtain ⟨h1, h2⟩ := Classical.not_imp.1 hr
    exact .inl (checkStep_input_capacity h1 (Nat.lt_of_not_le h2))

/-! ### The block step with a cipher that answers -/

/-- The state after the block step of `i` on data block `t`, request `(op, x)` (R216). -/
def blockDone (i : Instr) (t : Block) (op : CipherOp) (x : Block) (u : State) : State :=
  blockAdvance (blockTake i t (u.ask op x) { u with requests := u.requests ++ [.cipher op x u.key] })

theorem State.seqStep_block {s : State} {i : Instr} {t x : Block} {op : CipherOp} (hp : s.phase = .block)
    (hc : s.command = some i) (hr : blockRequest i s = some (t, op, x)) (hi : s.idx.toNat < s.n.toNat)
    (ho : s.outstanding = none) (hl : s.cipher.live = true) : s.seqStep = .next (blockDone i t op x s) := by
  simp only [State.seqStep, hp, hc, blockStep, hr, hi, if_true, State.sendOnce, ho, State.send_cipher, hl]
  cases i <;> rfl

/-- With a cipher that does not answer, the block step leaves the request on its port and waits (R86). -/
theorem State.seqStep_block_waits {s : State} {i : Instr} {t x : Block} {op : CipherOp} (hp : s.phase = .block)
    (hc : s.command = some i) (hr : blockRequest i s = some (t, op, x)) (hi : s.idx.toNat < s.n.toNat)
    (hl : s.cipher.live = false) : s.seqStep = .next (s.sendOnce (.cipher op x s.key)) := by
  have h : (s.sendOnce (.cipher op x s.key)).cipher.live = false := by
    unfold State.sendOnce
    split <;> simpa using hl
  simp [State.seqStep, hp, hc, blockStep, hr, hi, h]

theorem idx_succ {idx n : Word} {m : Nat} (h : idx.toNat + (m + 1) = n.toNat) : (idx + 1).toNat + m = n.toNat := by
  have := n.isLt
  rw [BitVec.toNat_add, Nat.mod_eq_of_lt] <;> simp <;> omega

/-- Where the loop of `m` more blocks stands: `PHASE` is `FINAL` exactly when no block is left. -/
def loopAt (m : Nat) (u : State) : Prop :=
  u.idx.toNat + m = u.n.toNat ∧ u.outstanding = none ∧ u.cipher.live = true ∧ u.phase = if m = 0 then .final else .block

theorem loopAt_idx_lt {m : Nat} {u : State} (h : loopAt (m + 1) u) : u.idx.toNat < u.n.toNat := by
  have := h.1
  omega

theorem phase_after {idx n : Word} {m : Nat} (h : idx.toNat + (m + 1) = n.toNat) :
    (if idx + 1 = n then Phase.final else Phase.block) = if m = 0 then Phase.final else Phase.block := by
  have h' := idx_succ h
  by_cases hm : m = 0
  · rw [if_pos hm, if_pos (BitVec.eq_of_toNat_eq (by omega))]
  · rw [if_neg hm, if_neg]
    intro he
    rw [he] at h'
    omega

theorem loopAt_done {i : Instr} {t x : Block} {op : CipherOp} {m : Nat} {u : State} (h : loopAt (m + 1) u) :
    loopAt m (blockDone i t op x u) := by
  have h1 := idx_succ h.1
  have h2 := phase_after h.1
  have h3 := h.2.2.1
  cases i <;> exact ⟨h1, rfl, h3, h2⟩

/-- The end of a loop: `IDX = N`, `PHASE = FINAL`. -/
theorem loopAt_zero {u : State} (h : loopAt 0 u) : u.idx = u.n ∧ u.phase = .final ∧ u.outstanding = none :=
  ⟨BitVec.eq_of_toNat_eq (by have := h.1; omega), by simpa using h.2.2.2, h.2.1⟩

/-- `v` agrees with `u` in everything but the hidden registers, `STATUS` and the requests made. -/
def agrees (v u : State) : Prop :=
  State.endCommand 0 { v with requests := [] } = State.endCommand 0 { u with requests := [] }

theorem agrees.trans {v w u : State} (h : agrees v w) (h' : agrees w u) : agrees v u := Eq.trans h h'

theorem agrees_blockDone (i : Instr) (t : Block) (op : CipherOp) (x : Block) (u : State) :
    agrees (blockDone i t op x u) u := by cases i <;> rfl

/-- What agreeing states share: every component that the hidden registers, `STATUS` and the requests do not touch. -/
theorem agrees.component {α : Type} (f : State → α) (hf : ∀ s : State, f (State.endCommand 0 { s with requests := [] }) = f s)
    {v u : State} (h : agrees v u) : f v = f u := by
  have h1 := congrArg f h
  rwa [hf, hf] at h1

theorem agrees.key {v u : State} (h : agrees v u) : v.key = u.key := h.component State.key fun _ => rfl

theorem agrees.ask {v u : State} (h : agrees v u) : v.ask = u.ask :=
  State.ask_congr (h.component State.cipher fun _ => rfl) h.key

theorem agrees.requestsFor {v u : State} (h : agrees v u) (op : CipherOp) (bs : List Block) :
    v.requestsFor op bs = u.requestsFor op bs := State.requestsFor_congr h.key op bs

theorem agrees.command {v u : State} (h : agrees v u) : v.command = u.command :=
  State.command_congr (h.component State.opc fun _ => rfl)

theorem agrees.plainBlock {v u : State} (h : agrees v u) : v.plainBlock = u.plainBlock :=
  State.plainBlock_congr (h.component State.ibuf fun _ => rfl) (h.component State.ilen fun _ => rfl)

theorem agrees.bodyBlock {v u : State} (h : agrees v u) : v.bodyBlock = u.bodyBlock :=
  State.bodyBlock_congr (h.component State.ibuf fun _ => rfl)

theorem agrees.ctrEndian {v u : State} (h : agrees v u) : v.params.ctrEndian = u.params.ctrEndian :=
  h.component (fun s => s.params.ctrEndian) fun _ => rfl

/-- The ends of a command do not see where the hidden registers stood. -/
theorem agrees.endCommand {v u : State} (h : agrees v u) (st : Byte) :
    v.endCommand st = State.endCommand st { u with requests := v.requests } := by
  have h2 : v.endCommand st = { State.endCommand 0 { v with requests := [] } with status := st, requests := v.requests } := rfl
  rw [h2, h]
  rfl

theorem agrees.publish {v u : State} (h : agrees v u) (w : List Byte) :
    v.publish w = State.publish w { u with requests := v.requests } :=
  agrees.endCommand (v := v.setObuf w) (u := u.setObuf w) (congrArg (State.setObuf w) h) _

theorem agrees.finishUnpad {v u : State} (h : agrees v u) (w : List Byte) :
    v.finishUnpad w = State.finishUnpad w { u with requests := v.requests } := by
  have h1 : v.strict = u.strict := h.component State.strict fun _ => rfl
  unfold State.finishUnpad
  have h2 : State.strict { u with requests := v.requests } = v.strict := h1.symm
  rw [h2]
  split
  · exact agrees.endCommand (v := v.setObuf _) (u := u.setObuf _) (congrArg (State.setObuf _) h) _
  · split
    · exact agrees.endCommand (v := v.clearDest .obuf) (u := u.clearDest .obuf) (congrArg (State.clearDest .obuf) h) _
    · exact agrees.endCommand (v := v.setObuf _) (u := u.setObuf _) (congrArg (State.setObuf _) h) _

/-! ### The block loops as wholes -/

theorem idx_blockDone (i : Instr) (t : Block) (op : CipherOp) (x : Block) {u : State} {m : Nat}
    (h : loopAt (m + 1) u) : (blockDone i t op x u).idx.toNat = u.idx.toNat + 1 := by
  have h1 := idx_succ h.1
  have h2 := h.1
  have h3 : (blockDone i t op x u).idx = u.idx + 1 := by cases i <;> rfl
  rw [h3]
  omega

theorem command_blockDone {i : Instr} (t : Block) (op : CipherOp) (x : Block) {u : State} (hc : u.command = some i) :
    (blockDone i t op x u).command = some i := (agrees_blockDone i t op x u).command.trans hc

/-- The block loop of `ECB_ENC`: `m` more blocks from `IDX` on (R216). -/
theorem seqRun_ecbEnc (m : Nat) {u : State} (hc : u.command = some .ecbEnc) (h : loopAt m u) :
    ∃ v, u.seqRun m = .next v ∧ agrees v u ∧ loopAt 0 v ∧
      v.work = u.work ++ ungroupBlocks (ecbBlocks (u.ask .enc) ((List.range' u.idx.toNat m).map u.plainBlock)) ∧
      v.requests = u.requests ++ u.requestsFor .enc ((List.range' u.idx.toNat m).map u.plainBlock) := by
  induction m generalizing u with
  | zero => exact ⟨u, rfl, rfl, h, by simp [ecbBlocks, ungroupBlocks_nil], by simp [State.requestsFor]⟩
  | succ m ih =>
    have hs := State.seqStep_block (by simpa using h.2.2.2) hc rfl (loopAt_idx_lt h) h.2.1 h.2.2.1
    have ha := agrees_blockDone .ecbEnc (u.plainBlock u.idx.toNat) .enc (u.plainBlock u.idx.toNat) u
    obtain ⟨v, h1, h2, h3, h4, h5⟩ := ih (command_blockDone _ _ _ hc) (loopAt_done h)
    refine ⟨v, (State.seqRun_succ m hs).trans h1, h2.trans ha, h3, ?_, ?_⟩
    · rw [h4, ha.ask, ha.plainBlock, idx_blockDone _ _ _ _ h, List.range'_succ]
      simp only [blockDone, blockAdvance, blockTake, ecbBlocks, List.map_cons, ungroupBlocks_cons, List.append_assoc]
    · rw [h5, ha.requestsFor, ha.plainBlock, idx_blockDone _ _ _ _ h, List.range'_succ]
      simp only [blockDone, blockAdvance, blockTake, State.requestsFor, List.map_cons, List.append_assoc,
        List.singleton_append]

/-- The block loop of `ECB_DEC`. -/
theorem seqRun_ecbDec (m : Nat) {u : State} (hc : u.command = some .ecbDec) (h : loopAt m u) :
    ∃ v, u.seqRun m = .next v ∧ agrees v u ∧ loopAt 0 v ∧
      v.work = u.work ++ ungroupBlocks (ecbBlocks (u.ask .dec) ((List.range' u.idx.toNat m).map (u.bodyBlock 0))) ∧
      v.requests = u.requests ++ u.requestsFor .dec ((List.range' u.idx.toNat m).map (u.bodyBlock 0)) := by
  induction m generalizing u with
  | zero => exact ⟨u, rfl, rfl, h, by simp [ecbBlocks, ungroupBlocks_nil], by simp [State.requestsFor]⟩
  | succ m ih =>
    have hs := State.seqStep_block (by simpa using h.2.2.2) hc rfl (loopAt_idx_lt h) h.2.1 h.2.2.1
    have ha := agrees_blockDone .ecbDec (u.bodyBlock 0 u.idx.toNat) .dec (u.bodyBlock 0 u.idx.toNat) u
    obtain ⟨v, h1, h2, h3, h4, h5⟩ := ih (command_blockDone _ _ _ hc) (loopAt_done h)
    refine ⟨v, (State.seqRun_succ m hs).trans h1, h2.trans ha, h3, ?_, ?_⟩
    · rw [h4, ha.ask, ha.bodyBlock, idx_blockDone _ _ _ _ h, List.range'_succ]
      simp only [blockDone, blockAdvance, blockTake, ecbBlocks, List.map_cons, ungroupBlocks_cons, List.append_assoc]
    · rw [h5, ha.requestsFor, ha.bodyBlock, idx_blockDone _ _ _ _ h, List.range'_succ]
      simp only [blockDone, blockAdvance, blockTake, State.requestsFor, List.map_cons, List.append_assoc,
        List.singleton_append]

/-- The block loop of `CBC_ENC`, chained through `PREV` (R171). -/
theorem seqRun_cbcEnc (m : Nat) {u : State} (hc : u.command = some .cbcEnc) (h : loopAt m u) :
    ∃ v, u.seqRun m = .next v ∧ agrees v u ∧ loopAt 0 v ∧
      v.work = u.work ++
        ungroupBlocks (cbcEncrypt (u.ask .enc) u.prev ((List.range' u.idx.toNat m).map u.plainBlock)) ∧
      v.requests = u.requests ++
        u.requestsFor .enc (cbcCombined (u.ask .enc) u.prev ((List.range' u.idx.toNat m).map u.plainBlock)) := by
  induction m generalizing u with
  | zero => exact ⟨u, rfl, rfl, h, by simp [cbcEncrypt, ungroupBlocks_nil], by simp [cbcCombined, State.requestsFor]⟩
  | succ m ih =>
    have hs := State.seqStep_block (by simpa using h.2.2.2) hc rfl (loopAt_idx_lt h) h.2.1 h.2.2.1
    have ha := agrees_blockDone .cbcEnc (u.plainBlock u.idx.toNat) .enc (xor16 (u.plainBlock u.idx.toNat) u.prev) u
    obtain ⟨v, h1, h2, h3, h4, h5⟩ := ih (command_blockDone _ _ _ hc) (loopAt_done h)
    refine ⟨v, (State.seqRun_succ m hs).trans h1, h2.trans ha, h3, ?_, ?_⟩
    · rw [h4, ha.ask, ha.plainBlock, idx_blockDone _ _ _ _ h, List.range'_succ]
      simp only [blockDone, blockAdvance, blockTake, cbcEncrypt, List.map_cons, ungroupBlocks_cons, List.append_assoc]
    · rw [h5, ha.requestsFor, ha.ask, ha.plainBlock, idx_blockDone _ _ _ _ h, List.range'_succ]
      simp only [blockDone, blockAdvance, blockTake, cbcCombined, State.requestsFor, List.map_cons, List.append_assoc,
        List.singleton_append]

/-- The block loop of `CBC_DEC`, chained through `PREV` (R174). -/
theorem seqRun_cbcDec (m : Nat) {u : State} (hc : u.command = some .cbcDec) (h : loopAt m u) :
    ∃ v, u.seqRun m = .next v ∧ agrees v u ∧ loopAt 0 v ∧
      v.work = u.work ++
        ungroupBlocks (cbcDecrypt (u.ask .dec) u.prev ((List.range' u.idx.toNat m).map (u.bodyBlock 16))) ∧
      v.requests = u.requests ++ u.requestsFor .dec ((List.range' u.idx.toNat m).map (u.bodyBlock 16)) := by
  induction m generalizing u with
  | zero => exact ⟨u, rfl, rfl, h, by simp [cbcDecrypt, ungroupBlocks_nil], by simp [State.requestsFor]⟩
  | succ m ih =>
    have hs := State.seqStep_block (by simpa using h.2.2.2) hc rfl (loopAt_idx_lt h) h.2.1 h.2.2.1
    have ha := agrees_blockDone .cbcDec (u.bodyBlock 16 u.idx.toNat) .dec (u.bodyBlock 16 u.idx.toNat) u
    obtain ⟨v, h1, h2, h3, h4, h5⟩ := ih (command_blockDone _ _ _ hc) (loopAt_done h)
    refine ⟨v, (State.seqRun_succ m hs).trans h1, h2.trans ha, h3, ?_, ?_⟩
    · rw [h4, ha.ask, ha.bodyBlock, idx_blockDone _ _ _ _ h, List.range'_succ]
      simp only [blockDone, blockAdvance, blockTake, cbcDecrypt, List.map_cons, ungroupBlocks_cons, List.append_assoc]
    · rw [h5, ha.requestsFor, ha.bodyBlock, idx_blockDone _ _ _ _ h, List.range'_succ]
      simp only [blockDone, blockAdvance, blockTake, State.requestsFor, List.map_cons, List.append_assoc,
        List.singleton_append]

/-- The block loop of `CTR_ENC` (R191). -/
theorem seqRun_ctrEnc (m : Nat) {u : State} (hc : u.command = some .ctrEnc) (h : loopAt m u) :
    ∃ v, u.seqRun m = .next v ∧ agrees v u ∧ loopAt 0 v ∧
      v.work = u.work ++ ungroupBlocks (ctrBlocks (u.ask .enc) u.params.ctrEndian u.nonce u.cnt
        ((List.range' u.idx.toNat m).map u.plainBlock)) ∧
      v.requests = u.requests ++ u.requestsFor .enc (ctrCounters u.params.ctrEndian u.nonce u.cnt m) := by
  induction m generalizing u with
  | zero => exact ⟨u, rfl, rfl, h, by simp [ctrBlocks, ungroupBlocks_nil], by simp [ctrCounters, State.requestsFor]⟩
  | succ m ih =>
    have hs := State.seqStep_block (by simpa using h.2.2.2) hc rfl (loopAt_idx_lt h) h.2.1 h.2.2.1
    have ha := agrees_blockDone .ctrEnc (u.plainBlock u.idx.toNat) .enc (ctrBlock u.params.ctrEndian u.nonce u.cnt) u
    obtain ⟨v, h1, h2, h3, h4, h5⟩ := ih (command_blockDone _ _ _ hc) (loopAt_done h)
    refine ⟨v, (State.seqRun_succ m hs).trans h1, h2.trans ha, h3, ?_, ?_⟩
    · rw [h4, ha.ask, ha.plainBlock, ha.ctrEndian, idx_blockDone _ _ _ _ h, List.range'_succ]
      simp only [blockDone, blockAdvance, blockTake, ctrBlocks, List.map_cons, ungroupBlocks_cons, List.append_assoc]
    · rw [h5, ha.requestsFor, ha.ctrEndian]
      simp only [blockDone, blockAdvance, blockTake, ctrCounters, State.requestsFor, List.map_cons, List.append_assoc,
        List.singleton_append]

/-- The block loop of `CTR_DEC` (R191), the same keystream. -/
theorem seqRun_ctrDec (m : Nat) {u : State} (hc : u.command = some .ctrDec) (h : loopAt m u) :
    ∃ v, u.seqRun m = .next v ∧ agrees v u ∧ loopAt 0 v ∧
      v.work = u.work ++ ungroupBlocks (ctrBlocks (u.ask .enc) u.params.ctrEndian u.nonce u.cnt
        ((List.range' u.idx.toNat m).map (u.bodyBlock 8))) ∧
      v.requests = u.requests ++ u.requestsFor .enc (ctrCounters u.params.ctrEndian u.nonce u.cnt m) := by
  induction m generalizing u with
  | zero => exact ⟨u, rfl, rfl, h, by simp [ctrBlocks, ungroupBlocks_nil], by simp [ctrCounters, State.requestsFor]⟩
  | succ m ih =>
    have hs := State.seqStep_block (by simpa using h.2.2.2) hc rfl (loopAt_idx_lt h) h.2.1 h.2.2.1
    have ha := agrees_blockDone .ctrDec (u.bodyBlock 8 u.idx.toNat) .enc (ctrBlock u.params.ctrEndian u.nonce u.cnt) u
    obtain ⟨v, h1, h2, h3, h4, h5⟩ := ih (command_blockDone _ _ _ hc) (loopAt_done h)
    refine ⟨v, (State.seqRun_succ m hs).trans h1, h2.trans ha, h3, ?_, ?_⟩
    · rw [h4, ha.ask, ha.bodyBlock, ha.ctrEndian, idx_blockDone _ _ _ _ h, List.range'_succ]
      simp only [blockDone, blockAdvance, blockTake, ctrBlocks, List.map_cons, ungroupBlocks_cons, List.append_assoc]
    · rw [h5, ha.requestsFor, ha.ctrEndian]
      simp only [blockDone, blockAdvance, blockTake, ctrCounters, State.requestsFor, List.map_cons, List.append_assoc,
        List.singleton_append]

end Sys2Proof.Machine
end

