-- ==== Sys2Proof/Laws/Levels.lean ====
section
/-! SUPPORT. One command at the two levels (R210): `k` sequencer steps from the check step, `k` large enough, are `exec`. -/

namespace Sys2Proof.Machine

theorem State.seqRun_done {s t : State} {k a : Nat} (h : s.seqRun a = .next t) (ht : t.seqStep = .next t) (hk : a ≤ k) :
    s.seqRun k = .next t := by
  obtain ⟨b, rfl⟩ := Nat.exists_eq_add_of_le hk
  rw [State.seqRun_add b h, State.seqRun_fixed ht]

theorem seqRun_of_check_idle {s t : State} {i : Instr} {k : Nat} (hp : s.phase = .check) (hc : s.command = some i)
    (h : checkStep i s = t) (ht : t.phase = .idle) (hk : 1 ≤ k) : s.seqRun k = .next t :=
  State.seqRun_done (State.seqRun_one (h ▸ State.seqStep_check hp hc)) (State.seqStep_idle ht) hk

theorem seqStep_final_enc {v : State} {i : Instr} (hp : v.phase = .final) (hc : v.command = some i) (hi : isEncrypt i = true) :
    v.seqStep = .next (v.publish v.work) := by
  cases i <;> simp_all [isEncrypt, State.seqStep, finalStep]

theorem seqStep_final_unpad {v : State} {i : Instr} (hp : v.phase = .final) (hc : v.command = some i) (hi : finishesUnpadding i = true) :
    v.seqStep = .next (v.finishUnpad v.work) := by
  cases i <;> simp_all [finishesUnpadding, State.seqStep, finalStep]

theorem seqRun_finish_enc {u v : State} {i : Instr} {N k : Nat} {rs : List PortRequest} (hc : u.command = some i) (hi : isEncrypt i = true)
    (h1 : u.seqRun N = .next v) (h2 : agrees v u) (h3 : loopAt 0 v) (h5 : v.requests = u.requests ++ rs) (hk : N + 1 ≤ k) :
    u.seqRun k = .next ((u.afterRequests rs).publish v.work) := by
  have h6 := h2.publish v.work
  rw [h5] at h6
  rw [State.afterRequests, ← h6]
  have h4 := State.seqRun_add 1 h1
  rw [State.seqRun_one (seqStep_final_enc (loopAt_zero h3).2.1 (h2.command.trans hc) hi)] at h4
  exact State.seqRun_done h4 (State.seqStep_idle (State.publish_phase _ _)) hk

theorem seqRun_finish_unpad {u v : State} {i : Instr} {N k : Nat} {rs : List PortRequest} (hc : u.command = some i) (hi : finishesUnpadding i = true)
    (h1 : u.seqRun N = .next v) (h2 : agrees v u) (h3 : loopAt 0 v) (h5 : v.requests = u.requests ++ rs) (hk : N + 1 ≤ k) :
    u.seqRun k = .next ((u.afterRequests rs).finishUnpad v.work) := by
  have h6 := h2.finishUnpad v.work
  rw [h5] at h6
  rw [State.afterRequests, ← h6]
  have h4 := State.seqRun_add 1 h1
  rw [State.seqRun_one (seqStep_final_unpad (loopAt_zero h3).2.1 (h2.command.trans hc) hi)] at h4
  exact State.seqRun_done h4 (State.seqStep_idle (State.finishUnpad_phase _ _)) hk

theorem seqRun_waits {u : State} {i : Instr} {t x : Block} {op : CipherOp} {k : Nat} (hp : u.phase = .block)
    (hc : u.command = some i) (hr : blockRequest i u = some (t, op, x)) (hi : u.idx.toNat < u.n.toNat)
    (hl : u.cipher.live = false) (ho : u.outstanding = none) (hk : 1 ≤ k) : u.seqRun k = .next (u.send (.cipher op x u.key)) := by
  have h1 := State.seqStep_block_waits hp hc hr hi hl
  rw [State.sendOnce_unasked (State.asked_eq_none.2 ho)] at h1
  refine State.seqRun_done (State.seqRun_one h1) ?_ hk
  have h2 : blockRequest i (u.send (.cipher op x u.key)) = some (t, op, x) := by cases i <;> exact hr
  have h3 := State.seqStep_block_waits (s := u.send (.cipher op x u.key)) hp hc h2 hi hl
  rw [h3, State.sendOnce_asked (State.asked_send _ _)]

theorem readSeq_append (m : Memory) (a j k : Nat) : m.readSeq a (j + k) = m.readSeq a j ++ m.readSeq (a + j) k := by
  induction j generalizing a with
  | zero => simp [Memory.readSeq]
  | succ j ih => rw [show j + 1 + k = (j + k) + 1 by omega]; simp [Memory.readSeq, ih, show a + 1 + j = a + (j + 1) by omega]

theorem readBlock_toList (m : Memory) (a : Nat) : (m.readBlock a).toList = m.readSeq a 16 := by
  apply List.ext_getElem?
  intro i
  by_cases h : i < 16
  · rw [getElem?_toList _ h, Memory.getElem?_readSeq, if_pos h, Memory.readBlock, byteOf_blockOf _ h]
  · rw [List.getElem?_eq_none (by simp; omega), List.getElem?_eq_none (by simp; omega)]

theorem ungroup_stored (s : State) (k : Nat) : ungroupBlocks (s.storedBlocks k) = s.blk.readSeq 0 (16 * k) := by
  induction k with
  | zero => rfl
  | succ k ih =>
    unfold State.storedBlocks at ih ⊢
    rw [List.range_succ, List.map_append, ungroupBlocks_append, ih, Nat.mul_succ, readSeq_append]
    simp [ungroupBlocks_cons, ungroupBlocks_nil, readBlock_toList]

theorem groupBytes_input (s : State) : groupBytes s.input = (List.range (s.inLen / 16)).map (s.bodyBlock 0) := by
  simpa using groupBytes_drop_input s 0

theorem loopAt_enter {u : State} {N : Nat} (hn : u.n.toNat = N) (hi : u.idx = 0) (ho : u.outstanding = none) (hl : u.cipher.live = true)
    (hp : u.phase = if N = 0 then .final else .block) : loopAt N u := by
  refine ⟨?_, ho, hl, hp⟩
  simp [hi, hn]

theorem seqRun_eq_exec_of_raise {s : State} {i : Instr} {k : Nat} {c : ErrCode} (hp : s.phase = .check) (hc : s.command = some i) (hk : 1 ≤ k)
    (h : checkStep i s = s.raise (destOf i) c) (he : exec i s = .next (s.raise (destOf i) c)) : s.seqRun k = exec i s := by
  rw [he]; exact seqRun_of_check_idle hp hc h rfl hk

theorem toNat_ofNat_lt {N : Nat} (h : N < 2 ^ 32) : (BitVec.ofNat 32 N).toNat = N := by
  rw [BitVec.toNat_ofNat, Nat.mod_eq_of_lt h]

variable {s : State} {k : Nat}

theorem seqRun_eq_exec_pad (hp : s.phase = .check) (hc : s.command = some .pad) (hk : 1 ≤ k) : s.seqRun k = exec .pad s := by
  have h := add_padLen s.inLen
  by_cases h1 : s.params.capBytes < s.inLen
  · exact seqRun_eq_exec_of_raise hp hc hk (checkStep_input_capacity rfl h1) (by simp [exec, execPad, h1]; rfl)
  by_cases h2 : s.params.capBytes < s.inLen + padLen s.inLen
  · exact seqRun_eq_exec_of_raise hp hc hk (checkStep_result_capacity (fun _ => by omega) rfl (by simp only [State.resultLen, State.blockCount]; omega))
      (by simp [exec, execPad, h1, h2]; rfl)
  · have he : exec .pad s = .next (s.publish (padBytes s.input)) := by simp [exec, execPad, h1, h2]
    rw [he]
    exact seqRun_of_check_idle hp hc (checkStep_passes (fun _ => by omega) rfl (by simp only [State.resultLen, State.blockCount]; omega)) rfl hk

theorem seqRun_eq_exec_unpad (hp : s.phase = .check) (hc : s.command = some .unpad) (hk : 2 ≤ k) : s.seqRun k = exec .unpad s := by
  by_cases h1 : s.params.capBytes < s.inLen
  · exact seqRun_eq_exec_of_raise hp hc (by omega) (checkStep_input_capacity rfl h1) (by simp [exec, execUnpad, h1]; rfl)
  · have he : exec .unpad s = .next (s.finishUnpad s.input) := by simp [exec, execUnpad, h1]
    rw [he]
    have hs := State.seqStep_check hp hc
    rw [checkStep_passes (fun _ => by omega) rfl (by simp only [State.resultLen]; omega)] at hs
    refine State.seqRun_done (a := 2) ?_ (State.seqStep_idle (State.finishUnpad_phase _ _)) hk
    have hf := seqStep_final_unpad (v := checkDo .unpad (s.clearDest (destOf .unpad))) (i := .unpad) rfl
      ((State.command_congr rfl).trans hc) rfl
    rw [State.seqRun_succ 1 hs, State.seqRun_one hf]
    have hag : agrees (checkDo .unpad (s.clearDest (destOf .unpad))) { s.clearDest .obuf with requests := s.requests } := rfl
    rw [hag.finishUnpad]
    exact congrArg _ (State.finishUnpad_clearDest _ s)

theorem seqRun_eq_exec_group (hp : s.phase = .check) (hc : s.command = some .group) (hk : 1 ≤ k) : s.seqRun k = exec .group s := by
  by_cases h1 : s.params.capBytes < s.inLen
  · exact seqRun_eq_exec_of_raise hp hc hk (checkStep_input_capacity rfl h1) (by simp [exec, execGroup, h1]; rfl)
  by_cases h2 : s.inLen % 16 ≠ 0
  · exact seqRun_eq_exec_of_raise hp hc hk (checkStep_length (fun _ => by omega) (by simpa [lengthOk] using h2)) (by simp [exec, execGroup, h1, h2]; rfl)
  · have he : exec .group s = .next ((s.storeBlocks (groupBytes s.input)).finishOk false) := by simp [exec, execGroup, h1, h2]
    rw [he]
    refine seqRun_of_check_idle hp hc ((checkStep_passes (fun _ => by omega) (by simpa [lengthOk] using h2) (by simp only [State.resultLen]; omega)).trans ?_) rfl hk
    have hb : s.bodyBlock 0 = fun j => s.ibuf.readBlock (16 * j) := by
      funext j
      simp [State.bodyBlock]
    rw [groupBytes_input, hb]
    rfl

theorem seqRun_eq_exec_ungroup (hp : s.phase = .check) (hc : s.command = some .ungroup) (hk : 1 ≤ k) : s.seqRun k = exec .ungroup s := by
  by_cases h1 : s.params.capBytes < 16 * s.nblk.toNat
  · exact seqRun_eq_exec_of_raise hp hc hk (checkStep_result_capacity (by simp [readsIbuf]) rfl h1) (by simp [exec, execUngroup, h1]; rfl)
  · have he : exec .ungroup s = .next (s.publish (ungroupBlocks (s.storedBlocks s.nblk.toNat))) := by simp [exec, execUngroup, h1]
    rw [he, ungroup_stored]
    exact seqRun_of_check_idle hp hc (checkStep_passes (by simp [readsIbuf]) rfl (by simp only [State.resultLen]; omega)) rfl hk

theorem seqRun_eq_exec_xor (hw : 16 ≤ s.params.capBytes) (hp : s.phase = .check) (hc : s.command = some .xor) (hk : 1 ≤ k) :
    s.seqRun k = exec .xor s :=
  seqRun_of_check_idle hp hc (checkStep_passes (by simp [readsIbuf]) rfl hw) rfl hk

theorem map_range'_cons (f : Nat → Block) (m : Nat) : (List.range (m + 1)).map f = f 0 :: (List.range' 1 m).map f := by
  rw [List.range_eq_range', List.range'_succ]; rfl

theorem seqRun_eq_exec_ecbEnc (hw : s.params.capBytes < 2 ^ 32) (ho : s.outstanding = none) (hp : s.phase = .check)
    (hc : s.command = some .ecbEnc) (hk : 3 + s.blockCount .ecbEnc ≤ k) : s.seqRun k = exec .ecbEnc s := by
  simp only [State.blockCount] at hk
  by_cases h1 : s.params.capBytes < s.inLen
  · exact seqRun_eq_exec_of_raise hp hc (by omega) (checkStep_input_capacity rfl h1) (by simp [exec, execEcbEnc, h1]; rfl)
  by_cases h2 : s.params.capBytes < 16 * (s.inLen / 16 + 1)
  · exact seqRun_eq_exec_of_raise hp hc (by omega) (checkStep_result_capacity (fun _ => by omega) rfl h2) (by simp [exec, execEcbEnc, h1, h2]; rfl)
  let u : State := (s.openMode (s.inLen / 16 + 1) .block).enterLoop []
  have hs : s.seqStep = .next u := by
    rw [State.seqStep_check hp hc, checkStep_passes (fun _ => by omega) rfl (by simp only [State.resultLen, State.blockCount]; omega)]
    rfl
  have hn : u.n.toNat = s.inLen / 16 + 1 := toNat_ofNat_lt (by omega)
  have huc : u.command = some .ecbEnc := (State.command_congr rfl).trans hc
  obtain ⟨b, rfl⟩ : ∃ b, k = b + 1 := ⟨k - 1, by omega⟩
  rw [State.seqRun_succ b hs]
  have he : exec .ecbEnc s = .next (u.withCipher (s.requestsFor .enc (groupBytes (padBytes s.input)))
        (State.publish (ungroupBlocks (ecbBlocks (s.ask .enc) (groupBytes (padBytes s.input)))))) := by
    simp [exec, execEcbEnc, h1, h2, u]
  rw [he, groupBytes_padBytes_input]
  cases hl : s.cipher.live
  · rw [seqRun_waits (u := u) (i := .ecbEnc) rfl huc rfl (by rw [hn]; exact Nat.succ_pos _) hl ho (by omega), map_range'_cons]
    simp only [State.withCipher, State.requestsFor, List.map_cons]
    rw [show u.cipher.live = false from hl]
    rfl
  · obtain ⟨v, v1, v2, v3, v4, v5⟩ := seqRun_ecbEnc (s.inLen / 16 + 1) huc (loopAt_enter hn rfl ho hl rfl)
    rw [seqRun_finish_enc huc rfl v1 v2 v3 v5 (by omega), v4, show u.idx.toNat = 0 from rfl, ← List.range_eq_range', map_range'_cons,
      map_range'_cons]
    simp only [State.withCipher, State.requestsFor, List.map_cons]
    rw [show u.cipher.live = true from hl]
    rfl

theorem seqRun_eq_exec_ecbDec (hw : s.params.capBytes < 2 ^ 32) (ho : s.outstanding = none) (hp : s.phase = .check)
    (hc : s.command = some .ecbDec) (hk : 3 + s.blockCount .ecbDec ≤ k) : s.seqRun k = exec .ecbDec s := by
  simp only [State.blockCount] at hk
  by_cases h1 : s.params.capBytes < s.inLen
  · exact seqRun_eq_exec_of_raise hp hc (by omega) (checkStep_input_capacity rfl h1) (by simp [exec, execEcbDec, h1]; rfl)
  by_cases h2 : s.inLen % 16 ≠ 0
  · exact seqRun_eq_exec_of_raise hp hc (by omega) (checkStep_length (fun _ => by omega) (by simpa [lengthOk] using h2)) (by simp [exec, execEcbDec, h1, h2]; rfl)
  obtain ⟨b, rfl⟩ : ∃ b, k = b + 1 := ⟨k - 1, by omega⟩
  have hN : s.inLen / 16 < 2 ^ 32 := by omega
  have he : exec .ecbDec s = .next (((s.openMode (s.inLen / 16) .block).enterLoop []).withCipher (s.requestsFor .dec (groupBytes s.input))
        (State.finishUnpad (ungroupBlocks (ecbBlocks (s.ask .dec) (groupBytes s.input))))) := by
    simp [exec, execEcbDec, h1, h2]
  have hs0 := State.seqStep_check hp hc
  rw [checkStep_passes (fun _ => by omega) (by simpa [lengthOk] using h2) (by simp only [State.resultLen]; omega)] at hs0
  rw [he, groupBytes_input, State.seqRun_succ b hs0]
  generalize hM : s.inLen / 16 = M at *
  cases M with
  | zero =>
    have hz : checkDo .ecbDec (s.clearDest (destOf .ecbDec)) = { s.openMode 0 .final with idx := 0, work := [] } := by
      have : (s.clearDest .obuf).inLen / 16 = 0 := hM
      simp only [checkDo, State.blockCount, destOf, this]
      rfl
    rw [hz]
    refine State.seqRun_done (a := 1) ?_ (State.seqStep_idle (State.finishUnpad_phase _ _)) (by omega)
    have hf := seqStep_final_unpad (v := { s.openMode 0 .final with idx := 0, work := [] }) (i := .ecbDec) rfl
      ((State.command_congr rfl).trans hc) rfl
    rw [State.seqRun_one hf]
    rfl
  | succ M =>
    let u : State := (s.openMode (M + 1) .block).enterLoop []
    have hz : checkDo .ecbDec (s.clearDest (destOf .ecbDec)) = u := by
      have : (s.clearDest .obuf).inLen / 16 = M + 1 := hM
      simp only [checkDo, State.blockCount, destOf, this]
      rfl
    rw [hz]
    have hn : u.n.toNat = M + 1 := toNat_ofNat_lt (by omega)
    have huc : u.command = some .ecbDec := (State.command_congr rfl).trans hc
    cases hl : s.cipher.live
    · rw [seqRun_waits (u := u) (i := .ecbDec) rfl huc rfl (by rw [hn]; exact Nat.succ_pos _) hl ho (by omega), map_range'_cons]
      simp only [State.requestsFor, List.map_cons]
      rw [State.withCipher_waits (s := ((s.openMode (M + 1) .block).enterLoop [])) hl]
      rfl
    · obtain ⟨v, v1, v2, v3, v4, v5⟩ := seqRun_ecbDec (M + 1) huc (loopAt_enter hn rfl ho hl rfl)
      rw [seqRun_finish_unpad huc rfl v1 v2 v3 v5 (by omega), v4, show u.idx.toNat = 0 from rfl, ← List.range_eq_range', map_range'_cons,
        map_range'_cons]
      rw [State.withCipher_live (s := ((s.openMode (M + 1) .block).enterLoop [])) hl]
      rfl

theorem seqRun_eq_exec_cbcDec (hw : s.params.capBytes < 2 ^ 32) (ho : s.outstanding = none) (hp : s.phase = .check)
    (hc : s.command = some .cbcDec) (hk : 3 + s.blockCount .cbcDec ≤ k) : s.seqRun k = exec .cbcDec s := by
  simp only [State.blockCount] at hk
  by_cases h1 : s.params.capBytes < s.inLen
  · exact seqRun_eq_exec_of_raise hp hc (by omega) (checkStep_input_capacity rfl h1) (by simp [exec, execCbcDec, h1]; rfl)
  by_cases h2 : s.inLen < 16 ∨ s.inLen % 16 ≠ 0
  · exact seqRun_eq_exec_of_raise hp hc (by omega) (checkStep_length (fun _ => by omega) (by simp only [lengthOk, Bool.and_eq_false_iff, decide_eq_false_iff_not]; omega)) (by simp [exec, execCbcDec, h1, h2]; rfl)
  obtain ⟨b, rfl⟩ : ∃ b, k = b + 1 := ⟨k - 1, by omega⟩
  have he : exec .cbcDec s = .next ((((s.openMode (s.inLen / 16 - 1) .block).setPrev (blockAt s.input 0)).enterLoop []).withCipher (s.requestsFor .dec (groupBytes (s.input.drop 16)))
        (State.finishUnpad (ungroupBlocks (cbcDecrypt (s.ask .dec) (blockAt s.input 0) (groupBytes (s.input.drop 16)))))) := by
    simp [exec, execCbcDec, h1, h2]
  have hiv : blockAt s.input 0 = s.ibuf.readBlock 0 := block_ext fun i hi => byteOf_blockAt_input s hi (by omega)
  have hs0 := State.seqStep_check hp hc
  rw [checkStep_passes (fun _ => by omega) (by simp only [lengthOk, Bool.and_eq_true, decide_eq_true_eq]; omega) (by simp only [State.resultLen]; omega)] at hs0
  have hdiv : (s.inLen - 16) / 16 = s.inLen / 16 - 1 := by omega
  rw [he, groupBytes_drop_input, hdiv, hiv, State.seqRun_succ b hs0]
  have hN : s.inLen / 16 - 1 < 2 ^ 32 := by omega
  generalize hM : s.inLen / 16 - 1 = M at *
  cases M with
  | zero =>
    have hz : checkDo .cbcDec (s.clearDest (destOf .cbcDec)) = { s.openMode 0 .final with idx := 0, work := [], prev := s.ibuf.readBlock 0 } := by
      have : (s.clearDest .obuf).inLen / 16 - 1 = 0 := hM
      simp only [checkDo, State.blockCount, destOf, this]
      rfl
    rw [hz]
    refine State.seqRun_done (a := 1) ?_ (State.seqStep_idle (State.finishUnpad_phase _ _)) (by omega)
    have hf := seqStep_final_unpad (v := { s.openMode 0 .final with idx := 0, work := [], prev := s.ibuf.readBlock 0 }) (i := .cbcDec) rfl
      ((State.command_congr rfl).trans hc) rfl
    rw [State.seqRun_one hf]
    rfl
  | succ M =>
    let u : State := ((s.openMode (M + 1) .block).setPrev (s.ibuf.readBlock 0)).enterLoop []
    have hz : checkDo .cbcDec (s.clearDest (destOf .cbcDec)) = u := by
      have : (s.clearDest .obuf).inLen / 16 - 1 = M + 1 := hM
      simp only [checkDo, State.blockCount, destOf, this]
      rfl
    rw [hz]
    have hn : u.n.toNat = M + 1 := toNat_ofNat_lt (by omega)
    have huc : u.command = some .cbcDec := (State.command_congr rfl).trans hc
    cases hl : s.cipher.live
    · rw [seqRun_waits (u := u) (i := .cbcDec) rfl huc rfl (by rw [hn]; exact Nat.succ_pos _) hl ho (by omega), map_range'_cons]
      simp only [State.requestsFor, List.map_cons]
      rw [State.withCipher_waits (s := (((s.openMode (M + 1) .block).setPrev (s.ibuf.readBlock 0)).enterLoop [])) hl]
      rfl
    · obtain ⟨v, v1, v2, v3, v4, v5⟩ := seqRun_cbcDec (M + 1) huc (loopAt_enter hn rfl ho hl rfl)
      rw [seqRun_finish_unpad huc rfl v1 v2 v3 v5 (by omega), v4, show u.idx.toNat = 0 from rfl, ← List.range_eq_range',
        show u.prev = s.ibuf.readBlock 0 from rfl, show u.ask .dec = s.ask .dec from rfl, show u.bodyBlock 16 = s.bodyBlock 16 from rfl,
        map_range'_cons]
      rw [State.withCipher_live (s := (((s.openMode (M + 1) .block).setPrev (s.ibuf.readBlock 0)).enterLoop [])) hl]
      generalize cbcDecrypt _ _ _ = ps
      rfl

theorem seqRun_eq_exec_ctrDec (hw : s.params.capBytes < 2 ^ 32) (ho : s.outstanding = none) (hp : s.phase = .check)
    (hc : s.command = some .ctrDec) (hk : 3 + s.blockCount .ctrDec ≤ k) : s.seqRun k = exec .ctrDec s := by
  simp only [State.blockCount] at hk
  by_cases h1 : s.params.capBytes < s.inLen
  · exact seqRun_eq_exec_of_raise hp hc (by omega) (checkStep_input_capacity rfl h1) (by simp [exec, execCtrDec, h1]; rfl)
  by_cases h2 : s.inLen < 8 ∨ (s.inLen - 8) % 16 ≠ 0
  · exact seqRun_eq_exec_of_raise hp hc (by omega) (checkStep_length (fun _ => by omega) (by simp only [lengthOk, Bool.and_eq_false_iff, decide_eq_false_iff_not]; omega)) (by simp [exec, execCtrDec, h1, h2]; rfl)
  obtain ⟨b, rfl⟩ : ∃ b, k = b + 1 := ⟨k - 1, by omega⟩
  have he : exec .ctrDec s = .next ((((s.openMode ((s.inLen - 8) / 16) .block).setNonce (nonceOf (blockAt s.input 0))).enterLoop []).withCipher
        (s.requestsFor .enc (ctrCounters s.params.ctrEndian (nonceOf (blockAt s.input 0)) 0 (groupBytes (s.input.drop 8)).length))
        (State.finishUnpad (ungroupBlocks (ctrBlocks (s.ask .enc) s.params.ctrEndian (nonceOf (blockAt s.input 0)) 0 (groupBytes (s.input.drop 8)))))) := by
    simp [exec, execCtrDec, h1, h2]
  have hiv : nonceOf (blockAt s.input 0) = nonceOf (s.ibuf.readBlock 0) := nonceOf_congr fun i hi => byteOf_blockAt_input s (by omega) (by omega)
  have hs0 := State.seqStep_check hp hc
  rw [checkStep_passes (fun _ => by omega) (by simp only [lengthOk, Bool.and_eq_true, decide_eq_true_eq]; omega) (by simp only [State.resultLen]; omega)] at hs0
  rw [he, groupBytes_drop_input, hiv, State.seqRun_succ b hs0]
  simp only [List.length_map, List.length_range]
  have hN : (s.inLen - 8) / 16 < 2 ^ 32 := by omega
  generalize hM : (s.inLen - 8) / 16 = M at *
  cases M with
  | zero =>
    have hz : checkDo .ctrDec (s.clearDest (destOf .ctrDec)) = { s.openMode 0 .final with idx := 0, work := [], nonce := nonceOf (s.ibuf.readBlock 0), cnt := 0 } := by
      have : ((s.clearDest .obuf).inLen - 8) / 16 = 0 := hM
      simp only [checkDo, State.blockCount, destOf, this]
      rfl
    rw [hz]
    refine State.seqRun_done (a := 1) ?_ (State.seqStep_idle (State.finishUnpad_phase _ _)) (by omega)
    have hf := seqStep_final_unpad (v := { s.openMode 0 .final with idx := 0, work := [], nonce := nonceOf (s.ibuf.readBlock 0), cnt := 0 }) (i := .ctrDec) rfl
      ((State.command_congr rfl).trans hc) rfl
    rw [State.seqRun_one hf]
    rfl
  | succ M =>
    let u : State := ((s.openMode (M + 1) .block).setNonce (nonceOf (s.ibuf.readBlock 0))).enterLoop []
    have hz : checkDo .ctrDec (s.clearDest (destOf .ctrDec)) = u := by
      have : ((s.clearDest .obuf).inLen - 8) / 16 = M + 1 := hM
      simp only [checkDo, State.blockCount, destOf, this]
      rfl
    rw [hz]
    have hn : u.n.toNat = M + 1 := toNat_ofNat_lt (by omega)
    have huc : u.command = some .ctrDec := (State.command_congr rfl).trans hc
    cases hl : s.cipher.live
    · rw [seqRun_waits (u := u) (i := .ctrDec) rfl huc rfl (by rw [hn]; exact Nat.succ_pos _) hl ho (by omega)]
      simp only [State.requestsFor, List.map_cons, ctrCounters]
      rw [State.withCipher_waits (s := (((s.openMode (M + 1) .block).setNonce (nonceOf (s.ibuf.readBlock 0))).enterLoop [])) hl]
      rfl
    · obtain ⟨v, v1, v2, v3, v4, v5⟩ := seqRun_ctrDec (M + 1) huc (loopAt_enter hn rfl ho hl rfl)
      rw [seqRun_finish_unpad huc rfl v1 v2 v3 v5 (by omega), v4, show u.idx.toNat = 0 from rfl, ← List.range_eq_range']
      rw [State.withCipher_live (s := (((s.openMode (M + 1) .block).setNonce (nonceOf (s.ibuf.readBlock 0))).enterLoop [])) hl]
      rfl

theorem seqStep_rand_cbc {u : State} (hp : u.phase = .rand) (hc : u.command = some .cbcEnc) (ho : u.outstanding = none) :
    u.seqStep = .next (if u.rng.live then match u.rng.answer with
      | .fail => (u.send (.random 16)).drawTaken.raise .obuf .rng
      | .ok r => ((u.send (.random 16)).drawTaken.setPrev r).enterLoop r.toList
      else u.send (.random 16)) := by
  simp only [State.seqStep, hp, hc, randomStep, State.sendOnce_unasked (State.asked_eq_none.2 ho)]
  rfl

theorem seqStep_rand_ctr {u : State} (hp : u.phase = .rand) (hc : u.command = some .ctrEnc) (ho : u.outstanding = none) :
    u.seqStep = .next (if u.rng.live then match u.rng.answer with
      | .fail => (u.send (.random 8)).drawTaken.raise .obuf .rng
      | .ok r => ((u.send (.random 8)).drawTaken.setNonce (nonceOf r)).enterLoop (nonceOf r).toList
      else u.send (.random 8)) := by
  simp only [State.seqStep, hp, hc, randomStep, State.sendOnce_unasked (State.asked_eq_none.2 ho)]
  rfl

theorem seqStep_rand_wait {u : State} {i : Instr} {r} (hd : drawsRandom i = true) (hp : u.phase = .rand) (hc : u.command = some i) (ho : u.asked = some r)
   (hl : u.rng.live = false) : u.seqStep = .next u := by
  cases i <;> simp [drawsRandom] at hd <;> simp [State.seqStep, hp, hc, randomStep, State.sendOnce_asked ho, hl]

theorem seqRun_eq_exec_cbcEnc (hw : s.params.capBytes < 2 ^ 32) (ho : s.outstanding = none) (hp : s.phase = .check)
    (hc : s.command = some .cbcEnc) (hk : 3 + s.blockCount .cbcEnc ≤ k) : s.seqRun k = exec .cbcEnc s := by
  simp only [State.blockCount] at hk
  by_cases h1 : s.params.capBytes < s.inLen
  · exact seqRun_eq_exec_of_raise hp hc (by omega) (checkStep_input_capacity rfl h1) (by simp [exec, execCbcEnc, h1]; rfl)
  by_cases h2 : s.params.capBytes < 16 + 16 * (s.inLen / 16 + 1)
  · exact seqRun_eq_exec_of_raise hp hc (by omega) (checkStep_result_capacity (fun _ => by omega) rfl h2) (by simp [exec, execCbcEnc, h1, h2]; rfl)
  let u : State := s.openMode (s.inLen / 16 + 1) .rand
  have hs : s.seqStep = .next u := by
    rw [State.seqStep_check hp hc, checkStep_passes (fun _ => by omega) rfl (by simp only [State.resultLen, State.blockCount]; omega)]
    rfl
  have huc : u.command = some .cbcEnc := (State.command_congr rfl).trans hc
  obtain ⟨b, rfl⟩ : ∃ b, k = b + 2 := ⟨k - 2, by omega⟩
  rw [State.seqRun_succ (b + 1) hs]
  have he : exec .cbcEnc s = .next (u.withRandom 16 fun iv t =>
        ((t.setPrev iv).enterLoop iv.toList).withCipher
          (s.requestsFor .enc (cbcCombined (s.ask .enc) iv (groupBytes (padBytes s.input))))
          (State.publish (iv.toList ++ ungroupBlocks (cbcEncrypt (s.ask .enc) iv (groupBytes (padBytes s.input)))))) := by
    simp [exec, execCbcEnc, h1, h2, u]
  have hr := seqStep_rand_cbc (u := u) rfl huc ho
  rw [he, groupBytes_padBytes_input, State.seqRun_succ b hr]
  rw [State.withRandom_eq]
  cases hrl : u.rng.live
  · simp only [Bool.false_eq_true, if_false]
    exact State.seqRun_fixed (seqStep_rand_wait (u := u.send (.random 16)) (i := .cbcEnc) rfl rfl huc rfl hrl) b
  simp only [if_true]
  cases ha : u.rng.answer with
  | fail => exact State.seqRun_idle rfl b
  | ok r =>
    simp only
    let w : State := ((u.send (.random 16)).drawTaken.setPrev r).enterLoop r.toList
    have hn : w.n.toNat = s.inLen / 16 + 1 := toNat_ofNat_lt (by omega)
    have hwc : w.command = some .cbcEnc := huc
    show w.seqRun b = .next (w.withCipher _ _)
    cases hl : s.cipher.live
    · rw [seqRun_waits (u := w) (i := .cbcEnc) rfl hwc rfl (by rw [hn]; exact Nat.succ_pos _) hl rfl (by omega), map_range'_cons]
      simp only [State.requestsFor, List.map_cons, cbcCombined]
      rw [State.withCipher_waits (s := w) hl]
      rfl
    · obtain ⟨v, v1, v2, v3, v4, v5⟩ := seqRun_cbcEnc (s.inLen / 16 + 1) hwc (loopAt_enter hn rfl rfl hl rfl)
      rw [seqRun_finish_enc hwc rfl v1 v2 v3 v5 (by omega), v4, show w.idx.toNat = 0 from rfl, ← List.range_eq_range', map_range'_cons,
        map_range'_cons]
      rw [State.withCipher_live (s := w) hl]
      rw [State.ask_congr (s := w) (t := s) (by simp [w, u]) (by simp [w, u]), State.requestsFor_congr (s := w) (t := s) (by simp [w, u]), State.plainBlock_congr (s := w) (t := s) (by simp [w, u]) (by simp [w, u])]
      rfl

theorem seqRun_eq_exec_ctrEnc (hw : s.params.capBytes < 2 ^ 32) (ho : s.outstanding = none) (hp : s.phase = .check)
    (hc : s.command = some .ctrEnc) (hk : 3 + s.blockCount .ctrEnc ≤ k) : s.seqRun k = exec .ctrEnc s := by
  simp only [State.blockCount] at hk
  by_cases h1 : s.params.capBytes < s.inLen
  · exact seqRun_eq_exec_of_raise hp hc (by omega) (checkStep_input_capacity rfl h1) (by simp [exec, execCtrEnc, h1]; rfl)
  by_cases h2 : s.params.capBytes < 8 + 16 * (s.inLen / 16 + 1)
  · exact seqRun_eq_exec_of_raise hp hc (by omega) (checkStep_result_capacity (fun _ => by omega) rfl h2) (by simp [exec, execCtrEnc, h1, h2]; rfl)
  let u : State := s.openMode (s.inLen / 16 + 1) .rand
  have hs : s.seqStep = .next u := by
    rw [State.seqStep_check hp hc, checkStep_passes (fun _ => by omega) rfl (by simp only [State.resultLen, State.blockCount]; omega)]
    rfl
  have huc : u.command = some .ctrEnc := (State.command_congr rfl).trans hc
  obtain ⟨b, rfl⟩ : ∃ b, k = b + 2 := ⟨k - 2, by omega⟩
  rw [State.seqRun_succ (b + 1) hs]
  have he : exec .ctrEnc s = .next (u.withRandom 8 fun r t =>
        ((t.setNonce (nonceOf r)).enterLoop (nonceOf r).toList).withCipher
          (s.requestsFor .enc (ctrCounters s.params.ctrEndian (nonceOf r) 0 (groupBytes (padBytes s.input)).length))
          (State.publish ((nonceOf r).toList ++ ungroupBlocks (ctrBlocks (s.ask .enc) s.params.ctrEndian (nonceOf r) 0 (groupBytes (padBytes s.input)))))) := by
    simp [exec, execCtrEnc, h1, h2, u]
  have hr := seqStep_rand_ctr (u := u) rfl huc ho
  rw [he, groupBytes_padBytes_input, State.seqRun_succ b hr]
  simp only [List.length_map, List.length_range]
  rw [State.withRandom_eq]
  cases hrl : u.rng.live
  · simp only [Bool.false_eq_true, if_false]
    exact State.seqRun_fixed (seqStep_rand_wait (u := u.send (.random 8)) (i := .ctrEnc) rfl rfl huc rfl hrl) b
  simp only [if_true]
  cases ha : u.rng.answer with
  | fail => exact State.seqRun_idle rfl b
  | ok r =>
    simp only
    let w : State := ((u.send (.random 8)).drawTaken.setNonce (nonceOf r)).enterLoop (nonceOf r).toList
    have hn : w.n.toNat = s.inLen / 16 + 1 := toNat_ofNat_lt (by omega)
    have hwc : w.command = some .ctrEnc := huc
    show w.seqRun b = .next (w.withCipher _ _)
    cases hl : s.cipher.live
    · rw [seqRun_waits (u := w) (i := .ctrEnc) rfl hwc rfl (by rw [hn]; exact Nat.succ_pos _) hl rfl (by omega)]
      simp only [State.requestsFor, List.map_cons, ctrCounters]
      rw [State.withCipher_waits (s := w) hl]
      rfl
    · obtain ⟨v, v1, v2, v3, v4, v5⟩ := seqRun_ctrEnc (s.inLen / 16 + 1) hwc (loopAt_enter hn rfl rfl hl rfl)
      rw [seqRun_finish_enc hwc rfl v1 v2 v3 v5 (by omega), v4, show w.idx.toNat = 0 from rfl, ← List.range_eq_range']
      rw [State.withCipher_live (s := w) hl]
      rw [State.ask_congr (s := w) (t := s) (by simp [w, u]) (by simp [w, u]), State.requestsFor_congr (s := w) (t := s) (by simp [w, u]), State.plainBlock_congr (s := w) (t := s) (by simp [w, u]) (by simp [w, u])]
      rw [show w.nonce = nonceOf r from rfl, show w.cnt = 0 from rfl, show w.params.ctrEndian = s.params.ctrEndian from rfl]
      rfl

theorem withCipher_idle (rs : List PortRequest) (fin : State → State) (s : State) (hf : ∀ s, (fin s).phase = .idle) (hl : s.cipher.live = true) :
    (s.withCipher rs fin).phase = .idle := by
  unfold State.withCipher
  cases rs with
  | nil => exact hf _
  | cons r rs => simp only [hl, if_true]; exact hf _

theorem exec_ends (i : Instr) (s : State) (hl : s.live) : ∃ t, exec i s = .next t ∧ t.phase = .idle := by
  cases i
  · refine ⟨_, rfl, ?_⟩; split; rfl; split <;> rfl
  · refine ⟨_, rfl, ?_⟩; split; rfl; simp
  · refine ⟨_, rfl, ?_⟩; split; rfl; split <;> rfl
  · refine ⟨_, rfl, ?_⟩; split <;> rfl
  · exact ⟨_, rfl, rfl⟩
  · refine ⟨_, rfl, ?_⟩; split; rfl; split; rfl; exact withCipher_idle _ _ _ (by simp) hl.1
  · refine ⟨_, rfl, ?_⟩; split; rfl; split; rfl; exact withCipher_idle _ _ _ (by simp) hl.1
  · refine ⟨_, rfl, ?_⟩
    split; rfl; split; rfl
    rw [State.withRandom_eq, State.openMode_rng, if_pos hl.2]
    split
    · rfl
    · exact withCipher_idle _ _ _ (by simp) hl.1
  · refine ⟨_, rfl, ?_⟩; split; rfl; split; rfl; exact withCipher_idle _ _ _ (by simp) hl.1
  · refine ⟨_, rfl, ?_⟩
    split; rfl; split; rfl
    rw [State.withRandom_eq, State.openMode_rng, if_pos hl.2]
    split
    · rfl
    · exact withCipher_idle _ _ _ (by simp) hl.1
  · refine ⟨_, rfl, ?_⟩; split; rfl; split; rfl; exact withCipher_idle _ _ _ (by simp) hl.1

theorem runCommand_check {s : State} {i : Instr} (hp : s.phase = .check) (hc : s.command = some i) : s.runCommand = exec i s := by
  simp [State.runCommand, hp, hc]

end Sys2Proof.Machine
end

