-- ==== Sys2Proof/Laws/Commands.lean ====
section
/-! SUPPORT. What the shared operations of the commands leave unchanged, and the block lists of the modes, block by block. -/

namespace Sys2Proof.Machine

theorem withOutput_ended (s : State) (w : List Byte) (st : Byte) : (s.withOutput w).endedWith st = (s.setObuf w).endCommand st := rfl

theorem raise_obuf (s : State) (c : ErrCode) : s.raise .obuf c = (s.withOutput []).endedWith (statusError c) := rfl

theorem finishUnpad_eq (s : State) (w : List Byte) : s.finishUnpad w = s.endedUnpadding w := by
  unfold State.finishUnpad State.endedUnpadding
  cases (padCheck w).1 <;> cases s.strict <;> rfl

theorem agrees_finishUnpad_mode {s u : State} (w : List Byte) (h : agrees u (s.clearDest .obuf)) : u.finishUnpad w = State.finishUnpad w { s with requests := u.requests } := by
  rw [h.finishUnpad]
  have := State.finishUnpad_clearDest w { s with requests := u.requests }
  exact this

theorem publish_drawn {s u : State} (w : List Byte) (n : Nat) (xs : List PortRequest) (h : agrees u { s.clearDest .obuf with rng := s.rng.advance })
    (hr : u.requests = s.requests ++ [.random n]) :
    (u.afterRequests xs).publish w = ((State.withOutput { s with rng := s.rng.advance } w).afterRequests (.random n :: xs)).endedWith 0x02 := by
  have h' : agrees (u.afterRequests xs) { s.clearDest .obuf with rng := s.rng.advance } := h
  rw [h'.publish]
  have : (u.afterRequests xs).requests = s.requests ++ (.random n :: xs) := by
    simp [State.afterRequests, hr]
  rw [this]
  rfl

theorem cbcCombined_get (enc : Block → Block) (iv : Block) (bs : List Block) (k : Nat) (hk : k < bs.length) :
    (cbcCombined enc iv bs)[k]? = some (xor16 (bs.getD k zeroBlock) ((iv :: cbcEncrypt enc iv bs).getD k zeroBlock)) ∧
    (cbcEncrypt enc iv bs)[k]? = (cbcCombined enc iv bs)[k]?.map enc := by
  induction bs generalizing iv k with
  | nil => simp at hk
  | cons b bs ih =>
    cases k with
    | zero => simp [cbcCombined, cbcEncrypt]
    | succ k =>
      have := ih (enc (xor16 b iv)) k (by simpa using hk)
      simpa [cbcCombined, cbcEncrypt] using this

theorem cbcDecrypt_get (dec : Block → Block) (iv : Block) (cs : List Block) (k : Nat) (hk : k < cs.length) :
    (cbcDecrypt dec iv cs)[k]? = some (xor16 (dec (cs.getD k zeroBlock)) ((iv :: cs).getD k zeroBlock)) := by
  induction cs generalizing iv k with
  | nil => simp at hk
  | cons b bs ih =>
    cases k with
    | zero => simp [cbcDecrypt]
    | succ k =>
      have := ih b k (by simpa using hk)
      simpa [cbcDecrypt] using this

theorem blockAt_drop (x : List Byte) (k : Nat) : blockAt (x.drop 16) k = blockAt x (k + 1) := by
  refine block_ext fun i hi => ?_
  rw [byteOf_blockAt _ _ hi, byteOf_blockAt _ _ hi]
  simp only [List.getD_eq_getElem?_getD, List.getElem?_drop]
  rw [show 16 + (16 * k + i) = 16 * (k + 1) + i by omega]

theorem ctrCounters_eq (e : Endian) (nonce : Nonce) (c k : Nat) : ctrCounters e nonce (BitVec.ofNat 64 c) k = (List.range' c k).map fun j => ctrBlock e nonce (BitVec.ofNat 64 j) := by
  induction k generalizing c with
  | zero => rfl
  | succ k ih =>
    rw [ctrCounters, List.range'_succ, List.map_cons, ← ih (c + 1)]
    congr 2
    apply BitVec.eq_of_toNat_eq; simp [BitVec.toNat_ofNat]

theorem ctrBlocks_eq (enc : Block → Block) (e : Endian) (nonce : Nonce) (c : Nat) (ts : List Block) :
    ctrBlocks enc e nonce (BitVec.ofNat 64 c) ts = (List.range ts.length).map fun j => xor16 (ts.getD j zeroBlock) (enc (ctrBlock e nonce (BitVec.ofNat 64 (c + j)))) := by
  induction ts generalizing c with
  | nil => rfl
  | cons t ts ih =>
    have h1 : (BitVec.ofNat 64 c + 1) = BitVec.ofNat 64 (c + 1) := by
      apply BitVec.eq_of_toNat_eq; simp [BitVec.toNat_ofNat]
    rw [ctrBlocks, h1, ih, List.length_cons, List.range_succ_eq_map, List.map_cons, List.map_map]
    simp [Function.comp_def, Nat.add_comm, Nat.add_left_comm]

theorem toList_nonceOf (r : Block) : (nonceOf r).toList = r.toList.take 8 := by
  apply List.ext_getElem?
  intro i
  by_cases h : i < 8
  · rw [List.getElem?_take, if_pos h, getElem?_toList _ (by omega)]
    simp [nonceOf, h]
  · rw [List.getElem?_eq_none (by simp; omega), List.getElem?_eq_none (by simp; omega)]

/-- Everything outside `OBUF`, `OLEN`, `STATUS`, the sequencer's registers and the ports is in `t` as in `s` (R219). -/
structure ObufFrame (s t : State) : Prop where
  opc : t.opc = s.opc
  ctrl : t.ctrl = s.ctrl
  ilen : t.ilen = s.ilen
  nblk : t.nblk = s.nblk
  key : t.key = s.key
  xa : t.xa = s.xa
  xb : t.xb = s.xb
  xc : t.xc = s.xc
  ibuf : t.ibuf = s.ibuf
  blk : t.blk = s.blk
  params : t.params = s.params
  cipher : t.cipher = s.cipher
  readData : t.readData = s.readData
  agenda : t.agenda = s.agenda

theorem ObufFrame.refl (s : State) : ObufFrame s s := by constructor <;> rfl

theorem ObufFrame.trans {s t u : State} (h : ObufFrame s t) (h' : ObufFrame t u) : ObufFrame s u := by
  constructor
  · exact h'.1.trans h.1
  · exact h'.2.trans h.2
  · exact h'.3.trans h.3
  · exact h'.4.trans h.4
  · exact h'.5.trans h.5
  · exact h'.6.trans h.6
  · exact h'.7.trans h.7
  · exact h'.8.trans h.8
  · exact h'.9.trans h.9
  · exact h'.10.trans h.10
  · exact h'.11.trans h.11
  · exact h'.12.trans h.12
  · exact h'.13.trans h.13
  · exact h'.14.trans h.14

theorem ObufFrame.endCommand (s) (st) : ObufFrame s (s.endCommand st) := by constructor <;> rfl

theorem ObufFrame.setObuf (s w) : ObufFrame s (s.setObuf w) := by constructor <;> rfl

theorem ObufFrame.clearDest (s) : ObufFrame s (s.clearDest .obuf) := by constructor <;> rfl

theorem ObufFrame.raise (s c) : ObufFrame s (s.raise .obuf c) := (ObufFrame.clearDest s).trans (.endCommand _ _)

theorem ObufFrame.publish (s w) : ObufFrame s (s.publish w) := (ObufFrame.setObuf s w).trans (.endCommand _ _)

theorem ObufFrame.finishUnpad (s w) : ObufFrame s (s.finishUnpad w) := by
  rcases s.finishUnpad_cases w with ⟨-, h⟩ | ⟨-, -, h⟩ | ⟨-, -, h⟩ <;> rw [h]
  · exact (ObufFrame.setObuf s _).trans (.endCommand _ _)
  · exact (ObufFrame.clearDest s).trans (.endCommand _ _)
  · exact (ObufFrame.setObuf s _).trans (.endCommand _ _)

theorem ObufFrame.openMode (s k p) : ObufFrame s (s.openMode k p) := by constructor <;> rfl

theorem ObufFrame.enterLoop (s w) : ObufFrame s (s.enterLoop w) := by constructor <;> rfl

theorem ObufFrame.setPrev (s w) : ObufFrame s (s.setPrev w) := by constructor <;> rfl

theorem ObufFrame.setNonce (s w) : ObufFrame s (s.setNonce w) := by constructor <;> rfl

theorem ObufFrame.send (s w) : ObufFrame s (s.send w) := by constructor <;> rfl

theorem ObufFrame.afterRequests (s w) : ObufFrame s (s.afterRequests w) := by constructor <;> rfl

theorem ObufFrame.drawTaken (s) : ObufFrame s (s.drawTaken) := by constructor <;> rfl

theorem ObufFrame.withCipher (s : State) (rs fin) (hf : ∀ u, ObufFrame u (fin u)) : ObufFrame s (s.withCipher rs fin) := by
  cases rs with
  | nil => exact hf _
  | cons r rs =>
    cases hl : s.cipher.live
    · rw [State.withCipher_waits hl]; exact .send _ _
    · rw [State.withCipher_live hl]; exact (ObufFrame.afterRequests _ _).trans (hf _)

theorem ObufFrame.withRandom (s : State) (n go) (hf : ∀ r u, ObufFrame u (go r u)) : ObufFrame s (s.withRandom n go) := by
  rw [State.withRandom_eq]
  split
  · split
    · exact ((ObufFrame.send _ _).trans (.drawTaken _)).trans (.raise _ _)
    · exact ((ObufFrame.send _ _).trans (.drawTaken _)).trans (hf _ _)
  · exact .send _ _

theorem ObufFrame.ite {p : Prop} [Decidable p] {s a b : State} (ha : ObufFrame s a) (hb : ObufFrame s b) : ObufFrame s (if p then a else b) := by
  split <;> assumption

theorem withCipher_rng (s : State) (rs fin) (hf : ∀ u, (fin u).rng = u.rng) : (s.withCipher rs fin).rng = s.rng := by
  cases rs with
  | nil => exact hf _
  | cons r rs =>
    cases hl : s.cipher.live
    · rw [State.withCipher_waits hl]; rfl
    · rw [State.withCipher_live hl]; exact hf _

theorem finishUnpad_rng (s w) : (State.finishUnpad w s).rng = s.rng := by
  rcases s.finishUnpad_cases w with ⟨-, h⟩ | ⟨-, -, h⟩ | ⟨-, -, h⟩ <;> rw [h] <;> rfl

theorem finishUnpad_requests (s w) : (State.finishUnpad w s).requests = s.requests := by
  rcases s.finishUnpad_cases w with ⟨-, h⟩ | ⟨-, -, h⟩ | ⟨-, -, h⟩ <;> rw [h] <;> rfl

theorem take_drop_ungroup (bs : List Block) (j : Nat) : ((ungroupBlocks bs).drop (16 * j)).take 16 = (bs[j]?.map Vector.toList).getD [] := by
  induction bs generalizing j with
  | nil => simp [ungroupBlocks_nil]
  | cons b bs ih =>
    rw [ungroupBlocks_cons]
    cases j with
    | zero => simp
    | succ j =>
      rw [List.drop_append, List.drop_eq_nil_of_le (by rw [length_toList]; omega), List.nil_append, length_toList,
        show 16 * (j + 1) - 16 = 16 * j by omega, ih]
      simp

theorem finishUnpad_olen (s : State) (w : List Byte) (h : w.length < 2 ^ 32) : (s.finishUnpad w).olen.toNat ≤ w.length := by
  rcases s.finishUnpad_cases w with ⟨-, e⟩ | ⟨-, -, e⟩ | ⟨-, -, e⟩ <;> rw [e]
  · show (BitVec.ofNat 32 _).toNat ≤ _
    rw [toNat_ofNat_lt (by simp; omega)]; simp
  · show (0 : Word).toNat ≤ _; simp
  · show (BitVec.ofNat 32 _).toNat ≤ _
    rw [toNat_ofNat_lt h]

theorem getD_set_ne (cs : List Block) (k j : Nat) (x : Block) (h : k ≠ j) : (cs.set k x).getD j zeroBlock = cs.getD j zeroBlock := by
  rw [List.getD_eq_getElem?_getD, List.getElem?_set_ne h, List.getD_eq_getElem?_getD]

theorem getD_set_self (cs : List Block) (k : Nat) (x : Block) (h : k < cs.length) : (cs.set k x).getD k zeroBlock = x := by
  rw [List.getD_eq_getElem?_getD, List.getElem?_set_self h]; rfl

theorem getD_cons_block (iv : Block) (cs : List Block) (k : Nat) : (iv :: cs).getD (k + 1) zeroBlock = cs.getD k zeroBlock := rfl

end Sys2Proof.Machine
end

