-- ==== Sys2Proof/Laws/HostPort.lean ====
section
/-! SUPPORT. The host port while idle, the little-endian registers, and what the statements of the host notation do. -/

namespace Sys2Proof.Machine

theorem hostWrite_cmd {s : State} (h : s.busy = false) (v : Byte) : s.hostWrite .reg 0x00 v = s.startCommand v := by
  simp [State.hostWrite, h, State.writeIdle, State.regWrite]

theorem readSeq_congr {m m' : Memory} (a k : Nat) (h : ∀ b, a ≤ b → b < a + k → m'.read b = m.read b) : m'.readSeq a k = m.readSeq a k := by
  induction k generalizing a with
  | zero => rfl
  | succ k ih =>
    simp only [Memory.readSeq]
    rw [h a (Nat.le_refl _) (by omega), ih (a + 1) (fun b h1 h2 => h b (by omega) (by omega))]

theorem wordByte_toNat (w : Word) (j : Nat) : (wordByte w j).toNat = w.toNat / 256 ^ j % 256 := by
  simp only [wordByte, BitVec.extractLsb'_toNat, Nat.shiftRight_eq_div_pow]
  rw [show (256:Nat) ^ j = 2 ^ (8 * j) by rw [show (256:Nat) = 2 ^ 8 from rfl, ← pow_mul]]

theorem hostRead_idle {s : State} (h : s.busy = false) (sp a) : s.hostRead sp a = s.readIdle sp a := by simp [State.hostRead, h]

theorem hostWrite_idle {s : State} (h : s.busy = false) (sp a v) : s.hostWrite sp a v = s.writeIdle sp a v := by simp [State.hostWrite, h]

theorem setWordByte_spec (w : Word) (j k : Nat) (hj : j < 4) (hk : k < 4) (v : Byte) : wordByte (setWordByte w j v) k = if k = j then v else wordByte w k := by
  apply BitVec.eq_of_getLsbD_eq
  intro b hb
  simp only [wordByte, setWordByte]
  by_cases h : k = j
  · subst h
    rw [if_pos rfl]
    simp only [BitVec.getLsbD_extractLsb', BitVec.getLsbD_or, BitVec.getLsbD_and, BitVec.getLsbD_not, BitVec.getLsbD_shiftLeft, BitVec.getLsbD_setWidth]
    have h1 : (0xFF : Word).getLsbD (8 * k + b - 8 * k) = true := by rw [show 8 * k + b - 8 * k = b by omega]; revert b; decide
    simp only [h1]
    have : 8 * k + b - 8 * k = b := by omega
    have h3 : 8 * k + b < 32 := by omega
    have h4 : b < 32 := by omega
    simp [hb, h3, h4]
  · rw [if_neg h]
    simp only [BitVec.getLsbD_extractLsb', BitVec.getLsbD_or, BitVec.getLsbD_and, BitVec.getLsbD_not, BitVec.getLsbD_shiftLeft, BitVec.getLsbD_setWidth]
    have h3 : 8 * k + b < 32 := by omega
    rcases Nat.lt_or_gt_of_ne h with h' | h'
    · have h4 : 8 * k + b < 8 * j := by omega
      simp [hb, h3, h4]
    · have h5 : ¬ (8 * k + b < 8 * j) := by omega
      have h6 : 8 ≤ 8 * k + b - 8 * j := by omega
      have h7 : 8 * k + b - 8 * j < 32 := by omega
      have h8 : (0xFF : Word).getLsbD (8 * k + b - 8 * j) = false := by
        generalize 8 * k + b - 8 * j = q at h6 h7
        have : ∀ q : Fin 32, 8 ≤ q.val → (0xFF : Word).getLsbD q = false := by decide
        exact this ⟨q, h7⟩ h6
      have h9 : v.getLsbD (8 * k + b - 8 * j) = false := BitVec.getLsbD_of_ge _ _ h6
      simp only [hb, h3, h5, h8, h9, Bool.and_false, Bool.not_false, Bool.and_true, Bool.or_false, decide_true]

theorem hostAccesses_append (xs ys : List Access) (s : State) : s.hostAccesses (xs ++ ys) = (s.hostAccesses xs).hostAccesses ys := by
  induction xs generalizing s with
  | nil => rfl
  | cons x xs ih => exact ih _

theorem hostAccesses_ibuf (bytes : List Byte) (a : Nat) {s : State} (hb : s.busy = false) (h : a + bytes.length ≤ s.params.capBytes) :
    s.hostAccesses (writeRun .ibuf a bytes) = { s with ibuf := s.ibuf.writeSeq a bytes } := by
  induction bytes generalizing a s with
  | nil => rfl
  | cons v vs ih =>
    simp only [List.length_cons] at h
    simp only [writeRun, State.hostAccesses, State.hostAccess]
    rw [hostWrite_idle hb]
    simp only [State.writeIdle]
    rw [if_pos (by omega), ih (s := { s with ibuf := s.ibuf.write a v }) (a + 1) hb (by simpa using (by omega : a + 1 + vs.length ≤ s.params.capBytes))]
    rfl

theorem hostAccesses_blk (bytes : List Byte) (a : Nat) {s : State} (hb : s.busy = false) (h : a + bytes.length ≤ s.blkSize) :
    s.hostAccesses (writeRun .blk a bytes) = { s with blk := s.blk.writeSeq a bytes } := by
  induction bytes generalizing a s with
  | nil => rfl
  | cons v vs ih =>
    simp only [List.length_cons] at h
    simp only [writeRun, State.hostAccesses, State.hostAccess]
    rw [hostWrite_idle hb]
    simp only [State.writeIdle]
    rw [if_pos (by omega), ih (s := { s with blk := s.blk.write a v }) (a + 1) hb (show a + 1 + vs.length ≤ s.blkSize by omega)]
    rfl

theorem word_ext {w w' : Word} (h : ∀ k, k < 4 → wordByte w k = wordByte w' k) : w = w' := by
  apply BitVec.eq_of_getLsbD_eq
  intro b hb
  have h1 := congrArg (fun x => BitVec.getLsbD x (b % 8)) (h (b / 8) (by omega))
  simp only [wordByte, BitVec.getLsbD_extractLsb'] at h1
  have h2 : 8 * (b / 8) + b % 8 = b := by omega
  have h3 : b % 8 < 8 := by omega
  simpa [h2, h3] using h1

theorem le32_eq (n : Nat) : le32 n = [wordByte (BitVec.ofNat 32 n) 0, wordByte (BitVec.ofNat 32 n) 1, wordByte (BitVec.ofNat 32 n) 2, wordByte (BitVec.ofNat 32 n) 3] := by
  have : ∀ k, k < 4 → BitVec.ofNat 8 (n / 256 ^ k) = wordByte (BitVec.ofNat 32 n) k := by
    intro k hk
    apply BitVec.eq_of_toNat_eq
    rw [wordByte_toNat, BitVec.toNat_ofNat, BitVec.toNat_ofNat]
    have : k = 0 ∨ k = 1 ∨ k = 2 ∨ k = 3 := by omega
    rcases this with rfl | rfl | rfl | rfl <;> omega
  simp only [le32]
  rw [show List.range 4 = [0, 1, 2, 3] from rfl]
  simp only [List.map_cons, List.map_nil]
  rw [this 0 (by omega), this 1 (by omega), this 2 (by omega), this 3 (by omega)]

theorem setWordByte_four (w w' : Word) : setWordByte (setWordByte (setWordByte (setWordByte w 0 (wordByte w' 0)) 1 (wordByte w' 1)) 2 (wordByte w' 2)) 3 (wordByte w' 3) = w' := by
  apply word_ext
  intro k hk
  have h : ∀ w j v, j < 4 → wordByte (setWordByte w j v) k = if k = j then v else wordByte w k := fun w j v hj =>
    setWordByte_spec w j k hj hk v
  simp only [h, Nat.reduceLT]
  have : k = 0 ∨ k = 1 ∨ k = 2 ∨ k = 3 := by omega
  rcases this with rfl | rfl | rfl | rfl <;> rfl

theorem hostAccesses_ilen (n : Nat) {s : State} (hb : s.busy = false) :
    s.hostAccesses (writeRun .reg 0x04 (le32 n)) = { s with ilen := BitVec.ofNat 32 n } := by
  rw [le32_eq]
  generalize BitVec.ofNat 32 n = w
  have e : ∀ (u : State) (j : Nat) (v : Byte), u.busy = false → j < 4 → u.hostAccess (.write .reg (0x04 + j) v) = { u with ilen := setWordByte u.ilen j v } := by
    intro u j v hu hj
    have : j = 0 ∨ j = 1 ∨ j = 2 ∨ j = 3 := by omega
    rw [State.hostAccess, hostWrite_idle hu]
    rcases this with rfl | rfl | rfl | rfl <;> rfl
  simp only [writeRun, State.hostAccesses]
  rw [show (4:Nat) = 4 + 0 from rfl, e s 0 _ hb (by omega)]
  rw [show (4:Nat) + 0 + 1 = 4 + 1 from rfl, e _ 1 _ (by exact hb) (by omega)]
  rw [show (4:Nat) + 1 + 1 = 4 + 2 from rfl, e _ 2 _ (by exact hb) (by omega)]
  rw [show (4:Nat) + 2 + 1 = 4 + 3 from rfl, e _ 3 _ (by exact hb) (by omega)]
  simp only [setWordByte_four]

theorem hostAccesses_nblk (n : Nat) {s : State} (hb : s.busy = false) :
    s.hostAccesses (writeRun .reg 0x0C (le32 n)) = { s with nblk := BitVec.ofNat 32 n } := by
  rw [le32_eq]
  generalize BitVec.ofNat 32 n = w
  have e : ∀ (u : State) (j : Nat) (v : Byte), u.busy = false → j < 4 → u.hostAccess (.write .reg (0x0C + j) v) = { u with nblk := setWordByte u.nblk j v } := by
    intro u j v hu hj
    have : j = 0 ∨ j = 1 ∨ j = 2 ∨ j = 3 := by omega
    rw [State.hostAccess, hostWrite_idle hu]
    rcases this with rfl | rfl | rfl | rfl <;> rfl
  simp only [writeRun, State.hostAccesses]
  rw [show (12:Nat) = 12 + 0 from rfl, e s 0 _ hb (by omega)]
  rw [show (12:Nat) + 0 + 1 = 12 + 1 from rfl, e _ 1 _ (by exact hb) (by omega)]
  rw [show (12:Nat) + 1 + 1 = 12 + 2 from rfl, e _ 2 _ (by exact hb) (by omega)]
  rw [show (12:Nat) + 2 + 1 = 12 + 3 from rfl, e _ 3 _ (by exact hb) (by omega)]
  simp only [setWordByte_four]

theorem hostAccesses_key_aux (l : List Byte) (j : Nat) {s : State} (hb : s.busy = false) (h : j + l.length ≤ 16) :
    s.hostAccesses (writeRun .reg (0x10 + j) l) = { s with key := blockOf fun i => if j ≤ i ∧ i < j + l.length then l.getD (i - j) 0 else byteOf s.key i } := by
  induction l generalizing j s with
  | nil =>
    simp only [writeRun, State.hostAccesses, List.length_nil]
    have : (blockOf fun i => if j ≤ i ∧ i < j + 0 then ([] : List Byte).getD (i - j) 0 else byteOf s.key i) = s.key := by
      refine block_ext fun i hi => ?_
      rw [byteOf_blockOf _ hi, if_neg (by omega)]
    rw [this]
  | cons v l ih =>
    simp only [List.length_cons] at h
    simp only [writeRun, State.hostAccesses, State.hostAccess]
    rw [hostWrite_idle hb]
    have e : State.writeIdle .reg (0x10 + j) v s = { s with key := setByteOf s.key j v } := by
      simp only [State.writeIdle, State.regWrite, show ¬(0x10 + j < 0x10) by omega, show 0x10 + j < 0x20 by omega,
        show ¬(0x10 + j = 0x00) by omega, show ¬(0x10 + j = 0x01) by omega, show ¬(0x10 + j < 0x04) by omega,
        show ¬(0x10 + j < 0x08) by omega, show ¬(0x10 + j < 0x0C) by omega, if_true, if_false, Nat.add_sub_cancel_left]
    rw [e, show 0x10 + j + 1 = 0x10 + (j + 1) by omega, ih (j + 1) (by exact hb) (by omega)]
    have : (blockOf fun i => if j + 1 ≤ i ∧ i < j + 1 + l.length then l.getD (i - (j + 1)) 0 else byteOf (setByteOf s.key j v) i)
        = blockOf fun i => if j ≤ i ∧ i < j + (v :: l).length then (v :: l).getD (i - j) 0 else byteOf s.key i := by
      refine block_ext fun i hi => ?_
      rw [byteOf_blockOf _ hi, byteOf_blockOf _ hi, byteOf_setByteOf _ _ _ hi]
      simp only [List.length_cons]
      by_cases h1 : i = j
      · subst h1
        rw [if_neg (by omega), if_pos rfl, if_pos (by omega)]; simp
      · rw [if_neg h1]
        by_cases h2 : j + 1 ≤ i ∧ i < j + 1 + l.length
        · rw [if_pos h2, if_pos (by omega)]
          obtain ⟨m, hm⟩ : ∃ m, i - j = m + 1 := ⟨i - j - 1, by omega⟩
          rw [hm, show i - (j + 1) = m by omega]; rfl
        · rw [if_neg h2, if_neg (by omega)]
    simp only [this]

theorem hostAccesses_key (k : Block) {s : State} (hb : s.busy = false) : s.hostAccesses (writeRun .reg 0x10 k.toList) = { s with key := k } := by
  have := hostAccesses_key_aux k.toList 0 hb (by simp)
  rw [show (0x10 + 0 : Nat) = 0x10 from rfl] at this
  rw [this]
  have e : (blockOf fun i => if 0 ≤ i ∧ i < 0 + k.toList.length then k.toList.getD (i - 0) 0 else byteOf s.key i) = k := by
    refine block_ext fun i hi => ?_
    rw [byteOf_blockOf _ hi, if_pos (by simp; omega), Nat.sub_zero, List.getD_eq_getElem?_getD, getElem?_toList _ hi]; rfl
  rw [e]

theorem readNumber_olen {s : State} (hb : s.busy = false) : (s.readNumber 0x08).2 = s.olen.toNat ∧ (s.readNumber 0x08).1 = { s with readData := (s.readNumber 0x08).1.readData } := by
  constructor
  · simp only [State.readNumber, State.readRun, leValue]
    have e : ∀ (u : State) (j : Nat), u.busy = false → j < 4 → (u.hostRead .reg (0x08 + j)).toNat = u.olen.toNat / 256 ^ j % 256 := by
      intro u j hu hj
      rw [hostRead_idle hu, ← wordByte_toNat]
      have : j = 0 ∨ j = 1 ∨ j = 2 ∨ j = 3 := by omega
      rcases this with rfl | rfl | rfl | rfl <;> rfl
    have e0 := e s 0 hb (by omega)
    have e1 := e (s.hostAccess (.read .reg 8)) 1 hb (by omega)
    have e2 := e ((s.hostAccess (.read .reg 8)).hostAccess (.read .reg (8+1))) 2 hb (by omega)
    have e3 := e (((s.hostAccess (.read .reg 8)).hostAccess (.read .reg (8+1))).hostAccess (.read .reg (8+1+1))) 3 hb (by omega)
    simp only [Nat.add_zero] at e0
    rw [show (8 : Nat) + 1 + 1 + 1 = 8 + 3 from rfl, e3, show (8:Nat) + 1 + 1 = 8 + 2 from rfl]
    rw [show (8 : Nat) + 1 + 1 = 8 + 2 from rfl] at e2
    rw [e2, e1, e0]
    have : ∀ u x, (State.hostAccess (.read .reg x) u).olen = u.olen := fun _ _ => rfl
    simp only [this]
    have := s.olen.isLt
    omega
  · rfl

/-- `s` with other recorded reads. -/
def State.withReadData (l : List Byte) (s : State) : State := { s with readData := l }

theorem copyLoop_eq (k j : Nat) {s : State} (hb : s.busy = false) (ho : s.olen.toNat = s.obuf.length) (h : j + k ≤ s.obuf.length) (hc : s.obuf.length ≤ s.params.capBytes) :
    ∃ l, State.copyLoop k j s = State.withReadData l { s with ibuf := s.ibuf.writeSeq j ((s.obuf.drop j).take k) } := by
  induction k generalizing j s with
  | zero => exact ⟨s.readData, by simp [State.copyLoop, Memory.writeSeq, State.withReadData]⟩
  | succ k ih =>
    simp only [State.copyLoop]
    have hr : s.hostRead .obuf j = s.obuf.getD j 0 := by
      rw [hostRead_idle hb]; simp only [State.readIdle]; rw [if_pos (by omega)]
    let u := s.hostAccess (.read .obuf j)
    have hu : u.busy = false := hb
    have hw : u.hostAccess (.write .ibuf j (s.hostRead .obuf j)) = { u with ibuf := u.ibuf.write j (s.obuf.getD j 0) } := by
      rw [State.hostAccess, hostWrite_idle hu, hr]; simp only [State.writeIdle]; rw [if_pos (show j < u.params.capBytes from (show j < s.params.capBytes by omega))]
    rw [hw]
    obtain ⟨l, hl⟩ := ih (s := { u with ibuf := u.ibuf.write j (s.obuf.getD j 0) }) (j + 1) hb ho (show j + 1 + k ≤ s.obuf.length by omega) hc
    refine ⟨l, hl.trans ?_⟩
    have : (s.obuf.drop j).take (k + 1) = s.obuf.getD j 0 :: (s.obuf.drop (j + 1)).take k := by
      have hj : j < s.obuf.length := by omega
      rw [List.drop_eq_getElem_cons hj, List.take_succ_cons, List.getD_eq_getElem _ _ hj]
    rw [this]
    rfl

theorem copyOI_eq {s : State} (hb : s.busy = false) (ho : s.olen.toNat = s.obuf.length) (hc : s.obuf.length ≤ s.params.capBytes) :
    ∃ l, s.runStmt .copyOI = some (State.withReadData l { s with ibuf := s.ibuf.writeSeq 0 s.obuf, ilen := s.olen }, .done) := by
  obtain ⟨h1, h2⟩ := readNumber_olen hb
  simp only [State.runStmt, h1]
  rw [h2]
  obtain ⟨l, hl⟩ := copyLoop_eq (s := { s with readData := (s.readNumber 0x08).1.readData }) s.olen.toNat 0 hb ho (by simp [ho]) hc
  rw [hl]
  refine ⟨l, ?_⟩
  rw [hostAccesses_ilen _ (by exact hb)]
  have e : BitVec.ofNat 32 s.olen.toNat = s.olen := by simp
  have e2 : (s.obuf.drop 0).take s.olen.toNat = s.obuf := by rw [List.drop_zero, ho, List.take_length]
  simp only [State.withReadData, e, e2]

theorem run_eq {s t : State} {i : Instr} (hb : s.busy = false) (he : exec i (s.startCommand (opcodeOf i)) = .next t) (ht : t.busy = false) :
    ∃ l, s.runStmt (.run i) = some (State.withReadData l t, .byte (t.hostRead .reg 0x02)) := by
  refine ⟨t.readData ++ [t.hostRead .reg 0x02], ?_⟩
  simp only [State.runStmt, State.waitEnd, hostWrite_cmd hb]
  have hc : (s.startCommand (opcodeOf i)).command = some i := by rw [State.command_eq]; exact decodeByte_opcodeOf i
  rw [runCommand_check rfl hc, he]
  simp [ht]
  rfl

theorem loadI_eq {s : State} (x : List Byte) (hb : s.busy = false) (h : x.length ≤ s.params.capBytes) :
    s.runStmt (.loadI x) = some ({ s with ibuf := s.ibuf.writeSeq 0 x, ilen := BitVec.ofNat 32 x.length }, .done) := by
  simp only [State.runStmt, expandStmt, Option.map_some]
  rw [hostAccesses_append, hostAccesses_ibuf _ _ hb (by omega), hostAccesses_ilen _ (by exact hb)]

theorem loadK_eq {s : State} (k : Block) (hb : s.busy = false) : s.runStmt (.loadK k.toList) = some ({ s with key := k }, .done) := by
  simp only [State.runStmt, expandStmt, Option.map_some]
  rw [hostAccesses_key _ hb]

theorem readSeq_writeSeq {m : Memory} (hm : m.wf = true) (x : List Byte) : (m.writeSeq 0 x).readSeq 0 x.length = x := by
  apply List.ext_getElem?
  intro i
  rw [Memory.getElem?_readSeq]
  split
  · rename_i h
    rw [Memory.read_writeSeq hm, if_pos (by omega), Nat.zero_add, Nat.sub_zero, List.getElem?_eq_getElem h]; rfl
  · rename_i h; rw [List.getElem?_eq_none (by omega)]

theorem runStmts_cons {s t : State} {st : Stmt} {r : StmtResult} {rest : List Stmt} (h : s.runStmt st = some (t, r)) :
    s.runStmts (st :: rest) = (State.runStmts rest t).map fun q => (q.1, r :: q.2) := by
  simp [State.runStmts, h]

theorem runStmts_cons_some {s t u : State} {st : Stmt} {r : StmtResult} {rest : List Stmt} {rs} (h : s.runStmt st = some (t, r)) (h2 : t.runStmts rest = some (u, rs)) :
    s.runStmts (st :: rest) = some (u, r :: rs) := by rw [runStmts_cons h, h2]; rfl

theorem ended_busy (s : State) (st : Byte) (h : st.getLsbD 0 = false) : (s.endedWith st).busy = false := h

end Sys2Proof.Machine
end

