-- ==== Sys2Proof/Laws/Invariant.lean ====
section
/-! SUPPORT. What the invariant gives in each phase, and how a state at rest meets it. -/

namespace Sys2Proof.Machine

/-- The invariant for a state whose latched command is known. -/
theorem State.Inv.phaseOk_of_command {s : State} {i : Instr} (h : s.Inv) (hc : s.command = some i) : s.phaseOk i := by
  have := h.sequencer
  rw [hc] at this
  exact this

/-- In `IDLE` and in `CHECK` the hidden registers are zero (R46). -/
theorem State.Inv.hidden_of_rest {s : State} (h : s.Inv) (hp : s.phase = .idle ∨ s.phase = .check) : s.hiddenClear := by
  cases hc : s.command with
  | none =>
    have := h.sequencer
    rw [hc] at this
    exact this.2
  | some i =>
    have := h.phaseOk_of_command hc
    rcases hp with hp | hp <;> simpa only [State.phaseOk, hp] using this

/-- In `IDLE` and in `CHECK` the sequencer's part of the invariant is that the hidden registers are zero. -/
theorem State.inv_of_rest {s : State} (hp : s.phase = .idle ∨ s.phase = .check) (params_wf : s.params.wf = true)
    (ibuf_wf : s.ibuf.wf = true ∧ s.ibuf.below s.params.capBytes = true)
    (blk_wf : s.blk.wf = true ∧ s.blk.below s.blkSize = true)
    (olen_eq : s.olen.toNat = s.obuf.length ∧ s.obuf.length ≤ s.params.capBytes)
    (ctrl_reserved : ctrlBits s.ctrl = s.ctrl) (status_legal : s.status ∈ statusValues)
    (busy_iff : s.busy = true ↔ s.phase ≠ .idle) (hidden : s.hiddenClear) : s.Inv := by
  refine ⟨params_wf, ibuf_wf, blk_wf, olen_eq, ctrl_reserved, status_legal, busy_iff, ?_⟩
  cases s.command with
  | none => exact ⟨hp, hidden⟩
  | some i => rcases hp with hp | hp <;> simpa only [State.phaseOk, hp] using hidden

/-- The invariant of a state that waits or runs inside command `i`. -/
theorem State.inv_of_running {s : State} {i : Instr} (hc : s.command = some i) (params_wf : s.params.wf = true)
    (ibuf_wf : s.ibuf.wf = true ∧ s.ibuf.below s.params.capBytes = true)
    (blk_wf : s.blk.wf = true ∧ s.blk.below s.blkSize = true)
    (olen_eq : s.olen.toNat = s.obuf.length ∧ s.obuf.length ≤ s.params.capBytes)
    (ctrl_reserved : ctrlBits s.ctrl = s.ctrl) (status_legal : s.status ∈ statusValues)
    (busy_iff : s.busy = true ↔ s.phase ≠ .idle) (running : s.phaseOk i) : s.Inv := by
  refine ⟨params_wf, ibuf_wf, blk_wf, olen_eq, ctrl_reserved, status_legal, busy_iff, ?_⟩
  rw [hc]
  exact running

end Sys2Proof.Machine
end

