-- ==== Sys2Proof/Laws/InvariantSteps.lean ====
section
/-! SUPPORT. Each operation, each sequencer step and each host access keeps the invariant. -/

namespace Sys2Proof.Machine

/-- The part of the invariant that no phase touches. -/
structure State.Base (s : State) : Prop where
  params_wf : s.params.wf = true
  ibuf_wf : s.ibuf.wf = true ∧ s.ibuf.below s.params.capBytes = true
  blk_wf : s.blk.wf = true ∧ s.blk.below s.blkSize = true
  olen_eq : s.olen.toNat = s.obuf.length ∧ s.obuf.length ≤ s.params.capBytes
  ctrl_reserved : ctrlBits s.ctrl = s.ctrl

theorem State.Inv.base {s : State} (h : s.Inv) : s.Base := ⟨h.params_wf, h.ibuf_wf, h.blk_wf, h.olen_eq, h.ctrl_reserved⟩

theorem State.Base.cap_lt {s : State} (h : s.Base) : s.params.capBytes < 2 ^ 32 ∧ 64 ≤ s.params.capBytes := by
  have := h.params_wf
  simp only [Params.wf, Bool.and_eq_true, decide_eq_true_eq] at this
  exact ⟨this.2, this.1⟩

theorem State.Base.congr {s t : State} (h : s.Base) (h1 : t.params = s.params) (h2 : t.ibuf = s.ibuf) (h3 : t.blk = s.blk)
    (h4 : t.olen = s.olen) (h5 : t.obuf = s.obuf) (h6 : t.ctrl = s.ctrl) : t.Base := by
  obtain ⟨a, b, c, d, e⟩ := h
  refine ⟨by rw [h1]; exact a, by rw [h1, h2]; exact b, ?_, by rw [h1, h4, h5]; exact d, by rw [h6]; exact e⟩
  unfold State.blkSize
  rw [h1, h3]
  exact c

theorem State.Base.setObuf {s : State} (h : s.Base) {w : List Byte} (hw : w.length ≤ s.params.capBytes) : (s.setObuf w).Base := by
  have := h.cap_lt
  refine ⟨h.params_wf, h.ibuf_wf, h.blk_wf, ⟨?_, hw⟩, h.ctrl_reserved⟩
  simp only [State.setObuf_olen, State.setObuf_obuf]
  exact toNat_ofNat_lt (by omega)

theorem State.Base.clearDest {s : State} (h : s.Base) (d : Dest) : (s.clearDest d).Base := by
  cases d with
  | obuf => exact ⟨h.params_wf, h.ibuf_wf, h.blk_wf, ⟨rfl, Nat.zero_le _⟩, h.ctrl_reserved⟩
  | nblk => exact h.congr rfl rfl rfl rfl rfl rfl
  | xc => exact h
  | none => exact h

theorem inv_endCommand {s : State} (h : s.Base) {st : Byte} (hs : st ∈ statusValues) (hb : st.getLsbD 0 = false) : (s.endCommand st).Inv := by
  refine ⟨h.params_wf, h.ibuf_wf, h.blk_wf, h.olen_eq, h.ctrl_reserved, hs, ?_, ?_⟩
  · have hb' : st[0] = false := by simpa using hb
    simp [State.busy, hb']
  · split
    · exact ⟨rfl, rfl, rfl, rfl, rfl, rfl, rfl⟩
    · exact ⟨.inl rfl, rfl, rfl, rfl, rfl, rfl, rfl, rfl⟩

theorem inv_raise {s : State} (h : s.Base) (d : Dest) (c : ErrCode) : (s.raise d c).Inv := by
  refine inv_endCommand (h.clearDest d) ?_ ?_ <;> cases c <;> decide

theorem inv_finishOk {s : State} (h : s.Base) (b : Bool) : (s.finishOk b).Inv := by
  refine inv_endCommand h ?_ ?_ <;> cases b <;> decide

theorem inv_publish {s : State} (h : s.Base) {w : List Byte} (hw : w.length ≤ s.params.capBytes) : (s.publish w).Inv :=
  inv_finishOk (h.setObuf hw) false

theorem inv_finishUnpad {s : State} (h : s.Base) {w : List Byte} (hw : w.length ≤ s.params.capBytes) : (s.finishUnpad w).Inv := by
  rcases s.finishUnpad_cases w with ⟨-, e⟩ | ⟨-, -, e⟩ | ⟨-, -, e⟩ <;> rw [e]
  · exact inv_endCommand (h.setObuf (by simp; omega)) (by decide) (by decide)
  · exact inv_endCommand (h.clearDest _) (by decide) (by decide)
  · exact inv_endCommand (h.setObuf hw) (by decide) (by decide)

theorem State.Base.storeBlocks {s : State} (h : s.Base) {bs : List Block} (hb : 16 * bs.length ≤ s.blkSize) : (s.storeBlocks bs).Base := by
  refine ⟨h.params_wf, h.ibuf_wf, ⟨?_, ?_⟩, h.olen_eq, h.ctrl_reserved⟩
  · exact Memory.wf_writeBlocks h.blk_wf.1 _ _
  · exact Memory.below_writeBlocks h.blk_wf.2 (by omega)

theorem inv_running {s : State} {i : Instr} (h : s.Base) (hst : s.status = 0x01) (hp : s.phase ≠ .idle) (hc : s.command = some i)
    (hph : s.phaseOk i) : s.Inv := by
  refine ⟨h.params_wf, h.ibuf_wf, h.blk_wf, h.olen_eq, h.ctrl_reserved, by rw [hst]; decide, ?_, by rw [hc]; exact hph⟩
  simp [State.busy, hst, hp]

theorem State.Inv.status_running {s : State} (h : s.Inv) (hp : s.phase ≠ .idle) : s.status = 0x01 := by
  have h1 := h.busy_iff.2 hp
  have h2 := h.status_legal
  unfold State.busy at h1
  revert h1 h2
  generalize s.status = st
  revert st
  decide

theorem resultLen_eq (i : Instr) (s : State) : (isMode i = true) → lengthOk i s.inLen = true → s.resultLen i = outPrefix i + 16 * s.blockCount i := by
  cases i <;> simp [isMode, lengthOk, State.resultLen, outPrefix, State.blockCount, isEncrypt, prefixLen] <;> omega

theorem inv_checkStep {s : State} {i : Instr} (h : s.Inv) (hp : s.phase = .check) (hc : s.command = some i) : (checkStep i s).Inv := by
  have hq : s.hiddenClear := by
    have := h.sequencer
    rw [hc] at this
    simpa [State.phaseOk, hp] using this
  have hst := h.status_running (by rw [hp]; decide)
  have hb := h.base
  have hcap := hb.cap_lt
  rcases checkStep_cases i s with e | ⟨-, e⟩ | ⟨hr, hl, hL, e⟩
  · rw [e]; exact inv_raise hb _ _
  · rw [e]; exact inv_raise hb _ _
  · rw [e]
    have hb' := hb.clearDest (destOf i)
    obtain ⟨q1, q2, q3, q4, q5, q6, q7⟩ := hq
    have q8 : s.asked = none := State.asked_eq_none.2 q7
    have hnk : ∀ {N : Nat}, 16 * N ≤ s.params.capBytes → (BitVec.ofNat 32 N).toNat = N := fun hN => toNat_ofNat_lt (by omega)
    cases i
    · exact inv_publish hb' (by
        simp only [length_padBytes, State.clearDest_params, length_input, State.clearDest_inLen]
        exact hL)
    · refine inv_running (i := .unpad) (hb'.congr rfl rfl rfl rfl rfl rfl) hst (by simp [checkDo]) ((State.command_congr rfl).trans hc) ?_
      refine ⟨.inr rfl, ⟨hr, hl, hL⟩, ⟨rfl, rfl⟩, ?_, q2.trans q1.symm, q7⟩
      show (s.clearDest _).input.length = _
      rw [length_input]; rfl
    · refine inv_finishOk (hb'.storeBlocks ?_) _
      simp only [List.length_map, List.length_range, State.blockCount, State.clearDest_inLen]
      have : s.resultLen .group = s.inLen := rfl
      have : (s.clearDest (destOf .group)).blkSize = 16 * (s.params.capBytes / 16) := rfl
      omega
    · exact inv_publish hb' (by rw [Memory.length_readSeq]; exact hL)
    · exact inv_finishOk (s := { s with xc := xor16 s.xa s.xb }) (hb.congr rfl rfl rfl rfl rfl rfl) false
    · refine inv_running (i := .ecbEnc) (hb'.congr rfl rfl rfl rfl rfl rfl) hst (by simp [checkDo]) ((State.command_congr rfl).trans hc) ?_
      have hn : (BitVec.ofNat 32 (s.blockCount .ecbEnc)).toNat = s.blockCount .ecbEnc := hnk (by simpa [State.resultLen] using hL)
      refine ⟨rfl, ⟨hr, hl, hL⟩, ⟨rfl, rfl⟩, hn, ?_, rfl, .inl q8, by simp [prefixLen]⟩
      show (0 : Word).toNat < (BitVec.ofNat 32 (s.blockCount .ecbEnc)).toNat
      rw [hn]
      exact Nat.succ_pos _
    · have hn : (BitVec.ofNat 32 (s.blockCount .ecbDec)).toNat = s.blockCount .ecbDec := hnk (by
        have : s.resultLen .ecbDec = s.inLen := rfl
        simp only [State.blockCount]; omega)
      by_cases hz : 0 < s.blockCount .ecbDec
      · have hph : (checkDo .ecbDec (s.clearDest (destOf .ecbDec))).phase = .block := if_pos hz
        refine inv_running (i := .ecbDec) (hb'.congr rfl rfl rfl rfl rfl rfl) hst (by rw [hph]; decide) ((State.command_congr rfl).trans hc) ?_
        simp only [State.phaseOk, hph]
        exact ⟨rfl, ⟨hr, hl, hL⟩, ⟨rfl, rfl⟩, hn, hn.symm ▸ hz, rfl, .inl q8, by simp [prefixLen]⟩
      · have hph : (checkDo .ecbDec (s.clearDest (destOf .ecbDec))).phase = .final := if_neg hz
        have hz' : s.blockCount .ecbDec = 0 := by omega
        refine inv_running (i := .ecbDec) (hb'.congr rfl rfl rfl rfl rfl rfl) hst (by rw [hph]; decide) ((State.command_congr rfl).trans hc) ?_
        simp only [State.phaseOk, hph]
        refine ⟨.inl rfl, ⟨hr, hl, hL⟩, ⟨rfl, rfl⟩, ?_, ?_, q7⟩
        · show 0 = s.resultLen .ecbDec
          rw [resultLen_eq _ _ rfl hl, hz']; rfl
        · show (0 : Word) = BitVec.ofNat 32 (s.blockCount .ecbDec)
          rw [hz']; rfl
    · refine inv_running (i := .cbcEnc) (hb'.congr rfl rfl rfl rfl rfl rfl) hst (by simp [checkDo]) ((State.command_congr rfl).trans hc) ?_
      have hn : (BitVec.ofNat 32 (s.blockCount .cbcEnc)).toNat = s.blockCount .cbcEnc := hnk (by
        have : s.resultLen .cbcEnc = 16 + 16 * s.blockCount .cbcEnc := rfl
        omega)
      exact ⟨rfl, ⟨hr, hl, hL⟩, ⟨rfl, rfl⟩, hn, q2, q6, .inl q8⟩
    · have hn : (BitVec.ofNat 32 (s.blockCount .cbcDec)).toNat = s.blockCount .cbcDec := hnk (by
        have : s.resultLen .cbcDec = s.inLen - 16 := rfl
        simp only [State.blockCount]; omega)
      by_cases hz : 0 < s.blockCount .cbcDec
      · have hph : (checkDo .cbcDec (s.clearDest (destOf .cbcDec))).phase = .block := if_pos hz
        refine inv_running (i := .cbcDec) (hb'.congr rfl rfl rfl rfl rfl rfl) hst (by rw [hph]; decide) ((State.command_congr rfl).trans hc) ?_
        simp only [State.phaseOk, hph]
        exact ⟨rfl, ⟨hr, hl, hL⟩, ⟨rfl, rfl⟩, hn, hn.symm ▸ hz, rfl, .inl q8, by simp [prefixLen]⟩
      · have hph : (checkDo .cbcDec (s.clearDest (destOf .cbcDec))).phase = .final := if_neg hz
        have hz' : s.blockCount .cbcDec = 0 := by omega
        refine inv_running (i := .cbcDec) (hb'.congr rfl rfl rfl rfl rfl rfl) hst (by rw [hph]; decide) ((State.command_congr rfl).trans hc) ?_
        simp only [State.phaseOk, hph]
        refine ⟨.inl rfl, ⟨hr, hl, hL⟩, ⟨rfl, rfl⟩, ?_, ?_, q7⟩
        · show 0 = s.resultLen .cbcDec
          rw [resultLen_eq _ _ rfl hl, hz']; rfl
        · show (0 : Word) = BitVec.ofNat 32 (s.blockCount .cbcDec)
          rw [hz']; rfl
    · refine inv_running (i := .ctrEnc) (hb'.congr rfl rfl rfl rfl rfl rfl) hst (by simp [checkDo]) ((State.command_congr rfl).trans hc) ?_
      have hn : (BitVec.ofNat 32 (s.blockCount .ctrEnc)).toNat = s.blockCount .ctrEnc := hnk (by
        have : s.resultLen .ctrEnc = 8 + 16 * s.blockCount .ctrEnc := rfl
        omega)
      exact ⟨rfl, ⟨hr, hl, hL⟩, ⟨rfl, rfl⟩, hn, q2, q6, .inl q8⟩
    · have hn : (BitVec.ofNat 32 (s.blockCount .ctrDec)).toNat = s.blockCount .ctrDec := hnk (by
        have : s.resultLen .ctrDec = s.inLen - 8 := rfl
        simp only [State.blockCount]; omega)
      by_cases hz : 0 < s.blockCount .ctrDec
      · have hph : (checkDo .ctrDec (s.clearDest (destOf .ctrDec))).phase = .block := if_pos hz
        refine inv_running (i := .ctrDec) (hb'.congr rfl rfl rfl rfl rfl rfl) hst (by rw [hph]; decide) ((State.command_congr rfl).trans hc) ?_
        simp only [State.phaseOk, hph]
        exact ⟨rfl, ⟨hr, hl, hL⟩, ⟨rfl, rfl⟩, hn, hn.symm ▸ hz, rfl, .inl q8, fun _ => rfl⟩
      · have hph : (checkDo .ctrDec (s.clearDest (destOf .ctrDec))).phase = .final := if_neg hz
        have hz' : s.blockCount .ctrDec = 0 := by omega
        refine inv_running (i := .ctrDec) (hb'.congr rfl rfl rfl rfl rfl rfl) hst (by rw [hph]; decide) ((State.command_congr rfl).trans hc) ?_
        simp only [State.phaseOk, hph]
        refine ⟨.inl rfl, ⟨hr, hl, hL⟩, ⟨rfl, rfl⟩, ?_, ?_, q7⟩
        · show 0 = s.resultLen .ctrDec
          rw [resultLen_eq _ _ rfl hl, hz']; rfl
        · show (0 : Word) = BitVec.ofNat 32 (s.blockCount .ctrDec)
          rw [hz']; rfl

theorem inv_idle {s : State} (h : s.Inv) (hp : s.phase = .idle) : s.busy = false ∧ s.outstanding = none := by
  constructor
  · have := h.busy_iff
    cases hb : s.busy
    · rfl
    · exact absurd hp (this.1 hb)
  · have := h.sequencer
    cases hc : s.command with
    | none => rw [hc] at this; exact this.2.2.2.2.2.2.2
    | some i => rw [hc] at this; simp only [State.phaseOk, hp] at this; exact this.2.2.2.2.2.2

theorem prefixLen_random (i : Instr) (h : drawsRandom i = true) : (i = .cbcEnc ∧ prefixLen i = 16) ∨ (i = .ctrEnc ∧ prefixLen i = 8) := by
  cases i <;> simp_all [drawsRandom, prefixLen]

theorem sendOnce_base {s : State} (h : s.Base) (r : PortRequest) : (s.sendOnce r).Base := by
  unfold State.sendOnce; split
  · exact h
  · exact h.congr rfl rfl rfl rfl rfl rfl

theorem outPrefix_rand {i : Instr} (h : drawsRandom i = true) : outPrefix i = prefixLen i := by
  cases i <;> simp_all [drawsRandom, outPrefix, isEncrypt, prefixLen]

theorem inv_randomStep {s t : State} {i : Instr} (h : s.Inv) (hp : s.phase = .rand) (hc : s.command = some i) (hs : randomStep i s = .next t) : t.Inv := by
  have hst := h.status_running (by rw [hp]; decide)
  have hb := h.base
  have hq := h.sequencer
  rw [hc] at hq
  simp only [State.phaseOk, hp] at hq
  obtain ⟨hd, hck, ho, hn, hi, hw, hout⟩ := hq
  have hbl : 0 < s.blockCount i := by cases i <;> simp_all [drawsRandom, State.blockCount]
  -- facts on sendOnce
  have hsame : ∀ r, (s.sendOnce r).Base ∧ (s.sendOnce r).status = 0x01 ∧ (s.sendOnce r).phase = .rand ∧ (s.sendOnce r).command = some i ∧
      (s.sendOnce r).checksPass i ∧ (s.sendOnce r).outputClear ∧ (s.sendOnce r).n.toNat = (s.sendOnce r).blockCount i ∧ (s.sendOnce r).blockCount i = s.blockCount i ∧
      (s.sendOnce r).idx = 0 ∧ (s.sendOnce r).work = [] := by
    intro r
    rcases hout with ho' | ho'
    · rw [State.sendOnce_unasked ho']
      exact ⟨hb.congr rfl rfl rfl rfl rfl rfl, hst, hp, (State.command_congr rfl).trans hc, hck, ho, hn, rfl, hi, hw⟩
    · rw [State.sendOnce_asked ho']
      exact ⟨hb, hst, hp, hc, hck, ho, hn, rfl, hi, hw⟩
  have hso : (s.sendOnce (.random (prefixLen i))).asked = some (.random (prefixLen i)) := by
    rcases hout with ho' | ho'
    · rw [State.sendOnce_unasked ho']; rfl
    · rw [State.sendOnce_asked ho']; exact ho'
  rcases prefixLen_random i hd with ⟨rfl, hpl⟩ | ⟨rfl, hpl⟩
  · rw [hpl] at hso
    obtain ⟨a1, a2, a3, a4, a5, a6, a7, a8, a9, a10⟩ := hsame (.random 16)
    simp only [randomStep] at hs
    generalize hu : s.sendOnce (.random 16) = u at *
    split at hs
    · split at hs
      · cases hs; exact inv_raise (s := u.drawTaken) (a1.congr rfl rfl rfl rfl rfl rfl) _ _
      · cases hs
        refine inv_running (i := .cbcEnc) (a1.congr rfl rfl rfl rfl rfl rfl) a2 (by simp) ((State.command_congr rfl).trans a4) ?_
        refine ⟨rfl, a5, a6, a7, ?_, ?_, .inl rfl, by simp [prefixLen]⟩
        · show (0 : Word).toNat < u.n.toNat
          rw [a7, a8]; exact hbl
        · simp [outPrefix, isEncrypt, prefixLen]
    · cases hs
      refine inv_running (i := .cbcEnc) a1 a2 (by rw [a3]; decide) a4 ?_
      simp only [State.phaseOk, a3]
      exact ⟨rfl, a5, a6, a7, a9, a10, .inr hso⟩
  · rw [hpl] at hso
    obtain ⟨a1, a2, a3, a4, a5, a6, a7, a8, a9, a10⟩ := hsame (.random 8)
    simp only [randomStep] at hs
    generalize hu : s.sendOnce (.random 8) = u at *
    split at hs
    · split at hs
      · cases hs; exact inv_raise (s := u.drawTaken) (a1.congr rfl rfl rfl rfl rfl rfl) _ _
      · cases hs
        refine inv_running (i := .ctrEnc) (a1.congr rfl rfl rfl rfl rfl rfl) a2 (by simp) ((State.command_congr rfl).trans a4) ?_
        refine ⟨rfl, a5, a6, a7, ?_, ?_, .inl rfl, fun _ => rfl⟩
        · show (0 : Word).toNat < u.n.toNat
          rw [a7, a8]; exact hbl
        · simp [outPrefix, isEncrypt, prefixLen]
    · cases hs
      refine inv_running (i := .ctrEnc) a1 a2 (by rw [a3]; decide) a4 ?_
      simp only [State.phaseOk, a3]
      exact ⟨rfl, a5, a6, a7, a9, a10, .inr hso⟩

theorem blockRequest_isMode {i : Instr} {s : State} {q} (h : blockRequest i s = some q) : isMode i = true := by
  cases i <;> simp_all [blockRequest, isMode]

theorem blockTake_work (i : Instr) (hm : isMode i = true) (t a : Block) (u : State) : (blockTake i t a u).work.length = u.work.length + 16 := by
  cases i <;> simp_all [isMode, blockTake]

theorem inv_blockStep {s t : State} {i : Instr} (h : s.Inv) (hp : s.phase = .block) (hc : s.command = some i) (hs : blockStep i s = .next t) : t.Inv := by
  have hst := h.status_running (by rw [hp]; decide)
  have hb := h.base
  have hq := h.sequencer
  rw [hc] at hq
  simp only [State.phaseOk, hp] at hq
  obtain ⟨hm, hck, ho, hn, hi, hw, hout, hcnt⟩ := hq
  unfold blockStep at hs
  cases hr : blockRequest i s with
  | none => rw [hr] at hs; cases hs
  | some q =>
    obtain ⟨b, op, x⟩ := q
    rw [hr] at hs
    simp only [hi, if_true] at hs
    have hask : s.blockAsked i = some (.cipher op x s.key) := by simp [State.blockAsked, hr]
    rw [hask] at hout
    have hfin : ∀ u : State, u.Base → u.status = 0x01 → u.phase = .block → u.command = some i → u.checksPass i → u.outputClear →
        u.n.toNat = u.blockCount i → u.idx.toNat < u.n.toNat → u.work.length = outPrefix i + 16 * u.idx.toNat → (prefixLen i = 8 → u.cnt.toNat = u.idx.toNat) →
        ∀ a, (blockAdvance (blockTake i b a u)).Inv := by
      intro u c1 c2 c3 c4 c5 c6 c7 c8 c9 c10 a
      have hidx : (u.idx + 1).toNat = u.idx.toNat + 1 := by
        have := u.n.isLt
        rw [BitVec.toNat_add, Nat.mod_eq_of_lt] <;> simp <;> omega
      have hbase : (blockAdvance (blockTake i b a u)).Base := by
        cases i <;> exact c1.congr rfl rfl rfl rfl rfl rfl
      have hcom : (blockAdvance (blockTake i b a u)).command = some i := by
        rw [← c4]; cases i <;> exact State.command_congr rfl
      have hst' : (blockAdvance (blockTake i b a u)).status = 0x01 := by
        rw [← c2]; cases i <;> rfl
      have hph' : (blockAdvance (blockTake i b a u)).phase = if u.idx + 1 = u.n then .final else .block := by
        cases i <;> rfl
      have hn' : (blockAdvance (blockTake i b a u)).n = u.n := by cases i <;> rfl
      have hi' : (blockAdvance (blockTake i b a u)).idx = u.idx + 1 := by cases i <;> rfl
      have hck' : (blockAdvance (blockTake i b a u)).checksPass i := by cases i <;> exact c5
      have hbc' : (blockAdvance (blockTake i b a u)).blockCount i = u.blockCount i := by cases i <;> rfl
      have hrl' : (blockAdvance (blockTake i b a u)).resultLen i = u.resultLen i := by cases i <;> rfl
      have ho' : (blockAdvance (blockTake i b a u)).outputClear := by cases i <;> exact c6
      have hw' : (blockAdvance (blockTake i b a u)).work.length = u.work.length + 16 := blockTake_work i hm b a u
      have hcnt' : prefixLen i = 8 → (blockAdvance (blockTake i b a u)).cnt.toNat = u.idx.toNat + 1 := by
        intro h8
        have h10 := c10 h8
        have hlt := u.n.isLt
        have : (blockAdvance (blockTake i b a u)).cnt = u.cnt + 1 := by
          cases i <;> first | rfl | (simp [prefixLen] at h8)
        rw [this, BitVec.toNat_add, Nat.mod_eq_of_lt] <;> simp <;> omega
      refine inv_running (i := i) hbase hst' (by rw [hph']; split <;> decide) hcom ?_
      unfold State.phaseOk
      rw [hph']
      by_cases he : u.idx + 1 = u.n
      · rw [if_pos he]
        refine ⟨.inl hm, hck', ho', ?_, ?_, by cases i <;> rfl⟩
        · rw [hw', hrl', resultLen_eq i u hm c5.2.1, c9]
          have : (u.idx + 1).toNat = u.n.toNat := by rw [he]
          omega
        · rw [hi', hn', he]
      · rw [if_neg he]
        refine ⟨hm, hck', ho', ?_, ?_, ?_, .inl (by cases i <;> rfl), ?_⟩
        · rw [hn', hbc', c7]
        · rw [hi', hn', hidx]
          have : (u.idx + 1).toNat ≠ u.n.toNat := fun e => he (BitVec.eq_of_toNat_eq e)
          omega
        · rw [hw', hi', hidx, c9]; omega
        · intro h8
          rw [hcnt' h8, hi', hidx]
    rcases hout with ho' | ho'
    · rw [State.sendOnce_unasked ho'] at hs
      split at hs
      · cases hs
        exact hfin (s.send (.cipher op x s.key)) (hb.congr rfl rfl rfl rfl rfl rfl) hst hp ((State.command_congr rfl).trans hc) hck ho hn hi hw hcnt _
      · cases hs
        refine inv_running (i := i) (hb.congr rfl rfl rfl rfl rfl rfl) hst (by rw [State.send_phase, hp]; decide) ((State.command_congr rfl).trans hc) ?_
        unfold State.phaseOk
        rw [State.send_phase, hp]
        refine ⟨hm, hck, ho, hn, hi, hw, .inr ?_, hcnt⟩
        have : State.blockAsked i (s.send (.cipher op x s.key)) = s.blockAsked i := by cases i <;> rfl
        rw [this, hask]; rfl
    · rw [State.sendOnce_asked ho'] at hs
      split at hs
      · cases hs
        exact hfin _ hb hst hp hc hck ho hn hi hw hcnt _
      · cases hs
        exact h

theorem inv_finalStep {s t : State} {i : Instr} (h : s.Inv) (hp : s.phase = .final) (hc : s.command = some i) (hs : finalStep i s = .next t) : t.Inv := by
  have hb := h.base
  have hq := h.sequencer
  rw [hc] at hq
  simp only [State.phaseOk, hp] at hq
  obtain ⟨hm, hck, ho, hw, -, -⟩ := hq
  have hl : s.work.length ≤ s.params.capBytes := by rw [hw]; exact hck.2.2
  cases i <;> simp only [finalStep] at hs <;> cases hs <;> first | exact inv_publish hb hl | exact inv_finishUnpad hb hl

theorem inv_endIllegal {s : State} (h : s.Base) : s.endIllegal.Inv := inv_raise h _ _

/-- Every step of the sequencer keeps the invariant. -/
theorem inv_seqStep {s t : State} (h : s.Inv) (hs : s.seqStep = .next t) : t.Inv := by
  unfold State.seqStep at hs
  split at hs
  · cases hs; exact h
  · cases hs; exact inv_endIllegal h.base
  · rename_i hp hc
    cases hs; exact inv_checkStep h hp hc
  · rename_i hp hc
    exact inv_randomStep h hp hc hs
  · rename_i hp hc
    exact inv_blockStep h hp hc hs
  · rename_i hp hc
    exact inv_finalStep h hp hc hs
  all_goals cases hs

theorem inv_seqRun (k : Nat) {s t : State} (h : s.Inv) (hs : s.seqRun k = .next t) : t.Inv := by
  induction k generalizing s with
  | zero => cases hs; exact h
  | succ k ih =>
    unfold State.seqRun at hs
    cases hu : s.seqStep with
    | next u => rw [hu] at hs; exact ih (inv_seqStep h hu) hs
    | fault f => rw [hu] at hs; cases hs
    | refused r => rw [hu] at hs; cases hs

/-- Fields the invariant does not read. -/
theorem inv_congr {s t : State} (h : s.Inv)
    (h1 : t = { s with agenda := t.agenda, readData := t.readData, cipher := t.cipher, rng := t.rng, late := t.late }) : t.Inv := by
  rw [h1]
  exact ⟨h.params_wf, h.ibuf_wf, h.blk_wf, h.olen_eq, h.ctrl_reserved, h.status_legal, h.busy_iff, h.sequencer⟩

theorem inv_idle_congr {s t : State} (h : s.Inv) (hp : s.phase = .idle) (hb : t.Base) (h1 : t.status = s.status) (h2 : t.phase = s.phase) (h3 : t.n = s.n)
   (h4 : t.idx = s.idx) (h5 : t.prev = s.prev) (h6 : t.nonce = s.nonce) (h7 : t.cnt = s.cnt) (h8 : t.work = s.work) (h9 : t.outstanding = s.outstanding) : t.Inv := by
  have hh : s.hiddenClear := by
    have hq := h.sequencer
    cases hc : s.command with
    | none => rw [hc] at hq; exact hq.2
    | some i => rw [hc] at hq; simpa [State.phaseOk, hp] using hq
  refine ⟨hb.params_wf, hb.ibuf_wf, hb.blk_wf, hb.olen_eq, hb.ctrl_reserved, by rw [h1]; exact h.status_legal, ?_, ?_⟩
  · unfold State.busy; rw [h1, h2]; exact h.busy_iff
  · have ht : t.hiddenClear := by simpa only [State.hiddenClear, h3, h4, h5, h6, h7, h8, h9] using hh
    split
    · unfold State.phaseOk; rw [h2, hp]; exact ht
    · exact ⟨.inl (h2.trans hp), ht⟩

theorem inv_startCommand {s : State} (h : s.Inv) (hp : s.phase = .idle) (v : Byte) : (s.startCommand v).Inv := by
  have hh : s.hiddenClear := by
    have hq := h.sequencer
    cases hc : s.command with
    | none => rw [hc] at hq; exact hq.2
    | some i => rw [hc] at hq; simpa [State.phaseOk, hp] using hq
  refine ⟨h.params_wf, h.ibuf_wf, h.blk_wf, h.olen_eq, h.ctrl_reserved, by rw [State.startCommand_status]; decide, ?_, ?_⟩
  · constructor
    · intro _; rw [State.startCommand_phase]; decide
    · intro _; show (statusStart).getLsbD 0 = true; decide
  · split
    · exact hh
    · exact ⟨.inr rfl, hh⟩

theorem ctrlBits_idem (v : Byte) : ctrlBits (ctrlBits v) = ctrlBits v := by
  revert v; decide

theorem inv_hostWrite {s : State} (h : s.Inv) (sp : Space) (a : Nat) (v : Byte) : (s.hostWrite sp a v).Inv := by
  unfold State.hostWrite
  cases hb : s.busy
  · have hp : s.phase = .idle := by
      by_contra hne
      have := h.busy_iff.2 hne
      rw [hb] at this; cases this
    have hB := h.base
    simp only [Bool.false_eq_true, if_false]
    cases sp with
    | reg =>
      simp only [State.writeIdle, State.regWrite]
      split
      · exact inv_startCommand h hp v
      · split
        · exact inv_idle_congr h hp ⟨hB.params_wf, hB.ibuf_wf, hB.blk_wf, hB.olen_eq, ctrlBits_idem v⟩ rfl rfl rfl rfl rfl rfl rfl rfl rfl
        · repeat' split
          all_goals first
            | exact h
            | exact inv_idle_congr h hp (hB.congr rfl rfl rfl rfl rfl rfl) rfl rfl rfl rfl rfl rfl rfl rfl rfl
    | ibuf =>
      simp only [State.writeIdle]
      split
      · rename_i hlt
        exact inv_idle_congr h hp ⟨hB.params_wf, ⟨Memory.wf_write hB.ibuf_wf.1 _ _, Memory.below_write hB.ibuf_wf.2 hlt _⟩, hB.blk_wf, hB.olen_eq, hB.ctrl_reserved⟩ rfl rfl rfl rfl rfl rfl rfl rfl rfl
      · exact h
    | obuf => exact h
    | blk =>
      simp only [State.writeIdle]
      split
      · rename_i hlt
        exact inv_idle_congr h hp ⟨hB.params_wf, hB.ibuf_wf, ⟨Memory.wf_write hB.blk_wf.1 _ _, Memory.below_write hB.blk_wf.2 hlt _⟩, hB.olen_eq, hB.ctrl_reserved⟩ rfl rfl rfl rfl rfl rfl rfl rfl rfl
      · exact h
  · simpa using h

theorem inv_hostAccess {s : State} (h : s.Inv) (x : Access) : (s.hostAccess x).Inv := by
  cases x with
  | write sp a v => exact inv_hostWrite h sp a v
  | read sp a => exact inv_congr h rfl

theorem inv_resetInput {s : State} (h : s.Inv) : s.resetInput.Inv := by
  refine ⟨h.params_wf, h.ibuf_wf, h.blk_wf, ⟨rfl, Nat.zero_le _⟩, by show ctrlBits 0x01 = 0x01; decide, by show (0 : Byte) ∈ _; decide, ?_, ?_⟩
  · constructor
    · intro hb; exact absurd hb (by show ¬ (0 : Byte).getLsbD 0 = true; decide)
    · intro hb; exact absurd rfl hb
  · have hc : s.resetInput.command = none := by rw [State.command_eq]; show decodeByte 0 = none; decide
    rw [hc]
    exact ⟨.inl rfl, rfl, rfl, rfl, rfl, rfl, rfl, rfl⟩

end Sys2Proof.Machine
end

