-- ==== Sys2Proof/Laws/PerInstr.lean ====
section
/-! SUPPORT. The statements made for all instructions, one lemma per constructor. -/

/-- R100, R103: the opcode byte of `i` alone decodes to `i`, and the decoder leaves what follows it. -/
def Sys2Proof.Laws.Encoding.Statement (i : Sys2Proof.Instr) : Prop :=
  i.wf = true ∧ ∀ rest : List Sys2Proof.Byte, Sys2Proof.decode (Sys2Proof.encode i ++ rest) = .ok (i, rest)

namespace Sys2Proof.Laws.Encoding

theorem pad : Statement .pad := ⟨rfl, fun _ => rfl⟩

theorem unpad : Statement .unpad := ⟨rfl, fun _ => rfl⟩

theorem group : Statement .group := ⟨rfl, fun _ => rfl⟩

theorem ungroup : Statement .ungroup := ⟨rfl, fun _ => rfl⟩

theorem xor : Statement .xor := ⟨rfl, fun _ => rfl⟩

theorem ecbEnc : Statement .ecbEnc := ⟨rfl, fun _ => rfl⟩

theorem ecbDec : Statement .ecbDec := ⟨rfl, fun _ => rfl⟩

theorem cbcEnc : Statement .cbcEnc := ⟨rfl, fun _ => rfl⟩

theorem cbcDec : Statement .cbcDec := ⟨rfl, fun _ => rfl⟩

theorem ctrEnc : Statement .ctrEnc := ⟨rfl, fun _ => rfl⟩

theorem ctrDec : Statement .ctrDec := ⟨rfl, fun _ => rfl⟩

end Sys2Proof.Laws.Encoding
end

