-- ==== Sys2Proof/Laws/Pins.lean ====
section
/-! SUPPORT. What one rising edge of the signal-level binding does, case by case, and that it keeps the invariant. -/

namespace Sys2Proof.Machine

/-! ### The requests -/

/-- A request stands on the cipher port exactly while it is outstanding and not taken. -/
theorem State.cReq_isSome {s : State} {op : CipherOp} {b : Block} {k : Key} {a : Bool}
    (h : s.outstanding = some ⟨.cipher op b k, a⟩) : s.cReq.isSome = !a ∧ s.rReq = none := by
  cases a <;> simp [State.cReq, State.rReq, h]

theorem State.rReq_isSome {s : State} {n : Nat} {a : Bool} (h : s.outstanding = some ⟨.random n, a⟩) :
    s.rReq.isSome = !a ∧ s.cReq = none := by
  cases a <;> simp [State.cReq, State.rReq, h]

/-- With nothing outstanding no request transfers. -/
theorem State.takeRequest_none {s : State} (h : s.outstanding = none) (p : InputPins) : s.takeRequest p = s := by
  unfold State.takeRequest
  split
  · rw [h]; cases s; cases h; rfl
  · rfl

/-- Taking a request changes nothing but whether it is taken. -/
theorem State.takeRequest_eq (p : InputPins) (s : State) :
    s.takeRequest p = { s with outstanding := (s.takeRequest p).outstanding } ∧ (s.takeRequest p).asked = s.asked := by
  unfold State.takeRequest
  split
  · refine ⟨rfl, ?_⟩
    show (s.outstanding.map _).map _ = s.outstanding.map _
    rw [Option.map_map]
    rfl
  · exact ⟨rfl, rfl⟩

/-- A request whose port is ready, or that was taken before, is taken after the edge. -/
theorem State.takeRequest_taken_cipher {s : State} {op : CipherOp} {b : Block} {k : Key} {a : Bool} {p : InputPins}
    (h : s.outstanding = some ⟨.cipher op b k, a⟩) (ha : a = true ∨ p.cReqReady = true) :
    (s.takeRequest p).outstanding = some ⟨.cipher op b k, true⟩ := by
  obtain ⟨h1, h2⟩ := s.cReq_isSome h
  rcases ha with rfl | hr
  · simp [State.takeRequest, State.requestTransfers, transferHappens, h1, h2, h]
  · cases a <;> simp [State.takeRequest, State.requestTransfers, transferHappens, h1, h2, h, hr]

theorem State.takeRequest_taken_random {s : State} {n : Nat} {a : Bool} {p : InputPins}
    (h : s.outstanding = some ⟨.random n, a⟩) (ha : a = true ∨ p.rReqReady = true) :
    (s.takeRequest p).outstanding = some ⟨.random n, true⟩ := by
  obtain ⟨h1, h2⟩ := s.rReq_isSome h
  rcases ha with rfl | hr
  · simp [State.takeRequest, State.requestTransfers, transferHappens, h1, h2, h]
  · cases a <;> simp [State.takeRequest, State.requestTransfers, transferHappens, h1, h2, h, hr]

/-- A request that no port takes stands as it did. -/
theorem State.takeRequest_untaken {s : State} {p : InputPins} (h : s.requestTransfers p = false) : s.takeRequest p = s := by
  simp [State.takeRequest, h]

/-! ### The answers owed -/

theorem State.owed_none {s : State} (h : s.outstanding = none) : s.owed = s.late := by
  unfold State.owed
  rw [h]

theorem State.owed_untaken {s : State} {r : PortRequest} (h : s.outstanding = some ⟨r, false⟩) : s.owed = s.late := by
  unfold State.owed
  rw [h]
  cases r <;> rfl

theorem State.owed_cipher {s : State} {op : CipherOp} {b : Block} {k : Key}
    (h : s.outstanding = some ⟨.cipher op b k, true⟩) : s.owed = { s.late with cipher := s.late.cipher + 1 } := by
  unfold State.owed
  rw [h]

theorem State.owed_random {s : State} {n : Nat} (h : s.outstanding = some ⟨.random n, true⟩) :
    s.owed = { s.late with random := s.late.random + 1 } := by
  unfold State.owed
  rw [h]

/-- An answer transfers only where it is owed. -/
theorem State.cipherAnswers_owed {s : State} {p : InputPins} {m : MflTiming} (h : s.cipherAnswers p m = true) :
    0 < s.owed.cipher := by
  simp only [State.cipherAnswers, State.cRspReady, transferHappens, Bool.and_eq_true, decide_eq_true_eq] at h
  exact h.2.2

theorem State.randomAnswers_owed {s : State} {p : InputPins} {m : MflTiming} (h : s.randomAnswers p m = true) :
    0 < s.owed.random := by
  simp only [State.randomAnswers, State.rRspReady, transferHappens, Bool.and_eq_true, decide_eq_true_eq] at h
  exact h.2.2

/-- Taking a request only adds to what is owed. -/
theorem State.owed_takeRequest (s : State) (p : InputPins) :
    s.owed.cipher ≤ (s.takeRequest p).owed.cipher ∧ s.owed.random ≤ (s.takeRequest p).owed.random := by
  unfold State.takeRequest
  split
  · cases ho : s.outstanding with
    | none => simp [State.owed, ho]
    | some w => obtain ⟨_ | _, _ | _⟩ := w <;> simp [State.owed, ho]
  · exact ⟨Nat.le_refl _, Nat.le_refl _⟩

/-- The late answers after an edge of reset: what is owed with the requests taken by then, less what is given. -/
theorem State.resetEdge_late (s : State) (p : InputPins) (m : MflTiming) :
    (s.resetEdge p m).late.cipher + (if s.cipherAnswers p m then 1 else 0) = (s.takeRequest p).owed.cipher ∧
    (s.resetEdge p m).late.random + (if s.randomAnswers p m then 1 else 0) = (s.takeRequest p).owed.random := by
  obtain ⟨h1, h2⟩ := s.owed_takeRequest p
  constructor
  · cases hc : s.cipherAnswers p m
    · simp [State.resetEdge, LateAnswers.given, hc]
    · have := State.cipherAnswers_owed hc
      simp only [State.resetEdge, LateAnswers.given, hc, if_true]
      omega
  · cases hc : s.randomAnswers p m
    · simp [State.resetEdge, LateAnswers.given, hc]
    · have := State.randomAnswers_owed hc
      simp only [State.resetEdge, LateAnswers.given, hc, if_true]
      omega

/-! ### The senders outside -/

/-- An access offered and not yet accepted is the one offered at the next edge, so the one that transfers in the end. -/
theorem State.access_of_sendersHold {s : State} {m : MflTiming} {p q : InputPins} (h : s.sendersHold m p q)
    (hv : p.hValid = true) (hr : m.hReady = false) : q.host.access = p.host.access := by rw [h.1 hv hr]

/-! ### The edge, case by case -/

@[simp] theorem nextWith_next (f : State → State) (t : State) : nextWith f (.next t) = .next (f t) := rfl

theorem State.edge_reset {p : InputPins} (h : p.rst = true) (m : MflTiming) (s : State) :
    s.edge p m = .next (s.resetEdge p m) := by simp [State.edge, h]

/-- At an edge of an idle MFL the host access is all. -/
theorem State.edge_idle {p : InputPins} (h : p.rst = false) (m : MflTiming) {s : State} (hb : s.busy = false) :
    s.edge p m =
      .next { s.afterHost p m with late := s.late.given (s.cipherAnswers p m) (s.randomAnswers p m) } := by
  simp [State.edge, h, hb]

/-- At an edge of a running MFL a host access changes nothing but the record of reads. -/
theorem State.afterHost_busy {s : State} (hb : s.busy = true) (p : InputPins) (m : MflTiming) :
    s.afterHost p m = { s with readData := (s.afterHost p m).readData } := by
  unfold State.afterHost
  split
  · cases p.host.access with
    | write sp a v => simp [State.hostAccess, State.hostWrite, hb]
    | read sp a => rfl
  · rfl

theorem State.edge_busy {p : InputPins} (h : p.rst = false) (m : MflTiming) {s : State} (hb : s.busy = true) :
    s.edge p m =
      nextWith (fun u => { u with late := s.late.given (s.cipherAnswers p m) (s.randomAnswers p m) })
        ((s.afterHost p m).sequencerEdge p m) := by
  simp [State.edge, h, hb]

/-! ### The sequencer at an edge, by what is outstanding -/

theorem State.sequencerEdge_none {s : State} (h : s.outstanding = none) (p : InputPins) (m : MflTiming) :
    s.sequencerEdge p m = if m.advance then s.seqStepAnswered false else .next s := by
  unfold State.sequencerEdge
  rw [h]

theorem State.sequencerEdge_untaken {s : State} {r : PortRequest} (h : s.outstanding = some ⟨r, false⟩) (p : InputPins)
    (m : MflTiming) : s.sequencerEdge p m = .next (s.takeRequest p) := by
  unfold State.sequencerEdge
  rw [h]
  cases r <;> rfl

theorem State.sequencerEdge_cipher {s : State} {op : CipherOp} {b : Block} {k : Key}
    (h : s.outstanding = some ⟨.cipher op b k, true⟩) (p : InputPins) (m : MflTiming) :
    s.sequencerEdge p m =
      if s.cipherAnswers p m ∧ s.late.cipher = 0 then
        State.seqStepAnswered true { s with cipher := s.cipher.learn op b k (bitsBlock p.cRspBlock) }
      else .next s := by
  simp only [State.sequencerEdge, h]

theorem State.sequencerEdge_random {s : State} {n : Nat} (h : s.outstanding = some ⟨.random n, true⟩) (p : InputPins)
    (m : MflTiming) :
    s.sequencerEdge p m =
      if s.randomAnswers p m ∧ s.late.random = 0 then
        State.seqStepAnswered true { s with rng := s.rng.give p.rRsp.answer }
      else .next s := by
  simp only [State.sequencerEdge, h]

/-! ### The invariant -/

theorem inv_takeRequest {s : State} (h : s.Inv) (p : InputPins) : (s.takeRequest p).Inv := by
  cases ho : s.outstanding with
  | none => rw [State.takeRequest_none ho]; exact h
  | some w =>
    obtain ⟨he, ha⟩ := s.takeRequest_eq p
    refine ⟨?_, ?_, ?_, ?_, ?_, ?_, ?_, ?_⟩ <;> rw [he]
    · exact h.params_wf
    · exact h.ibuf_wf
    · exact h.blk_wf
    · exact h.olen_eq
    · exact h.ctrl_reserved
    · exact h.status_legal
    · exact h.busy_iff
    · have hq := h.sequencer
      rw [← he, State.command_congr (t := s) (by rw [he])]
      cases hc : s.command with
      | none => rw [hc] at hq; rw [hq.2.2.2.2.2.2.2] at ho; cases ho
      | some i =>
        rw [hc] at hq
        have hp : (s.takeRequest p).phase = s.phase := by rw [he]
        simp only [State.phaseOk, hp] at hq ⊢
        cases hph : s.phase <;> rw [hph] at hq <;> simp only at hq ⊢
        · rw [hq.2.2.2.2.2.2] at ho; cases ho
        · rw [hq.2.2.2.2.2.2] at ho; cases ho
        · rw [ha, he]; exact hq
        · rw [ha, he]; exact hq
        · rw [hq.2.2.2.2.2] at ho; cases ho

/-! ### The answers -/

/-- A cipher asked what it has just been learnt to answer. -/
@[simp] theorem CipherPort.answer_learn (c : CipherPort) (op : CipherOp) (b : Block) (k : Key) (a : Block) :
    (c.learn op b k a).answer op b k = a := by simp [CipherPort.answer, CipherPort.learn]

@[simp] theorem RandomPort.answer_give (r : RandomPort) (a : RandomAnswer) : (r.give a).answer = a := rfl

/-- Where a cipher request is outstanding the sequencer is in the block step that made it. -/
theorem State.Inv.of_cipher_asked {s : State} {op : CipherOp} {b : Block} {k : Key} {a : Bool} (h : s.Inv)
    (ho : s.outstanding = some ⟨.cipher op b k, a⟩) :
    s.busy = true ∧ s.phase = .block ∧ k = s.key ∧ s.idx.toNat < s.n.toNat ∧
      ∃ i d, s.command = some i ∧ blockRequest i s = some (d, op, b) := by
  have ha : s.asked = some (.cipher op b k) := by simp [State.asked, ho]
  have hq := h.sequencer
  cases hc : s.command with
  | none => rw [hc] at hq; rw [hq.2.2.2.2.2.2.2] at ho; cases ho
  | some i =>
    rw [hc] at hq
    cases hp : s.phase <;> simp only [State.phaseOk, hp] at hq
    · rw [hq.2.2.2.2.2.2] at ho; cases ho
    · rw [hq.2.2.2.2.2.2] at ho; cases ho
    · obtain ⟨-, -, -, -, -, -, hq⟩ := hq
      rw [ha] at hq
      rcases hq with hq | hq <;> cases hq
    · obtain ⟨-, -, -, -, hi, -, hq, -⟩ := hq
      rw [ha] at hq
      rcases hq with hq | hq
      · cases hq
      · unfold State.blockAsked at hq
        cases hr : blockRequest i s with
        | none => rw [hr] at hq; cases hq
        | some q =>
          rw [hr] at hq
          cases hq
          exact ⟨h.busy_iff.2 (by rw [hp]; decide), rfl, rfl, hi, i, q.1, rfl, hr⟩
    · rw [hq.2.2.2.2.2] at ho; cases ho

/-- Where a random request is outstanding the sequencer is in the random step that made it. -/
theorem State.Inv.of_random_asked {s : State} {n : Nat} {a : Bool} (h : s.Inv)
    (ho : s.outstanding = some ⟨.random n, a⟩) :
    s.busy = true ∧ s.phase = .rand ∧ ∃ i, s.command = some i ∧ drawsRandom i = true ∧ n = prefixLen i := by
  have ha : s.asked = some (.random n) := by simp [State.asked, ho]
  have hq := h.sequencer
  cases hc : s.command with
  | none => rw [hc] at hq; rw [hq.2.2.2.2.2.2.2] at ho; cases ho
  | some i =>
    rw [hc] at hq
    cases hp : s.phase <;> simp only [State.phaseOk, hp] at hq
    · rw [hq.2.2.2.2.2.2] at ho; cases ho
    · rw [hq.2.2.2.2.2.2] at ho; cases ho
    · obtain ⟨hd, -, -, -, -, -, hq⟩ := hq
      rw [ha] at hq
      rcases hq with hq | hq <;> cases hq
      exact ⟨h.busy_iff.2 (by rw [hp]; decide), rfl, i, rfl, hd, rfl⟩
    · obtain ⟨-, -, -, -, -, -, hq, -⟩ := hq
      rw [ha] at hq
      unfold State.blockAsked at hq
      rcases hq with hq | hq
      · cases hq
      · cases hr : blockRequest i s <;> rw [hr] at hq <;> cases hq
    · rw [hq.2.2.2.2.2] at ho; cases ho

/-- What taking the cipher's answer writes: `W`, `PREV`, `CNT`, `IDX`, `PHASE` and the request port, and nothing else. -/
theorem blockAdvance_blockTake (i : Instr) (t a : Block) (u : State) :
    blockAdvance (blockTake i t a u) =
      { u with
        idx := u.idx + 1, outstanding := none, phase := if u.idx + 1 = u.n then .final else .block
        work := (blockTake i t a u).work, prev := (blockTake i t a u).prev, cnt := (blockTake i t a u).cnt } := by
  cases i <;> rfl

/-- The block step with the answer that came on the pins (R216). -/
theorem State.seqStepAnswered_cipher {s : State} {i : Instr} {op : CipherOp} {d b : Block} (w : Waiting) (a : Block)
    (ho : s.outstanding = some w) (hp : s.phase = .block) (hc : s.command = some i)
    (hr : blockRequest i s = some (d, op, b)) (hi : s.idx.toNat < s.n.toNat) :
    State.seqStepAnswered true { s with cipher := s.cipher.learn op b s.key a } =
      .next (blockAdvance (blockTake i d a { s with cipher := s.cipher.learn op b s.key a })) := by
  unfold State.seqStepAnswered
  generalize hu : State.answering true true { s with cipher := s.cipher.learn op b s.key a } = u
  have e1 : u.phase = .block := by rw [← hu]; exact hp
  have e2 : u.command = some i := by rw [← hu]; exact hc
  have e3 : blockRequest i u = some (d, op, b) := by rw [← hu, ← hr]; cases i <;> rfl
  have e4 : u.idx.toNat < u.n.toNat := by rw [← hu]; exact hi
  have e5 : u.asked = some w.request := by rw [← hu]; simp [State.asked, State.answering, ho]
  have e6 : u.cipher.live = true := by rw [← hu]; rfl
  have e7 : u.ask op b = a := by rw [← hu]; exact CipherPort.answer_learn s.cipher op b s.key a
  simp only [State.seqStep, e1, e2, blockStep, e3, e4, if_true, State.sendOnce_asked e5, e6, e7, nextWith_next]
  rw [← hu]
  cases i <;> rfl

/-- The random step with the answer that came on the pins (R215). -/
theorem State.seqStepAnswered_random {s : State} {i : Instr} (w : Waiting) (a : RandomAnswer)
    (ho : s.outstanding = some w) (hp : s.phase = .rand) (hc : s.command = some i) (hd : drawsRandom i = true) :
    State.seqStepAnswered true { s with rng := s.rng.give a } =
      .next (
        match a with
        | .fail => s.drawTaken.raise .obuf .rng
        | .ok r =>
          if i = .cbcEnc then (s.drawTaken.setPrev r).enterLoop r.toList
          else (s.drawTaken.setNonce (nonceOf r)).enterLoop (nonceOf r).toList) := by
  unfold State.seqStepAnswered
  generalize hu : State.answering true true { s with rng := s.rng.give a } = u
  have e1 : u.phase = .rand := by rw [← hu]; exact hp
  have e2 : u.command = some i := by rw [← hu]; exact hc
  have e3 : u.asked = some w.request := by rw [← hu]; simp [State.asked, State.answering, ho]
  have e4 : u.rng.live = true := by rw [← hu]; rfl
  have e5 : u.rng.answer = a := by rw [← hu]; rfl
  cases i <;> simp only [drawsRandom, reduceCtorEq] at hd <;>
    simp only [State.seqStep, e1, e2, randomStep, State.sendOnce_asked e3, e4, e5, if_true, nextWith_next] <;>
    rw [← hu] <;> cases a <;> rfl

end Sys2Proof.Machine
end

