-- ==== Sys2Proof/Laws/Progress.lean ====
section
/-! SUPPORT. With collaborators that answer, each step of a running command brings it nearer its end (R224). -/

namespace Sys2Proof.Machine

theorem State.sendOnce_cipher (r : PortRequest) (s : State) :
    (s.sendOnce r).cipher = s.cipher ∧ (s.sendOnce r).rng = s.rng ∧ (s.sendOnce r).n = s.n ∧ (s.sendOnce r).idx = s.idx := by
  unfold State.sendOnce
  split <;> exact ⟨rfl, rfl, rfl, rfl⟩

/-- The random step ends the command or enters the block loop at `IDX = 0`. -/
theorem State.seqStep_rand_live {s : State} (h : s.Inv) (hp : s.phase = .rand) (hl : s.live) :
    ∃ t, s.seqStep = .next t ∧ t.live ∧ (t.phase = .idle ∨ (t.phase = .block ∧ t.n = s.n ∧ t.idx = 0)) := by
  have hq := h.sequencer
  cases hc : s.command with
  | none => rw [hc, hp] at hq; rcases hq.1 with e | e <;> cases e
  | some i =>
    rw [hc] at hq
    simp only [State.phaseOk, hp] at hq
    have hd := hq.1
    obtain ⟨h1, h2, h3, -⟩ := s.sendOnce_cipher (.random (prefixLen i))
    have hl2 := hl.2
    cases i <;> simp only [drawsRandom, reduceCtorEq] at hd <;> simp only [prefixLen] at h1 h2 h3 <;>
      simp only [State.seqStep, hp, hc, randomStep, h2, hl2, if_true] <;>
      cases ha : s.rng.answer <;> refine ⟨_, rfl, ?_, ?_⟩ <;>
      first
        | exact ⟨(congrArg CipherPort.live h1).trans hl.1, (congrArg RandomPort.live h2).trans hl.2⟩
        | exact .inl rfl
        | exact .inr ⟨rfl, h3, rfl⟩

/-- The block step goes one block on. -/
theorem State.seqStep_block_live {s : State} (h : s.Inv) (hp : s.phase = .block) (hl : s.live) :
    ∃ t, s.seqStep = .next t ∧ t.live ∧ t.n = s.n ∧ t.idx = s.idx + 1 ∧ s.idx.toNat < s.n.toNat ∧
      t.phase = if s.idx + 1 = s.n then .final else .block := by
  have hq := h.sequencer
  cases hc : s.command with
  | none => rw [hc, hp] at hq; rcases hq.1 with e | e <;> cases e
  | some i =>
    rw [hc] at hq
    simp only [State.phaseOk, hp] at hq
    obtain ⟨hm, -, -, -, hi, -⟩ := hq
    cases hr : blockRequest i s with
    | none => cases i <;> simp_all [blockRequest, isMode]
    | some q =>
      obtain ⟨d, op, x⟩ := q
      obtain ⟨h1, h2, h3, h4⟩ := s.sendOnce_cipher (.cipher op x s.key)
      have hlu : (s.sendOnce (.cipher op x s.key)).cipher.live = true := by rw [h1]; exact hl.1
      simp only [State.seqStep, hp, hc, blockStep, hr, hi, if_true, hlu]
      generalize s.sendOnce (.cipher op x s.key) = u at h1 h2 h3 h4 hlu ⊢
      refine ⟨_, rfl, ?_, ?_, ?_, trivial, ?_⟩
      · rw [State.live, h1.symm, h2.symm] at hl
        cases i <;> exact hl
      · rw [← h3]; cases i <;> rfl
      · rw [← h4]; cases i <;> rfl
      · rw [← h3, ← h4]; cases i <;> rfl

/-- The final step ends the command. -/
theorem State.seqStep_final {s : State} (h : s.Inv) (hp : s.phase = .final) : ∃ t, s.seqStep = .next t ∧ t.phase = .idle := by
  have hq := h.sequencer
  cases hc : s.command with
  | none => rw [hc, hp] at hq; rcases hq.1 with e | e <;> cases e
  | some i =>
    rw [hc] at hq
    simp only [State.phaseOk, hp] at hq
    have hm := hq.1
    cases i <;> simp only [isMode, reduceCtorEq, or_self, Bool.false_eq_true] at hm <;>
      simp only [State.seqStep, hp, hc, finalStep] <;> exact ⟨_, rfl, by simp⟩

/-- From the block loop, `m` blocks before its end, the command ends after `m` block steps and the final step. -/
theorem State.seqRun_block_ends (m : Nat) {s : State} (h : s.Inv) (hl : s.live)
    (hp : s.phase = .block ∧ s.idx.toNat + m = s.n.toNat ∨ s.phase = .final) {k : Nat} (hk : m + 1 ≤ k) :
    ∃ t, s.seqRun k = .next t ∧ t.phase = .idle := by
  have fin : ∀ {u : State} {j : Nat}, u.Inv → u.phase = .final → 1 ≤ j → ∃ t, u.seqRun j = .next t ∧ t.phase = .idle := by
    intro u j hu hf hj
    obtain ⟨t, h1, h2⟩ := State.seqStep_final hu hf
    exact ⟨t, State.seqRun_done (State.seqRun_one h1) (State.seqStep_idle h2) hj, h2⟩
  induction m generalizing s k with
  | zero =>
    rcases hp with ⟨hb, hi⟩ | hf
    · obtain ⟨-, -, -, -, -, hlt, -⟩ := State.seqStep_block_live h hb hl
      omega
    · exact fin h hf hk
  | succ m ih =>
    rcases hp with ⟨hb, hi⟩ | hf
    · obtain ⟨t, h1, h2, h3, h4, -, h5⟩ := State.seqStep_block_live h hb hl
      obtain ⟨k, rfl⟩ := Nat.exists_eq_add_of_le' (Nat.le_trans (Nat.succ_le_succ (Nat.zero_le _)) hk)
      rw [State.seqRun_succ k h1]
      refine ih (inv_seqStep h h1) h2 ?_ (by omega)
      rw [h5]
      split
      · exact .inr rfl
      · refine .inl ⟨rfl, ?_⟩
        rw [h3, h4]
        exact idx_succ hi
    · exact fin h hf (Nat.le_trans (Nat.succ_le_succ (Nat.zero_le _)) hk)

end Sys2Proof.Machine
end

