-- ==== Sys2Proof/Laws/Reads.lean ====
section
/-! SUPPORT. The record of what the host has read reaches no step of the sequencer: each step commutes with it. -/

namespace Sys2Proof.Machine

/-! ### The ends of a command -/

theorem raise_withReadData (l : List Byte) (d : Dest) (c : ErrCode) (s : State) :
    State.raise d c (s.withReadData l) = (s.raise d c).withReadData l := by cases d <;> rfl

theorem publish_withReadData (l : List Byte) (w : List Byte) (s : State) :
    State.publish w (s.withReadData l) = (s.publish w).withReadData l := rfl

theorem finishUnpad_withReadData (l : List Byte) (w : List Byte) (s : State) :
    State.finishUnpad w (s.withReadData l) = (s.finishUnpad w).withReadData l := by
  have h : (s.withReadData l).strict = s.strict := rfl
  unfold State.finishUnpad
  rw [h]
  cases (padCheck w).1 <;> cases s.strict <;> rfl

/-! ### The steps -/

theorem checkDo_withReadData (l : List Byte) (i : Instr) (s : State) :
    checkDo i (s.withReadData l) = (checkDo i s).withReadData l := by cases i <;> rfl

theorem clearDest_withReadData (l : List Byte) (d : Dest) (s : State) :
    State.clearDest d (s.withReadData l) = (s.clearDest d).withReadData l := by cases d <;> rfl

theorem checkStep_withReadData (l : List Byte) (i : Instr) (s : State) :
    checkStep i (s.withReadData l) = (checkStep i s).withReadData l := by
  have h : (State.withReadData l (State.clearDest (destOf i) s)).resultLen i = (s.clearDest (destOf i)).resultLen i := by cases i <;> rfl
  have h2 : ∀ u : State, (u.withReadData l).inLen = u.inLen ∧ (u.withReadData l).params = u.params := fun u => ⟨rfl, rfl⟩
  simp only [checkStep, clearDest_withReadData, h, h2, raise_withReadData, checkDo_withReadData]
  split
  · rfl
  · split
    · rfl
    · split <;> rfl

theorem sendOnce_withReadData (l : List Byte) (r : PortRequest) (s : State) :
    State.sendOnce r (s.withReadData l) = (s.sendOnce r).withReadData l := by
  have h : (s.withReadData l).outstanding = s.outstanding := rfl
  unfold State.sendOnce; rw [h]; split <;> rfl

theorem randomStep_withReadData (l : List Byte) (i : Instr) (s : State) :
    randomStep i (s.withReadData l) = nextWith (State.withReadData l) (randomStep i s) := by
  have h : ∀ u : State, (u.withReadData l).rng = u.rng := fun u => rfl
  cases i <;> simp only [randomStep, sendOnce_withReadData, h] <;> try rfl
  all_goals
    split
    · split <;> rfl
    · rfl

theorem blockStep_withReadData (l : List Byte) (i : Instr) (s : State) :
    blockStep i (s.withReadData l) = nextWith (State.withReadData l) (blockStep i s) := by
  have h : blockRequest i (s.withReadData l) = blockRequest i s := by cases i <;> rfl
  have h1 : ∀ u : State, (u.withReadData l).cipher = u.cipher ∧ (u.withReadData l).key = u.key ∧ (u.withReadData l).idx = u.idx ∧ (u.withReadData l).n = u.n := fun u => ⟨rfl, rfl, rfl, rfl⟩
  have h2 : ∀ (u : State), (u.withReadData l).ask = u.ask := fun u => rfl
  have h3 : ∀ (t a : Block) (u : State), blockAdvance (blockTake i t a (u.withReadData l)) = (blockAdvance (blockTake i t a u)).withReadData l := by intros; cases i <;> rfl
  simp only [blockStep, h, h1, sendOnce_withReadData, h2, h3]
  split
  · rfl
  · split
    · split <;> rfl
    · rfl

theorem finalStep_withReadData (l : List Byte) (i : Instr) (s : State) :
    finalStep i (s.withReadData l) = nextWith (State.withReadData l) (finalStep i s) := by
  have h : (s.withReadData l).work = s.work := rfl
  cases i <;> simp only [finalStep, finishUnpad_withReadData, publish_withReadData, h] <;> rfl

/-- A step of the sequencer neither reads nor writes the record. -/
theorem seqStep_withReadData (l : List Byte) (s : State) :
    (s.withReadData l).seqStep = nextWith (State.withReadData l) s.seqStep := by
  have h : (s.withReadData l).phase = s.phase ∧ (s.withReadData l).command = s.command := ⟨rfl, rfl⟩
  simp only [State.seqStep, h, checkStep_withReadData, randomStep_withReadData, blockStep_withReadData, finalStep_withReadData, State.endIllegal, raise_withReadData]
  split <;> rfl

/-- So does a step at an edge. -/
theorem seqStepAnswered_withReadData (l : List Byte) (a : Bool) (s : State) :
    (s.withReadData l).seqStepAnswered a = nextWith (State.withReadData l) (s.seqStepAnswered a) := by
  have h : State.answering a a (s.withReadData l) = (s.answering a a).withReadData l := rfl
  unfold State.seqStepAnswered
  rw [h, seqStep_withReadData]
  cases (s.answering a a).seqStep <;> rfl

end Sys2Proof.Machine
end

