-- ==== Sys2Proof/Tests/Slice0.lean ====
section
/-! SUPPORT. Tests. Expected results are the encodings of spec/30_encoding.md R100 and the vectors of
spec/95_test_vectors.md, named at each test; the ciphertexts there are those of its test cipher TC2, given to the machine
as known answers. -/

namespace Sys2Proof.Machine

-- one test after another: each waits on the kernel, and each waiting one would hold a thread and its stack
set_option Elab.async false

/-! ### Helpers -/

/-- The block written as one hexadecimal number, byte 0 first. -/
def hexBlock (n : Nat) : Block := blockOf fun i => BitVec.ofNat 8 (n / 256 ^ (15 - i))

/-- K1 of the vectors. -/
def k1 : Key := hexBlock 0x000102030405060708090a0b0c0d0e0f

/-- IVa of the vectors. -/
def iva : Block := hexBlock 0xa0a1a2a3a4a5a6a7a8a9aaabacadaeaf

/-- NCa of the vectors, in the first eight bytes of the random port's payload. -/
def nca : Block := hexBlock 0xc0c1c2c3c4c5c6c70000000000000000

/-- The bytes of NCa. -/
def ncaBytes : List Byte := [0xc0, 0xc1, 0xc2, 0xc3, 0xc4, 0xc5, 0xc6, 0xc7]

/-- M13 of the vectors. -/
def m13 : List Byte := [0x48, 0x65, 0x6c, 0x6c, 0x6f, 0x2c, 0x20, 0x57, 0x6f, 0x72, 0x6c, 0x64, 0x21]

/-- The reset state, then the key K1 and `bytes` as the input, and the command `i` latched. -/
def latched (i : Instr) (bytes : List Byte) : State :=
  { State.reset with opc := opcodeOf i, status := 0x01, phase := .check, key := k1
                     ibuf := Memory.writeSeq [] 0 bytes, ilen := BitVec.ofNat 32 bytes.length }

/-- With known answers of the cipher and a script of the random source. -/
def withPorts (known : List CipherEntry) (script : List RandomAnswer) (s : State) : State :=
  { s with cipher := { known := known, live := true }, rng := { script := script, count := 0, live := true } }

/-- With `CTRL.STRICT = 0`. -/
def permissive (s : State) : State := { s with ctrl := 0x00 }

/-- Output and `STATUS` where the outcome is a next state with the MFL idle. -/
def ended (o : Host.Outcome State Fault Refusal) : Option (List Byte × Byte) :=
  match o with
  | .next t => if t.phase = .idle then some (t.obuf, t.status) else none
  | .fault _ | .refused _ => none

/-- A field of the next state. -/
def nextOf {α : Type} (f : State → α) (o : Host.Outcome State Fault Refusal) : Option α :=
  match o with
  | .next t => some (f t)
  | .fault _ | .refused _ => none

/-! ### Decoding: opcode bytes written out from R100, and the bytes beside them (R102, R105) -/

theorem test_decode_unit_commands :
    [0b00000001, 0b00000010, 0b00000011, 0b00000100, 0b00000101].map decodeByte =
      [some .pad, some .unpad, some .group, some .ungroup, some .xor] := by decide

theorem test_decode_mode_commands :
    [0b00010000, 0b00010001, 0b00100000, 0b00100001, 0b00110000, 0b00110001].map decodeByte =
      [some .ecbEnc, some .ecbDec, some .cbcEnc, some .cbcDec, some .ctrEnc, some .ctrDec] := by decide

theorem test_decode_illegal :
    [0x00, 0x06, 0x0f, 0x12, 0x22, 0x32, 0x40, 0x81, 0xff].map decodeByte = List.replicate 9 none ∧
    decode [0x12] = .error (.illegalOpcode 0x12) ∧ decode [] = .error .noByte := by decide

theorem test_decode_table_word :
    decodeTableWord 8 0x31 = some .ctrDec ∧ decodeTableWord 8 0x131 = some .ctrDec ∧ decodeTableWord 8 0x13 = none := by
  decide

theorem test_no_two_rows_overlap : opcodeTable.Pairwise fun r q => r.pattern &&& q.mask ≠ q.pattern := by decide

/-! ### WellFormed: one ill-formed term for each check, and the boundary that passes -/

theorem test_wellFormed_capBytes_low : Params.wf { capBytes := 63, ctrEndian := .be } = false := by decide

theorem test_wellFormed_capBytes_high : Params.wf { capBytes := 2 ^ 32, ctrEndian := .be } = false := by decide

theorem test_wellFormed_capBytes_passes :
    Params.wf { capBytes := 64, ctrEndian := .be } = true ∧ Params.wf { capBytes := 2 ^ 32 - 1, ctrEndian := .le } = true := by
  decide

theorem test_wellFormed_setIlen : (Stmt.setIlen (2 ^ 32)).wf = false ∧ (Stmt.setIlen (2 ^ 32 - 1)).wf = true := by decide

theorem test_wellFormed_setNblk : (Stmt.setNblk (2 ^ 32)).wf = false := by decide

theorem test_wellFormed_loadI (l : List Byte) (h : l.length = 2 ^ 32) : (Stmt.loadI l).wf = false := by
  simp [Stmt.wf, h]

theorem test_wellFormed_blocks :
    (Stmt.loadK (List.replicate 15 0)).wf = false ∧ (Stmt.loadA (List.replicate 17 0)).wf = false ∧
    (Stmt.loadB []).wf = false ∧ (Stmt.loadBlk 0 (List.replicate 15 0)).wf = false ∧
    (Stmt.loadBlk 0 (List.replicate 16 0)).wf = true := by decide

theorem test_wellFormed_instr (i : Instr) : i.wf = true := by cases i <;> decide

/-! ### One step per command -/

/-- V12. -/
theorem test_pad : ended (step (latched .pad [0x01, 0x02, 0x03])) =
    some ([0x01, 0x02, 0x03] ++ List.replicate 13 0x0d, 0x02) := by decide +kernel

/-- V23: `ILEN = 64`. -/
theorem test_pad_capacity : ended (step (latched .pad (List.replicate 64 0xaa))) = some ([], 0x22) := by decide +kernel

/-- V12: only the last byte is looked at. -/
theorem test_unpad : ended (step (latched .unpad [0x01, 0x02, 0x03, 0x02])) = some ([0x01, 0x02], 0x02) := by decide +kernel

/-- V12: malformed padding, both settings of `CTRL.STRICT`. -/
theorem test_unpad_malformed :
    ended (step (latched .unpad [0x41, 0x42, 0x10])) = some ([], 0x52) ∧
    ended (step (permissive (latched .unpad [0x41, 0x42, 0x10]))) = some ([0x41, 0x42, 0x10], 0x06) := by decide +kernel

/-- V16. -/
theorem test_group :
    nextOf (fun t => (t.nblk, t.blk.readBlock 0, t.blk.readBlock 16, t.status))
      (step (latched .group ((List.range 32).map (BitVec.ofNat 8)))) =
    some (2, k1, hexBlock 0x101112131415161718191a1b1c1d1e1f, 0x02) := by decide +kernel

/-- V16: `ILEN = 17`. -/
theorem test_group_length :
    nextOf (fun t => (t.nblk, t.blk, t.status)) (step { latched .group (List.replicate 17 0xaa) with nblk := 2 }) =
    some (0, [], 0x32) := by decide +kernel

/-- V16. -/
theorem test_ungroup :
    ended (step { latched .ungroup [] with blk := Memory.writeSeq [] 0 ((List.range 32).map (BitVec.ofNat 8)), nblk := 2 }) =
    some ((List.range 32).map (BitVec.ofNat 8), 0x02) := by decide +kernel

/-- V23: 16 times `NBLK` is 2^32. -/
theorem test_ungroup_capacity : ended (step { latched .ungroup [] with nblk := 0x10000000 }) = some ([], 0x22) := by
  decide +kernel

/-- V17. -/
theorem test_xor :
    nextOf (fun t => (t.xc, t.status))
      (step { latched .xor [] with xa := hexBlock 0x00112233445566778899aabbccddeeff, xb := k1 }) =
    some (hexBlock 0x00102030405060708090a0b0c0d0e0f0, 0x02) := by decide +kernel

/-- V14, TC2. -/
theorem test_ecbEnc :
    ended (step (withPorts [⟨.enc, hexBlock 0x6162630d0d0d0d0d0d0d0d0d0d0d0d0d, k1, hexBlock 0x6366121416181a1c1e20222426282a80⟩]
      [] (latched .ecbEnc [0x61, 0x62, 0x63]))) =
    some ((hexBlock 0x6366121416181a1c1e20222426282a80).toList, 0x02) := by decide +kernel

/-- V15 (a), TC2. -/
theorem test_ecbDec :
    ended (step (withPorts [⟨.dec, hexBlock 0x6366121416181a1c1e20222426282a80, k1, hexBlock 0x6162630d0d0d0d0d0d0d0d0d0d0d0d0d⟩]
      [] (latched .ecbDec (hexBlock 0x6366121416181a1c1e20222426282a80).toList))) =
    some ([0x61, 0x62, 0x63], 0x02) := by decide +kernel

/-- V15 (g), (h): no data block. -/
theorem test_ecbDec_empty :
    ended (step (latched .ecbDec [])) = some ([], 0x52) ∧
    ended (step (permissive (latched .ecbDec []))) = some ([], 0x06) := by decide +kernel

/-- V18 (a), TC2: the cipher is asked the combined block. -/
theorem test_cbcEnc :
    ended (step (withPorts [⟨.enc, hexBlock 0xc1c3c1aea9a8abaaa5a4a7a6a1a0a3a2, k1, hexBlock 0xc4c4b3b0b1b6b7b4b5babbb8b9bebfe0⟩]
      [.ok iva] (latched .cbcEnc [0x61, 0x62, 0x63]))) =
    some (iva.toList ++ (hexBlock 0xc4c4b3b0b1b6b7b4b5babbb8b9bebfe0).toList, 0x02) := by decide +kernel

/-- V25: the random source fails; one random request, no cipher request. -/
theorem test_cbcEnc_random_fails :
    nextOf (fun t => (t.obuf, t.status, t.requests)) (step (withPorts [] [.fail] (latched .cbcEnc [0x61, 0x62, 0x63]))) =
    some ([], 0x42, [.random 16]) := by decide +kernel

/-- V19 (b), TC2: two blocks; it tells `PREV <- c_i` from `PREV <- d`. -/
theorem test_cbcDec :
    ended (step (withPorts
      [⟨.dec, hexBlock 0xe4e4ece8ececfcf0f4f4fcf8fcfc1c00, k1, hexBlock 0xe1e3e1e7e1e3e1efe1e3e1e7e1e3e1ff⟩,
       ⟨.dec, hexBlock 0xece6eceaecfe0c0a0c060c0a0c2e2cd4, k1, hexBlock 0xb5ebe3e7e3e3f3fffbfbf3f7f3f3130f⟩]
      [] (latched .cbcDec (iva.toList ++ (hexBlock 0xe4e4ece8ececfcf0f4f4fcf8fcfc1c00).toList ++
        (hexBlock 0xece6eceaecfe0c0a0c060c0a0c2e2cd4).toList)))) =
    some ((List.range 17).map (fun k => BitVec.ofNat 8 (0x41 + k)), 0x02) := by decide +kernel

/-- V19 (j): `ILEN = 24`. -/
theorem test_cbcDec_length : ended (step (latched .cbcDec (List.replicate 24 0xaa))) = some ([], 0x32) := by decide +kernel

/-- V20 (a), TC2. -/
theorem test_ctrEnc :
    ended (step (withPorts [⟨.enc, nca, k1, hexBlock 0xc2c5c8cbced1d40f11131517191b1ddf⟩] [.ok nca] (latched .ctrEnc m13))) =
    some (ncaBytes ++ (hexBlock 0x8aa0a4a7a1fdf4587e61797338181edc).toList, 0x02) := by decide +kernel

/-- V21 (a), TC2: two blocks, and the same two `ENC` requests. -/
theorem test_ctrDec :
    ended (step (withPorts
      [⟨.enc, nca, k1, hexBlock 0xc2c5c8cbced1d40f11131517191b1ddf⟩,
       ⟨.enc, hexBlock 0xc0c1c2c3c4c5c6c70000000000000001, k1, hexBlock 0xc2c5c8cbced1d40f11131517191b1edf⟩]
      [] (latched .ctrDec (ncaBytes ++ (hexBlock 0xa3a7abafabb7b36778797e7b747572af).toList ++
        (hexBlock 0xb3b7bbbfc2ddd8031d1f191b151712d3).toList)))) =
    some ((List.range 20).map (fun k => BitVec.ofNat 8 (0x61 + k)), 0x02) := by decide +kernel

/-- V21 (j), (k): `ILEN` 7 and 20. -/
theorem test_ctrDec_length :
    ended (step (latched .ctrDec (List.replicate 7 0xaa))) = some ([], 0x32) ∧
    ended (step (latched .ctrDec (List.replicate 20 0xaa))) = some ([], 0x32) := by decide +kernel

/-- V22: the counter 1 in the other order. -/
theorem test_ctrBlock_le : ctrBlock .le (nonceOf nca) 1 = hexBlock 0xc0c1c2c3c4c5c6c70100000000000000 := by decide +kernel

/-- V23: `WR REG 0x00 0x12` changes `OPC` and `STATUS` only. -/
theorem test_illegal_command :
    nextOf id (State.runCommand (State.hostWrite .reg 0x00 0x12 { State.reset with nblk := 2, olen := 1, obuf := [0xaa] })) =
      some { State.reset with nblk := 2, olen := 1, obuf := [0xaa], opc := 0x12, status := 0x12 } := by decide +kernel

/-! ### Steps of the sequencer, and the host while one runs -/

/-- V24: `ECB_ENC` of `616263` waiting on the cipher's answer to its first request. -/
def waiting : State :=
  { latched .ecbEnc [0x61, 0x62, 0x63] with
    phase := .block, n := 1, cipher := { known := [], live := false }
    outstanding := some ⟨.cipher .enc (hexBlock 0x6162630d0d0d0d0d0d0d0d0d0d0d0d0d) k1, false⟩
    requests := [.cipher .enc (hexBlock 0x6162630d0d0d0d0d0d0d0d0d0d0d0d0d) k1] }

/-- V24: two steps lead there, and the third waits. -/
theorem test_sequencer_waits :
    nextOf id (State.seqRun 2 { latched .ecbEnc [0x61, 0x62, 0x63] with cipher := { known := [], live := false } }) =
      some waiting ∧
    nextOf id waiting.seqStep = some waiting := by decide +kernel

/-- V24: what the host reads then. -/
theorem test_busy_reads :
    [waiting.hostRead .reg 0x02, waiting.hostRead .reg 0x00, waiting.hostRead .reg 0x04, waiting.hostRead .reg 0x08,
     waiting.hostRead .ibuf 0, waiting.hostRead .obuf 0] = [0x01, 0x10, 0x00, 0x00, 0x00, 0x00] := by decide +kernel

/-- V24: every write is ignored. -/
theorem test_busy_writes :
    waiting.hostWrite .ibuf 0 0xff = waiting ∧ waiting.hostWrite .reg 0x10 0xff = waiting ∧
    waiting.hostWrite .reg 0x01 0x00 = waiting ∧ waiting.hostWrite .reg 0x00 0x01 = waiting := by decide +kernel

/-- P2's table, random step: `PREV = IVa`, `W = IVa`, `IDX = 0`, `BLOCK`. -/
theorem test_random_step :
    nextOf (fun t => (t.phase, t.prev, t.work, t.idx, t.requests))
      (State.seqRun 2 (withPorts [] [.ok iva] (latched .cbcEnc [0x61, 0x62, 0x63]))) =
    some (.block, iva, iva.toList, 0, [.random 16]) := by decide +kernel

/-- P5: the host notation; `XC` is the block `CBC_ENC` puts on the cipher port in P2. -/
theorem test_program_xor :
    (State.reset.xorCall (hexBlock 0x6162630d0d0d0d0d0d0d0d0d0d0d0d0d) iva).map Prod.snd =
    some (.bytes (hexBlock 0xc1c3c1aea9a8abaaa5a4a7a6a1a0a3a2).toList) := by decide +kernel

/-- V5: `group` of 32 bytes as a call, its blocks read from `BLK`. -/
theorem test_call_group :
    (State.reset.groupCall ((List.range 32).map (BitVec.ofNat 8))).map Prod.snd =
    some [k1, hexBlock 0x101112131415161718191a1b1c1d1e1f] := by decide +kernel

/-- V5: `un_group` as a call. -/
theorem test_call_ungroup :
    (State.reset.ungroupCall [k1, hexBlock 0x101112131415161718191a1b1c1d1e1f]).map Prod.snd =
    some (.bytes ((List.range 32).map (BitVec.ofNat 8))) := by decide +kernel

/-- V12: `unpad` as a call returns the data, or the error that the byte read from `STATUS` names. -/
theorem test_call_unpad :
    (State.reset.surfaceCall .unpad none [0x01, 0x02, 0x03, 0x02]).map (fun r => r.2.toOption) =
      some (some (.bytes [0x01, 0x02])) ∧
    (State.reset.surfaceCall .unpad none [0x41, 0x42, 0x10]).map (fun r => match r.2 with | .ok _ => 0 | .error e => e) =
      some 5 := by decide +kernel

/-- R87 with R64: byte 0 of a block is the vector's least significant byte. -/
theorem test_vector_lanes : (blockBits k1).extractLsb' 0 8 = 0x00 ∧ (blockBits k1).extractLsb' 120 8 = 0x0f := by
  decide +kernel

/-! ### Edges of the signal-level binding (R87) -/

/-- `waiting` with its request taken by the cipher. -/
def waitingTaken : State := { waiting with outstanding := waiting.outstanding.map fun w => { w with accepted := true } }

/-- An edge at which every other block is ready and only the MFL's own requests can transfer. -/
def quietPins : InputPins :=
  { rst := false, hValid := false, host := ⟨false, 0, 0, 0⟩, cReqReady := true, cRspValid := false, cRspBlock := 0
    rReqReady := true, rRspValid := false, rRsp := ⟨false, 0⟩ }

/-- An MFL that raises what it may raise. -/
def eager : MflTiming := ⟨true, true, true, true⟩

/-- R87's codes of `h_space`, and back. -/
theorem test_space_codes :
    [Space.reg, .ibuf, .obuf, .blk].map spaceCode = [0, 1, 2, 3] ∧
    [0, 1, 2, 3].map spaceOfCode = [Space.reg, .ibuf, .obuf, .blk] := by decide

/-- V24's request on the pins, block byte 0 in the lowest bits, and its transfer. -/
theorem test_edge_request :
    waiting.cReq.map (fun r => (r.cReqDec, r.cReqBlock)) = some (false, 0x0d0d0d0d0d0d0d0d0d0d0d0d0d636261) ∧
    nextOf id (waiting.edge quietPins eager) = some waitingTaken := by decide +kernel

/-- V14's answer on the pins: the block step is done, and the final step is next. -/
theorem test_edge_answer :
    nextOf (fun t => (t.phase, t.work, t.outstanding))
      (waitingTaken.edge { quietPins with cRspValid := true, cRspBlock := 0x802a28262422201e1c1a181614126663 } eager) =
    some (.final, (hexBlock 0x6366121416181a1c1e20222426282a80).toList, none) := by decide +kernel

/-- `rst` and a host write at one edge (log 20), the request's answer still to come (R271). -/
theorem test_edge_reset :
    nextOf (fun t => (t.phase, t.status, t.ibuf, t.late))
      (waitingTaken.edge { quietPins with rst := true, hValid := true, host := ⟨true, 1, 0, 0xff⟩ } eager) =
    some (.idle, 0x00, waiting.ibuf, ⟨1, 0⟩) := by decide +kernel

/-! ### Witnesses: for each statement with hypotheses, states and operands that meet them, at the boundary values -/

/-- Command `i` latched under the capacity of reset, with lengths `len` and `blocks`, buffers of zeros, the key zero, a
cipher that answers the zero block and a random source that answers the zero block. -/
def sized (i : Instr) (len blocks : Nat) : State :=
  withPorts [⟨.dec, zeroBlock, zeroBlock, blockOf fun _ => 0x01⟩, ⟨.enc, zeroBlock, zeroBlock, blockOf fun _ => 0x01⟩]
    [.ok zeroBlock]
    { State.reset with
      opc := opcodeOf i, status := 0x01, phase := .check, ilen := BitVec.ofNat 32 len, nblk := BitVec.ofNat 32 blocks }

/-- Does command `i` end with `status` in `s`? -/
def endsWith (i : Instr) (s : State) (status : Byte) : Bool :=
  match exec i s with
  | .next t => decide (t.phase = .idle) && decide (t.status = status)
  | .fault _ | .refused _ => false

theorem exists_of_endsWith {i : Instr} {s : State} {status : Byte} (h : endsWith i s status = true) :
    ∃ t, exec i s = .next t ∧ t.phase = .idle ∧ t.status = status := by
  unfold endsWith at h
  cases ho : exec i s with
  | next t =>
    rw [ho] at h
    simp only [Bool.and_eq_true, decide_eq_true_eq] at h
    exact ⟨t, rfl, h.1, h.2⟩
  | fault f => rw [ho] at h; cases h
  | refused r => rw [ho] at h; cases h

/-- The invariant's fields at a state at rest, as one decidable proposition. -/
abbrev restFields (s : State) : Prop :=
  (s.phase = .idle ∨ s.phase = .check) ∧ s.params.wf = true ∧
  (s.ibuf.wf = true ∧ s.ibuf.below s.params.capBytes = true) ∧ (s.blk.wf = true ∧ s.blk.below s.blkSize = true) ∧
  (s.olen.toNat = s.obuf.length ∧ s.obuf.length ≤ s.params.capBytes) ∧ ctrlBits s.ctrl = s.ctrl ∧
  s.status ∈ statusValues ∧ (s.busy = true ↔ s.phase ≠ .idle) ∧ s.hiddenClear

theorem inv_of_restFields {s : State} (h : restFields s) : s.Inv :=
  State.inv_of_rest h.1 h.2.1 h.2.2.1 h.2.2.2.1 h.2.2.2.2.1 h.2.2.2.2.2.1 h.2.2.2.2.2.2.1 h.2.2.2.2.2.2.2.1
    h.2.2.2.2.2.2.2.2

theorem inv_reset : State.reset.Inv := inv_of_restFields (by decide +kernel)

theorem inv_latched : (latched .cbcEnc [0x61, 0x62, 0x63]).Inv := inv_of_restFields (by decide +kernel)

/-- `CBC_ENC` waiting on a random source that does not answer. -/
def waitingRandom : State :=
  { latched .cbcEnc [0x61, 0x62, 0x63] with
    phase := .rand, n := 1, rng := { script := [], count := 0, live := false }
    outstanding := some ⟨.random 16, false⟩, requests := [.random 16] }

/-- The invariant's fields but the sequencer's, at a state inside a command. -/
abbrev busyFields (i : Instr) (s : State) : Prop :=
  s.command = some i ∧ s.status ∈ statusValues ∧ (s.busy = true ↔ s.phase ≠ .idle) ∧ ctrlBits s.ctrl = s.ctrl ∧
  s.params.wf = true ∧ s.olen.toNat = s.obuf.length ∧ s.obuf.length ≤ s.params.capBytes ∧
  (s.ibuf.wf && s.ibuf.below s.params.capBytes && s.blk.wf && s.blk.below s.blkSize) = true

theorem inv_of_busyFields {s : State} {i : Instr} (h : busyFields i s) (hp : s.phaseOk i) : s.Inv := by
  obtain ⟨hc, hs, hb, hk, hw, ho, hl, hm⟩ := h
  simp only [Bool.and_eq_true] at hm
  exact State.inv_of_running hc hw hm.1.1 ⟨hm.1.2, hm.2⟩ ⟨ho, hl⟩ hk hs hb hp

theorem phaseOk_waiting : waiting.phaseOk .ecbEnc := by
  show _ ∧ State.checksPass .ecbEnc waiting ∧ _
  decide +kernel

theorem phaseOk_waitingRandom : waitingRandom.phaseOk .cbcEnc := by
  show _ ∧ State.checksPass .cbcEnc waitingRandom ∧ _
  decide +kernel

theorem inv_waiting : waiting.Inv := inv_of_busyFields (by decide +kernel) phaseOk_waiting

theorem inv_waitingRandom : waitingRandom.Inv := inv_of_busyFields (by decide +kernel) phaseOk_waitingRandom

theorem test_witness_DecodeInvertsEncodeOnStreams :
    ∀ i ∈ [Instr.pad, .unpad, .group, .ungroup, .xor, .ecbEnc, .ecbDec, .cbcEnc, .cbcDec, .ctrEnc, .ctrDec],
      i.wf = true := by decide

theorem test_witness_IllegalCommandTouchesNothing :
    State.reset.Inv ∧ State.reset.phase = .idle ∧ decodeByte 0x00 = none ∧ decodeByte 0x12 = none ∧
    decodeByte 0xff = none := ⟨inv_reset, rfl, by decide, by decide, by decide⟩

theorem test_witness_StepRunsTheLatchedCommand :
    (latched .xor []).phase = .check ∧ (decode [(latched .xor []).opc]).toOption = some (.xor, []) ∧
    (latched .xor []).agenda = [] ∧ (State.withFetchWord State.reset 8 0x05).phase = .check ∧
    (State.withFetchWord State.reset 8 0x05).agenda = [.mfl] := by decide +kernel

theorem test_witness_FetchWordRunsNext :
    decodeTableWord 8 0x20 = some .cbcEnc ∧ decodeTableWord 8 0x120 = some .cbcEnc := by decide

theorem test_witness_StepTakesTheNextMove :
    ({ waiting with agenda := [.host (.read .reg 0x02)] } : State).agenda = [.host (.read .reg 0x02)] ∧
    ({ waiting with agenda := [.reset, .mfl] } : State).agenda = [.reset, .mfl] ∧
    ({ waiting with agenda := [.mflStep] } : State).agenda = [.mflStep] ∧
    ({ waiting with agenda := [.edge quietPins eager] } : State).agenda = [.edge quietPins eager] ∧
    ({ waiting with agenda := [.answering true false] } : State).agenda = [.answering true false] ∧
    ({ State.reset with agenda := [.mfl] } : State).agenda = [.mfl] ∧
    (({ waiting with agenda := [.mfl] } : State).agenda = [.mfl] ∧ waiting.phase = .block ∧ waiting.agenda = []) ∧
    (State.startCommand 0x12 { State.reset with agenda := [.mfl] }).agenda = [.mfl] ∧
    State.reset.agenda = [] ∧ State.reset.phase = .idle := by decide +kernel

theorem test_witness_ValidatorLooksAtLastByteAndLength :
    ([0x01, 0x02, 0x03] : List Byte).length = ([0xff, 0xff, 0xff] : List Byte).length := rfl

theorem test_witness_PadResult :
    (sized .pad 65 0).params.capBytes < (sized .pad 65 0).inLen ∧
    (sized .pad 64 0).params.capBytes < (sized .pad 64 0).inLen + (16 - (sized .pad 64 0).inLen % 16) ∧
    (sized .pad 63 0).inLen + (16 - (sized .pad 63 0).inLen % 16) ≤ (sized .pad 63 0).params.capBytes ∧
    (sized .pad 63 0).params.wf = true ∧ endsWith .pad (sized .pad 63 0) 0x02 = true ∧
    endsWith .pad (sized .pad 0 0) 0x02 = true := by decide +kernel

theorem test_witness_UnpadResult :
    (sized .unpad 65 0).params.capBytes < (sized .unpad 65 0).inLen ∧
    (sized .unpad 64 0).inLen ≤ (sized .unpad 64 0).params.capBytes := by decide +kernel

theorem test_witness_GroupResult :
    (sized .group 65 0).blk.wf = true ∧ (sized .group 65 0).params.capBytes < (sized .group 65 0).inLen ∧
    (sized .group 63 0).inLen ≤ (sized .group 63 0).params.capBytes ∧ (sized .group 63 0).inLen % 16 ≠ 0 ∧
    (sized .group 64 0).inLen ≤ (sized .group 64 0).params.capBytes ∧ (sized .group 64 0).inLen % 16 = 0 := by
  decide +kernel

theorem test_witness_UngroupResult :
    (sized .ungroup 0 5).params.capBytes < 16 * (sized .ungroup 0 5).nblk.toNat ∧
    (sized .ungroup 0 0x10000000).params.capBytes < 16 * (sized .ungroup 0 0x10000000).nblk.toNat ∧
    16 * (sized .ungroup 0 4).nblk.toNat ≤ (sized .ungroup 0 4).params.capBytes := by decide +kernel

theorem test_witness_indexes :
    1 < (List.replicate 32 (0x00 : Byte)).length / 16 ∧ 15 < 16 ∧ 7 < 8 ∧ 3 < 4 ∧
    2 < [zeroBlock, zeroBlock, zeroBlock].length ∧ 0 < [zeroBlock].length := by decide

theorem test_witness_EcbEncResult :
    (sized .ecbEnc 65 0).params.capBytes < (sized .ecbEnc 65 0).inLen ∧
    (sized .ecbEnc 64 0).params.capBytes < 16 * ((sized .ecbEnc 64 0).inLen / 16 + 1) ∧
    (sized .ecbEnc 63 0).inLen ≤ (sized .ecbEnc 63 0).params.capBytes ∧
    16 * ((sized .ecbEnc 63 0).inLen / 16 + 1) ≤ (sized .ecbEnc 63 0).params.capBytes ∧
    (sized .ecbEnc 63 0).cipher.live = true := by decide +kernel

theorem test_witness_EcbDecResult :
    (sized .ecbDec 65 0).params.capBytes < (sized .ecbDec 65 0).inLen ∧
    (sized .ecbDec 63 0).inLen ≤ (sized .ecbDec 63 0).params.capBytes ∧ (sized .ecbDec 63 0).inLen % 16 ≠ 0 ∧
    (sized .ecbDec 64 0).inLen ≤ (sized .ecbDec 64 0).params.capBytes ∧ (sized .ecbDec 64 0).inLen % 16 = 0 ∧
    (sized .ecbDec 0 0).inLen % 16 = 0 ∧ (sized .ecbDec 64 0).cipher.live = true := by decide +kernel

theorem test_witness_CbcEncResult :
    (sized .cbcEnc 48 0).params.capBytes < 16 + 16 * ((sized .cbcEnc 48 0).inLen / 16 + 1) ∧
    (sized .cbcEnc 47 0).inLen ≤ (sized .cbcEnc 47 0).params.capBytes ∧
    16 + 16 * ((sized .cbcEnc 47 0).inLen / 16 + 1) ≤ (sized .cbcEnc 47 0).params.capBytes ∧
    (sized .cbcEnc 47 0).live ∧ (sized .cbcEnc 47 0).rng.answer = .ok zeroBlock ∧
    (withPorts [] [.fail] (sized .cbcEnc 47 0)).rng.live = true ∧
    (withPorts [] [.fail] (sized .cbcEnc 47 0)).rng.answer = .fail := by decide +kernel

theorem test_witness_CbcDecResult :
    (sized .cbcDec 65 0).params.capBytes < (sized .cbcDec 65 0).inLen ∧
    (sized .cbcDec 15 0).inLen < 16 ∧ (sized .cbcDec 17 0).inLen % 16 ≠ 0 ∧
    16 ≤ (sized .cbcDec 16 0).inLen ∧ (sized .cbcDec 16 0).inLen % 16 = 0 ∧
    (sized .cbcDec 64 0).inLen ≤ (sized .cbcDec 64 0).params.capBytes ∧ (sized .cbcDec 64 0).inLen % 16 = 0 ∧
    (sized .cbcDec 64 0).cipher.live = true := by decide +kernel

theorem test_witness_CtrEncResult :
    (sized .ctrEnc 48 0).params.capBytes < 8 + 16 * ((sized .ctrEnc 48 0).inLen / 16 + 1) ∧
    (sized .ctrEnc 47 0).inLen ≤ (sized .ctrEnc 47 0).params.capBytes ∧
    8 + 16 * ((sized .ctrEnc 47 0).inLen / 16 + 1) ≤ (sized .ctrEnc 47 0).params.capBytes ∧
    (sized .ctrEnc 47 0).live ∧ (sized .ctrEnc 47 0).rng.answer = .ok zeroBlock ∧
    (withPorts [] [.fail] (sized .ctrEnc 47 0)).rng.live = true ∧
    (withPorts [] [.fail] (sized .ctrEnc 47 0)).rng.answer = .fail := by decide +kernel

theorem test_witness_CtrDecResult :
    (sized .ctrDec 65 0).params.capBytes < (sized .ctrDec 65 0).inLen ∧
    (sized .ctrDec 7 0).inLen < 8 ∧ ((sized .ctrDec 9 0).inLen - 8) % 16 ≠ 0 ∧
    8 ≤ (sized .ctrDec 8 0).inLen ∧ ((sized .ctrDec 8 0).inLen - 8) % 16 = 0 ∧
    zeroNonce.toList = (sized .ctrDec 8 0).input.take 8 ∧
    (sized .ctrDec 56 0).inLen ≤ (sized .ctrDec 56 0).params.capBytes ∧ ((sized .ctrDec 56 0).inLen - 8) % 16 = 0 ∧
    zeroNonce.toList = (sized .ctrDec 56 0).input.take 8 ∧ (sized .ctrDec 56 0).cipher.live = true := by decide +kernel

/-- A cipher that answers the padded empty input with the zero block. -/
def emptyCbc : State :=
  withPorts [⟨.enc, blockOf fun _ => 0x10, zeroBlock, zeroBlock⟩] [.ok zeroBlock] (sized .cbcEnc 0 0)

/-- `CBC_ENC` of the empty input and `CTR_ENC` of 0 and of 13 bytes end well; `CBC_DEC` of one and of two blocks ends. -/
theorem test_witness_CbcCtrLengths :
    (emptyCbc.params.wf = true ∧ endsWith .cbcEnc emptyCbc 0x02 = true) ∧
    (endsWith .cbcDec (sized .cbcDec 16 0) 0x52 = true ∧ (sized .cbcDec 16 0).inLen = 16 * (0 + 1)) ∧
    (endsWith .cbcDec (sized .cbcDec 32 0) 0x02 = true ∧ (sized .cbcDec 32 0).inLen = 16 * (1 + 1)) ∧
    (endsWith .ctrEnc (sized .ctrEnc 0 0) 0x02 = true) ∧
    (endsWith .ctrEnc (sized .ctrEnc 13 0) 0x02 = true ∧ (sized .ctrEnc 13 0).inLen = 13) := by decide +kernel

theorem test_witness_EcbShowsEqualBlocks :
    (∃ t, exec .ecbEnc (sized .ecbEnc 32 0) = .next t ∧ t.phase = .idle ∧ t.status = 0x02) ∧
    (sized .ecbEnc 32 0).params.wf = true ∧ 0 < (sized .ecbEnc 32 0).inLen / 16 + 1 ∧
    1 < (sized .ecbEnc 32 0).inLen / 16 + 1 ∧
    (groupBytes (padBytes (sized .ecbEnc 32 0).input))[0]? = (groupBytes (padBytes (sized .ecbEnc 32 0).input))[1]? :=
  ⟨exists_of_endsWith (by decide +kernel), by decide +kernel⟩

theorem test_witness_FetchedBlocks :
    3 < (sized .pad 63 0).inLen / 16 + 1 ∧ 2 < (sized .pad 63 0).inLen / 16 ∧
    2 < ((sized .ctrDec 56 0).inLen - 8) / 16 := by decide +kernel

theorem test_witness_LevelsAgree :
    State.reset.Inv ∧ State.reset.phase = .idle ∧ decodeByte 0x20 = some .cbcEnc ∧
    3 + State.reset.blockCount .cbcEnc ≤ 4 ∧ decodeByte 0x22 = none ∧ State.reset.live :=
  ⟨inv_reset, rfl, by decide, by decide +kernel, by decide, by decide +kernel⟩

theorem test_witness_CommandsTerminate :
    (sized .ecbEnc 63 0).Inv ∧ (sized .ecbEnc 63 0).phase = .check ∧ (sized .ecbEnc 63 0).command = some .ecbEnc ∧
    (sized .ecbEnc 63 0).live ∧ isMode .ecbEnc = true ∧ State.checksPass .ecbEnc (sized .ecbEnc 63 0) :=
  ⟨inv_of_restFields (by decide +kernel), by decide +kernel⟩

/-- One run for each clause: no random request made, one made; a unit command; `STATUS` 0x02, 0x06, 0x52 after `N`
requests; 0x22, 0x32, 0x42 after none. -/
theorem test_witness_RequestsOfACommand :
    (sized .ctrEnc 0 0).live ∧
    endsWith .ctrEnc (sized .ctrEnc 0 0) 0x02 = true ∧ endsWith .cbcEnc (sized .cbcEnc 48 0) 0x22 = true ∧
    endsWith .cbcEnc (withPorts [] [.fail] (sized .cbcEnc 0 0)) 0x42 = true ∧
    endsWith .xor (sized .xor 0 0) 0x02 = true ∧ endsWith .ecbDec (sized .ecbDec 15 0) 0x32 = true ∧
    endsWith .ecbDec (sized .ecbDec 0 0) 0x52 = true ∧ endsWith .ecbDec (permissive (sized .ecbDec 0 0)) 0x06 = true := by
  decide +kernel

theorem test_witness_WaitsForEver :
    (waiting.Inv ∧ waiting.phase = .block ∧ waiting.cipher.live = false) ∧
    (waitingRandom.Inv ∧ waitingRandom.phase = .rand ∧ waitingRandom.rng.live = false) :=
  ⟨⟨inv_waiting, rfl, rfl⟩, inv_waitingRandom, rfl, rfl⟩

theorem test_witness_FailedCommandLeavesNothing :
    (∃ t, exec .group (sized .group 15 0) = .next t ∧ t.phase = .idle ∧ t.status = 0x32) ∧
    (∃ t, exec .unpad (sized .unpad 0 0) = .next t ∧ t.phase = .idle ∧ t.status = 0x52) ∧
    (∀ t : State, t.status = 0x32 ∨ t.status = 0x52 → t.err ≠ 0) := by
  refine ⟨exists_of_endsWith (by decide +kernel), exists_of_endsWith (by decide +kernel), ?_⟩
  rintro t (h | h) <;> simp [State.err, errOf, h]

/-- An illegal command latched. -/
theorem test_witness_illegal_latched :
    (State.startCommand 0x12 State.reset).phase = .check ∧ (State.startCommand 0x12 State.reset).command = none := by
  decide +kernel

theorem test_witness_ErrorTable :
    (∃ t, exec .unpad (permissive (sized .unpad 0 0)) = .next t ∧ t.phase = .idle ∧ t.status = 0x06) ∧
    (permissive (sized .unpad 0 0)).params.wf = true ∧ 0x06 ∈ endsOf .unpad :=
  ⟨exists_of_endsWith (by decide +kernel), by decide +kernel, by decide⟩

/-- A next state for one command of each destination; `destOf`, `drawsRandom` and `isMode` each with both answers. -/
theorem test_witness_CommandFrame :
    (sized .group 32 0).blk.wf = true ∧ endsWith .group (sized .group 32 0) 0x02 = true ∧ destOf .group = .nblk ∧
    endsWith .xor (sized .xor 0 0) 0x02 = true ∧ destOf .xor = .xc ∧ isMode .xor = false ∧
    endsWith .ecbEnc (sized .ecbEnc 64 0) 0x22 = true ∧ destOf .ecbEnc = .obuf ∧ drawsRandom .ecbEnc = false ∧
    16 * ((sized .group 32 0).inLen / 16) ≤ 32 := by decide +kernel

theorem test_witness_SequencerNeverWritesInputs : ∃ t, waiting.seqStep = .next t := ⟨_, rfl⟩

theorem test_witness_BytesBeyondIlenAreIgnored :
    (∀ a, a < (latched .unpad [0x02, 0x02]).inLen →
      Memory.read (Memory.writeSeq [] 0 [0x02, 0x02, 0xff]) a = (latched .unpad [0x02, 0x02]).ibuf.read a) ∧
    ∃ t, exec .unpad (latched .unpad [0x02, 0x02]) = .next t := by
  refine ⟨?_, ⟨_, rfl⟩⟩
  show ∀ a, a < 2 → _
  decide +kernel

theorem test_witness_busy : waiting.busy = true ∧ ¬(Space.ibuf = .reg ∧ ((0 : Nat) = 0x00 ∨ (0 : Nat) = 0x02)) := by
  decide +kernel

/-- Idle, with the boundary addresses of the register map's clauses. -/
theorem test_witness_idle :
    State.reset.busy = false ∧ (0x03 = 0x03 ∨ 0x50 ≤ 0x03) ∧ (0x50 = 0x03 ∨ 0x50 ≤ 0x50) ∧
    (0x08 ≤ 0x08 ∧ 0x0B < 0x0C) ∧ (0x40 ≤ 0x40 ∧ 0x4F < 0x50) := by decide +kernel

/-- A capacity that is no multiple of 16: `IBUF` ends at 72, `BLK` at 64. -/
def wide : State := State.afterPowerOn { capBytes := 72, ctrEndian := .be } [] []

theorem test_witness_BufferAccesses :
    wide.Inv ∧ wide.busy = false ∧ 71 < wide.params.capBytes ∧ 63 < 16 * (wide.params.capBytes / 16) :=
  ⟨inv_of_restFields (by decide +kernel), by decide +kernel⟩

theorem test_witness_BeyondTheSpaces :
    wide.Inv ∧ wide.busy = false ∧ wide.params.capBytes ≤ 72 ∧ 16 * (wide.params.capBytes / 16) ≤ 64 :=
  ⟨inv_of_restFields (by decide +kernel), by decide +kernel⟩

theorem test_witness_WritesAreIdempotent :
    State.reset.Inv ∧ ¬(Space.reg = .reg ∧ (0x01 : Nat) = 0x00) ∧ ¬(Space.ibuf = .reg ∧ (0x00 : Nat) = 0x00) :=
  ⟨inv_reset, by decide, by decide⟩

theorem test_witness_StartOfACommand :
    State.reset.Inv ∧ State.reset.phase = .idle ∧ waiting.Inv ∧ waiting.phase ≠ .idle :=
  ⟨inv_reset, rfl, inv_waiting, by decide⟩

/-- Running; ended with `PADINV`; ended with `ERR_PADDING`. -/
theorem test_witness_StatusFields :
    (waiting.Inv ∧ waiting.busy = true) ∧
    (({ State.reset with status := 0x06 } : State).Inv ∧ State.padinv { State.reset with status := 0x06 } = true ∧
      State.done { State.reset with status := 0x06 } = true) ∧
    (({ State.reset with status := 0x52 } : State).Inv ∧ State.err { State.reset with status := 0x52 } = 5) :=
  ⟨⟨inv_waiting, by decide +kernel⟩, ⟨inv_of_restFields (by decide +kernel), by decide +kernel, by decide +kernel⟩,
   inv_of_restFields (by decide +kernel), by decide +kernel⟩

theorem test_witness_ResetGivesTheTable : ({ waiting with agenda := [.reset] } : State).agenda = .reset :: [] := rfl

theorem test_witness_ResetDiscardsTheLateAnswer :
    waitingRandom.Inv ∧ waitingRandom.command = some .cbcEnc ∧ waitingRandom.phase = .rand ∧ waitingRandom.rng.live = false ∧
    (latched .cbcEnc [0x61, 0x62, 0x63]).Inv ∧ (latched .cbcEnc [0x61, 0x62, 0x63]).command = some .cbcEnc ∧
    (latched .cbcEnc [0x61, 0x62, 0x63]).outstanding = none :=
  ⟨inv_waitingRandom, by decide +kernel, rfl, rfl, inv_latched, by decide +kernel, rfl⟩

theorem test_witness_ResetStateMeetsInvariant :
    Params.wf { capBytes := 64, ctrEndian := .be } = true ∧ Memory.wf [(0, 0x01), (63, 0xff)] = true ∧
    Memory.below 64 [(0, 0x01), (63, 0xff)] = true ∧ Memory.below (16 * (64 / 16)) [(0, 0x01), (63, 0xff)] = true := by
  decide

theorem test_witness_StepKeepsInvariant : waiting.Inv ∧ ∃ t, step waiting = .next t := ⟨inv_waiting, _, rfl⟩

theorem test_witness_StepNeverStops : State.reset.Inv ∧ waiting.Inv ∧ waitingRandom.Inv :=
  ⟨inv_reset, inv_waiting, inv_waitingRandom⟩

theorem test_witness_PadRoundTrip :
    State.reset.Inv ∧ State.reset.phase = .idle ∧ (List.replicate 48 (0xaa : Byte)).length + 16 ≤ State.reset.params.capBytes :=
  ⟨inv_reset, rfl, by decide⟩

theorem test_witness_SegmenterRoundTrip :
    State.reset.Inv ∧ State.reset.phase = .idle ∧ (List.replicate 64 (0xaa : Byte)).length % 16 = 0 ∧
    (List.replicate 64 (0xaa : Byte)).length ≤ State.reset.params.capBytes ∧
    16 * (List.replicate 4 zeroBlock).length ≤ State.reset.params.capBytes := ⟨inv_reset, rfl, by decide⟩

/-- A cipher that inverts on the four blocks of 63 zero bytes padded. -/
def ecbCipher : State :=
  withPorts
    [⟨.enc, zeroBlock, k1, hexBlock 0x01⟩, ⟨.dec, hexBlock 0x01, k1, zeroBlock⟩, ⟨.enc, hexBlock 0x01, k1, hexBlock 0x02⟩,
     ⟨.dec, hexBlock 0x02, k1, hexBlock 0x01⟩] [] State.reset

theorem test_witness_EcbRoundTrip :
    ecbCipher.Inv ∧ ecbCipher.phase = .idle ∧ ecbCipher.live ∧
    16 * ((List.replicate 63 (0x00 : Byte)).length / 16 + 1) ≤ ecbCipher.params.capBytes ∧
    ecbCipher.cipher.inverseOn k1 (groupBytes (padBytes (List.replicate 63 0x00))) := by
  refine ⟨inv_of_restFields (by decide +kernel), by decide +kernel, by decide +kernel, by decide +kernel, ?_⟩
  have h : groupBytes (padBytes (List.replicate 63 0x00)) = [zeroBlock, zeroBlock, zeroBlock, hexBlock 0x01] := by
    decide +kernel
  have h0 : ecbCipher.cipher.answer .enc zeroBlock k1 = hexBlock 0x01 ∧
      ecbCipher.cipher.answer .enc (hexBlock 0x01) k1 = hexBlock 0x02 := by decide +kernel
  have h1 : ecbCipher.cipher.answer .dec (hexBlock 0x01) k1 = zeroBlock ∧
      ecbCipher.cipher.answer .dec (hexBlock 0x02) k1 = hexBlock 0x01 := by decide +kernel
  rw [h]
  simp [CipherPort.inverseOn, h0, h1]

/-- A cipher that inverts on the block `CBC_ENC` makes of `616263` under IVa (V18 (a)), and a source that draws IVa. -/
def cbcCipher : State :=
  withPorts
    [⟨.enc, hexBlock 0xc1c3c1aea9a8abaaa5a4a7a6a1a0a3a2, k1, hexBlock 0xc4c4b3b0b1b6b7b4b5babbb8b9bebfe0⟩,
     ⟨.dec, hexBlock 0xc4c4b3b0b1b6b7b4b5babbb8b9bebfe0, k1, hexBlock 0xc1c3c1aea9a8abaaa5a4a7a6a1a0a3a2⟩]
    [.ok iva] State.reset

theorem test_witness_CbcRoundTrip :
    cbcCipher.Inv ∧ cbcCipher.phase = .idle ∧ cbcCipher.live ∧
    16 + 16 * (([0x61, 0x62, 0x63] : List Byte).length / 16 + 1) ≤ cbcCipher.params.capBytes ∧
    cbcCipher.rng.answer = .ok iva ∧
    cbcCipher.cipher.inverseOn k1
      (cbcCombined (fun b => cbcCipher.cipher.answer .enc b k1) iva (groupBytes (padBytes [0x61, 0x62, 0x63]))) := by
  refine ⟨inv_of_restFields (by decide +kernel), by decide +kernel, by decide +kernel, by decide +kernel, by decide +kernel, ?_⟩
  have h : groupBytes (padBytes [0x61, 0x62, 0x63]) = [hexBlock 0x6162630d0d0d0d0d0d0d0d0d0d0d0d0d] := by decide +kernel
  have hx : xor16 (hexBlock 0x6162630d0d0d0d0d0d0d0d0d0d0d0d0d) iva = hexBlock 0xc1c3c1aea9a8abaaa5a4a7a6a1a0a3a2 := by
    decide +kernel
  have h0 : cbcCipher.cipher.answer .enc (hexBlock 0xc1c3c1aea9a8abaaa5a4a7a6a1a0a3a2) k1 =
      hexBlock 0xc4c4b3b0b1b6b7b4b5babbb8b9bebfe0 := by decide +kernel
  have h1 : cbcCipher.cipher.answer .dec (hexBlock 0xc4c4b3b0b1b6b7b4b5babbb8b9bebfe0) k1 =
      hexBlock 0xc1c3c1aea9a8abaaa5a4a7a6a1a0a3a2 := by decide +kernel
  rw [h]
  simp [CipherPort.inverseOn, cbcCombined, hx, h0, h1]

theorem test_witness_CtrRoundTrip :
    (withPorts [] [.ok nca] State.reset).Inv ∧ (withPorts [] [.ok nca] State.reset).phase = .idle ∧
    (withPorts [] [.ok nca] State.reset).live ∧
    8 + 16 * ((List.replicate 47 (0xaa : Byte)).length / 16 + 1) ≤ (withPorts [] [.ok nca] State.reset).params.capBytes ∧
    (withPorts [] [.ok nca] State.reset).rng.answer = .ok nca :=
  ⟨inv_of_restFields (by decide +kernel), by decide +kernel⟩

theorem inv_waitingTaken : waitingTaken.Inv :=
  inv_of_busyFields (i := .ecbEnc) (by decide +kernel)
    (by show _ ∧ State.checksPass .ecbEnc waitingTaken ∧ _; decide +kernel)

/-- `CBC_ENC` waiting on a random source that has taken its request. -/
def randomTaken : State := { waitingRandom with outstanding := some ⟨.random 16, true⟩ }

theorem inv_randomTaken : randomTaken.Inv :=
  inv_of_busyFields (i := .cbcEnc) (by decide +kernel)
    (by show _ ∧ State.checksPass .cbcEnc randomTaken ∧ _; decide +kernel)

/-- With one answer of each collaborator still to come from before a reset. -/
def withLate (s : State) : State := { s with late := ⟨1, 1⟩ }

/-- `CBC_ENC` waiting on a random source that answers. -/
def randomAwaited : State := waitingRandom.answering true true

/-- A random request outstanding, the source answering; a cipher request; each of them taken. -/
theorem test_witness_ResetDiscardsTheLateAnswer_asked :
    (randomAwaited.Inv ∧ randomAwaited.command = some .cbcEnc ∧ randomAwaited.rng.live = true ∧
      randomAwaited.asked = some (.random 16) ∧ randomAwaited.outstanding = some ⟨.random 16, false⟩) ∧
    (waiting.Inv ∧ waiting.command = some .ecbEnc ∧
      waiting.asked = some (.cipher .enc (hexBlock 0x6162630d0d0d0d0d0d0d0d0d0d0d0d0d) k1)) ∧
    (randomTaken.Inv ∧ randomTaken.command = some .cbcEnc ∧ randomTaken.outstanding = some ⟨.random 16, true⟩) ∧
    (waitingTaken.Inv ∧ waitingTaken.command = some .ecbEnc ∧
      waitingTaken.outstanding = some ⟨.cipher .enc (hexBlock 0x6162630d0d0d0d0d0d0d0d0d0d0d0d0d) k1, true⟩) :=
  ⟨⟨inv_congr inv_waitingRandom rfl, by decide +kernel⟩, ⟨inv_waiting, by decide +kernel⟩,
   ⟨inv_randomTaken, by decide +kernel⟩, inv_waitingTaken, by decide +kernel⟩

/-- The pins of `EdgesOfTheBinding`: reset with both request ports ready, and with neither; answers that transfer. -/
theorem test_witness_EdgesOfTheBinding_pins :
    (InputPins.rst { quietPins with rst := true } = true ∧ quietPins.cReqReady = true ∧ quietPins.rReqReady = true ∧
      InputPins.cReqReady { quietPins with cReqReady := false } = false ∧
      InputPins.rReqReady { quietPins with rReqReady := false } = false) ∧
    waitingTaken.cipherAnswers { quietPins with cRspValid := true } eager = true ∧
    waitingTaken.cipherAnswers quietPins eager = false ∧
    randomTaken.randomAnswers { quietPins with rRspValid := true } eager = true ∧
    (withLate State.reset).randomAnswers { quietPins with rRspValid := true } eager = true ∧
    quietPins.rst = false ∧ quietPins.hValid = false ∧ quietPins.cRspValid = false ∧ quietPins.rRspValid = false ∧
    InputPins.hValid { quietPins with hValid := true } = true ∧ eager.hReady = true := by decide +kernel

/-- A host polling `STATUS` at an edge at which the running command takes its check step (log 22): the byte read is the
one of before the edge, and the step is taken. -/
theorem test_edge_poll :
    nextOf (fun t => (t.readData, t.phase))
      ((latched .ecbEnc [0x61, 0x62, 0x63]).edge { quietPins with hValid := true, host := ⟨false, 0, 2, 0⟩ } eager) =
    some ([0x01], .block) := by decide +kernel

/-- At rest, in the block step, in the random step and in the final step, with collaborators that answer. -/
theorem test_witness_CommandsTerminate_left_alone :
    (State.reset.Inv ∧ State.reset.live) ∧ ((waiting.answering true true).Inv ∧ (waiting.answering true true).live) ∧
    (randomAwaited.Inv ∧ randomAwaited.phase = .rand ∧ randomAwaited.live) ∧
    (∃ t, (sized .unpad 16 0).seqRun 1 = .next t ∧ t.Inv ∧ t.phase = .final ∧ t.live) :=
  ⟨⟨inv_reset, by decide +kernel⟩, ⟨inv_congr inv_waiting rfl, by decide +kernel⟩,
   ⟨inv_congr inv_waitingRandom rfl, by decide +kernel⟩,
   ⟨_, rfl, inv_seqRun 1 (s := sized .unpad 16 0) (inv_of_restFields (by decide +kernel)) rfl, by decide +kernel⟩⟩

/-- Idle; running with nothing outstanding; a request on each port; a request taken on each port; the same with late answers before it. -/
theorem test_witness_EdgesOfTheBinding :
    (State.reset.Inv ∧ State.reset.busy = false) ∧
    ((latched .cbcEnc [0x61, 0x62, 0x63]).Inv ∧ (latched .cbcEnc [0x61, 0x62, 0x63]).busy = true ∧
      (latched .cbcEnc [0x61, 0x62, 0x63]).outstanding = none) ∧
    (waiting.Inv ∧ waiting.outstanding = some ⟨.cipher .enc (hexBlock 0x6162630d0d0d0d0d0d0d0d0d0d0d0d0d) k1, false⟩) ∧
    (waitingRandom.Inv ∧ waitingRandom.outstanding = some ⟨.random 16, false⟩) ∧
    (waitingTaken.Inv ∧ waitingTaken.command = some .ecbEnc ∧ waitingTaken.late.cipher = 0 ∧
      waitingTaken.outstanding = some ⟨.cipher .enc (hexBlock 0x6162630d0d0d0d0d0d0d0d0d0d0d0d0d) k1, true⟩) ∧
    (randomTaken.Inv ∧ randomTaken.outstanding = some ⟨.random 16, true⟩ ∧ randomTaken.late.random = 0) ∧
    ((withLate waitingTaken).Inv ∧ 0 < (withLate waitingTaken).late.cipher) ∧
    ((withLate randomTaken).Inv ∧ 0 < (withLate randomTaken).late.random) :=
  ⟨⟨inv_reset, rfl⟩, ⟨inv_latched, by decide +kernel⟩, ⟨inv_waiting, rfl⟩, ⟨inv_waitingRandom, rfl⟩, ⟨inv_waitingTaken, by decide +kernel⟩,
   ⟨inv_randomTaken, rfl, rfl⟩,
   ⟨inv_congr inv_waitingTaken rfl, by decide⟩, inv_congr inv_randomTaken rfl, by decide⟩

/-- The state of `o` after its request has been taken, where `o` waits for a cipher in the block step of `i`. -/
def takenIn (i : Instr) (o : Host.Outcome State Fault Refusal) : Bool :=
  nextOf (fun t => (t.command, t.phase, (t.takeRequest quietPins).outstanding.map Waiting.accepted)) o =
    some (some i, .block, some true)

theorem exists_of_takenIn {i : Instr} {s : State} {k : Nat} (h : s.Inv) (ht : takenIn i (s.seqRun k) = true) :
    ∃ u : State, u.Inv ∧ u.command = some i ∧ u.outstanding.map Waiting.accepted = some true := by
  cases ho : s.seqRun k with
  | next t =>
    rw [ho] at ht
    simp only [takenIn, nextOf, Option.some.injEq, Prod.mk.injEq, decide_eq_true_eq] at ht
    refine ⟨t.takeRequest quietPins, inv_takeRequest (inv_seqRun k h ho) _, ?_, ht.2.2⟩
    rw [(t.takeRequest_eq quietPins).1]
    exact ht.1
  | fault f => rw [ho] at ht; simp [takenIn, nextOf] at ht
  | refused r => rw [ho] at ht; simp [takenIn, nextOf] at ht

/-- The other modes, their first cipher request taken: `CBC_ENC`, `CTR_ENC`, `CTR_DEC` of one block, `CBC_DEC` too. -/
theorem test_witness_EdgesOfTheBinding_modes :
    ∀ i ∈ [Instr.ecbDec, .cbcEnc, .cbcDec, .ctrEnc, .ctrDec], ∃ u : State,
      u.Inv ∧ u.command = some i ∧ u.outstanding.map Waiting.accepted = some true := by
  have h : ∀ i ∈ [Instr.ecbDec, .cbcEnc, .cbcDec, .ctrEnc, .ctrDec], ∃ n k,
      restFields (State.answering false true (sized i n 0)) ∧
      takenIn i (State.seqRun k (State.answering false true (sized i n 0))) = true := by
    simp only [List.forall_mem_cons]
    refine ⟨⟨16, 2, ?_⟩, ⟨0, 3, ?_⟩, ⟨32, 2, ?_⟩, ⟨0, 3, ?_⟩, ⟨24, 2, ?_⟩, fun _ h => nomatch h⟩ <;> decide +kernel
  intro i hi
  obtain ⟨n, k, hr, ht⟩ := h i hi
  exact exists_of_takenIn (inv_of_restFields hr) ht

end Sys2Proof.Machine
end

section
/-! PROOF. A block on a 128-bit vector (spec/00_scope.md R14): where each bit of `blockBits` comes from, and from it the
byte lanes and the two inverses. -/

namespace Sys2Proof.Machine

/-- The first `n` bytes laid down fill the bits below `8n`, bit `j` with bit `j % 8` of byte `j / 8`, and no other bit. -/
theorem getLsbD_foldl_lanes (b : Block) (n j : Nat) (hj : j < 128) :
    ((List.range n).foldl (fun w i => w ||| ((byteOf b i).setWidth 128 <<< (8 * i))) (0 : BitVec 128)).getLsbD j =
      (decide (j < 8 * n) && (byteOf b (j / 8)).getLsbD (j % 8)) := by
  induction n with
  | zero => simp
  | succ n ih =>
    rw [List.range_succ, List.foldl_append, List.foldl_cons, List.foldl_nil, BitVec.getLsbD_or, ih,
      BitVec.getLsbD_shiftLeft, BitVec.getLsbD_setWidth]
    rcases Nat.lt_or_ge j (8 * n) with hlow | hge
    · simp [hlow, show j < 8 * (n + 1) by omega]
    rcases Nat.lt_or_ge j (8 * (n + 1)) with hlane | habove
    · have hdiv : j / 8 = n := by omega
      have hmod : j - 8 * n = j % 8 := by omega
      simp [hdiv, hmod, hj, hlane, Nat.not_lt.mpr hge, show j % 8 < 128 by omega]
    · have hzero : (byteOf b n).getLsbD (j - 8 * n) = false := BitVec.getLsbD_of_ge _ _ (by omega)
      simp [hzero, Nat.not_lt.mpr hge, Nat.not_lt.mpr habove]

theorem getLsbD_blockBits (b : Block) {j : Nat} (hj : j < 128) :
    (blockBits b).getLsbD j = (byteOf b (j / 8)).getLsbD (j % 8) := by
  rw [blockBits, getLsbD_foldl_lanes b 16 j hj, decide_eq_true hj, Bool.true_and]

theorem extractLsb'_blockBits (b : Block) {k : Nat} (hk : k < 16) :
    (blockBits b).extractLsb' (8 * k) 8 = byteOf b k := by
  apply BitVec.eq_of_getLsbD_eq
  intro i hi
  have hdiv : (8 * k + i) / 8 = k := by omega
  have hmod : (8 * k + i) % 8 = i := by omega
  rw [BitVec.getLsbD_extractLsb', decide_eq_true hi, Bool.true_and, getLsbD_blockBits b (by omega), hdiv, hmod]

theorem byteOf_bitsBlock (w : BitVec 128) {k : Nat} (hk : k < 16) :
    byteOf (bitsBlock w) k = w.extractLsb' (8 * k) 8 := byteOf_blockOf _ hk

theorem bitsBlock_blockBits (b : Block) : bitsBlock (blockBits b) = b :=
  block_ext fun k hk => by rw [byteOf_bitsBlock _ hk, extractLsb'_blockBits b hk]

theorem blockBits_bitsBlock (w : BitVec 128) : blockBits (bitsBlock w) = w := by
  apply BitVec.eq_of_getLsbD_eq
  intro j hj
  have hlane : j % 8 < 8 := Nat.mod_lt j (by decide)
  rw [getLsbD_blockBits _ hj, byteOf_bitsBlock w (by omega), BitVec.getLsbD_extractLsb', decide_eq_true hlane,
    Bool.true_and, Nat.div_add_mod]

/-- Settles O59: every bit of the vector is a bit of one byte of the block (`getLsbD_blockBits`), so the lanes give back
the bytes and the bytes the vector. -/
theorem blockOnTheVector : Obligations.BlockOnTheVector :=
  ⟨fun b _ hk => extractLsb'_blockBits b hk, bitsBlock_blockBits, blockBits_bitsBlock⟩

end Sys2Proof.Machine
end

section
/-! PROOF. The invariant over the whole step function (spec/10_state.md R23 to R41): the sequencer's steps and the host's
accesses keep it (Laws/InvariantSteps), so a command, which is a run of such steps (R210), an edge and every other move
do. -/

namespace Sys2Proof.Machine

/-! ### The state after reset (R50, R52) -/

theorem inv_afterPowerOn {p : Params} {ibuf blk : Memory} (hp : p.wf = true)
    (hi : ibuf.wf = true ∧ ibuf.below p.capBytes = true)
    (hb : blk.wf = true ∧ blk.below (16 * (p.capBytes / 16)) = true) : (State.afterPowerOn p ibuf blk).Inv :=
  State.inv_of_rest (.inl rfl) hp hi hb ⟨rfl, Nat.zero_le _⟩
    (show ctrlBits Config.ctrlReset = Config.ctrlReset by decide) (show (0x00 : Byte) ∈ statusValues by decide)
    (by simp [State.busy, State.afterPowerOn]) ⟨rfl, rfl, rfl, rfl, rfl, rfl, rfl⟩

/-- Settles O51: at rest the invariant asks nothing of the contents of `IBUF` and `BLK` but their canonical form inside
their spaces (`State.inv_of_rest`). -/
theorem resetStateMeetsInvariant : Obligations.ResetStateMeetsInvariant :=
  ⟨fun _ _ _ hp hi hi' hb hb' => inv_afterPowerOn hp ⟨hi, hi'⟩ ⟨hb, hb'⟩, rfl,
    inv_afterPowerOn (by decide) ⟨rfl, rfl⟩ ⟨rfl, rfl⟩⟩

/-! ### A command and the MFL left alone -/

/-- With the invariant, the sequencer's steps from the check step of `i` on are its command-level meaning (R210). -/
theorem State.Inv.seqRun_eq_exec {s : State} {i : Instr} {k : Nat} (h : s.Inv) (hp : s.phase = .check)
    (hc : s.command = some i) (hk : 3 + s.blockCount i ≤ k) : s.seqRun k = exec i s := by
  obtain ⟨hw, hcap⟩ := h.base.cap_lt
  have ho : s.outstanding = none := (h.hidden_of_rest (.inr hp)).2.2.2.2.2.2
  cases i with
  | pad => exact seqRun_eq_exec_pad hp hc (by omega)
  | unpad => exact seqRun_eq_exec_unpad hp hc (by omega)
  | group => exact seqRun_eq_exec_group hp hc (by omega)
  | ungroup => exact seqRun_eq_exec_ungroup hp hc (by omega)
  | xor => exact seqRun_eq_exec_xor (by omega) hp hc (by omega)
  | ecbEnc => exact seqRun_eq_exec_ecbEnc hw ho hp hc hk
  | ecbDec => exact seqRun_eq_exec_ecbDec hw ho hp hc hk
  | cbcEnc => exact seqRun_eq_exec_cbcEnc hw ho hp hc hk
  | cbcDec => exact seqRun_eq_exec_cbcDec hw ho hp hc hk
  | ctrEnc => exact seqRun_eq_exec_ctrEnc hw ho hp hc hk
  | ctrDec => exact seqRun_eq_exec_ctrDec hw ho hp hc hk

theorem inv_exec {s t : State} {i : Instr} (h : s.Inv) (hp : s.phase = .check) (hc : s.command = some i)
    (he : exec i s = .next t) : t.Inv :=
  inv_seqRun _ h ((h.seqRun_eq_exec hp hc (Nat.le_refl _)).trans he)

theorem inv_runCommand {s t : State} (h : s.Inv) (hr : s.runCommand = .next t) : t.Inv := by
  unfold State.runCommand at hr
  split at hr
  case h_1 => cases hr; exact h
  case h_2 hp =>
    split at hr
    case h_1 i hc => exact inv_exec h hp hc hr
    case h_2 => cases hr; exact inv_endIllegal h.base
  all_goals exact inv_seqRun _ h hr

/-! ### An edge of the signal-level binding (R87) -/

/-- An outcome whose next state meets the invariant still does once `f`, which keeps it, is applied. -/
theorem inv_nextWith {f : State → State} {o : Host.Outcome State Fault Refusal} {t : State}
    (hf : ∀ u : State, u.Inv → (f u).Inv) (ho : ∀ u, o = .next u → u.Inv) (h : nextWith f o = .next t) : t.Inv := by
  cases o with
  | next u => cases h; exact hf u (ho u rfl)
  | fault _ => cases h
  | refused _ => cases h

theorem inv_answering {s : State} (h : s.Inv) (c r : Bool) : (s.answering c r).Inv := inv_congr h rfl

theorem inv_seqStepAnswered {s t : State} {a : Bool} (h : s.Inv) (hs : s.seqStepAnswered a = .next t) : t.Inv :=
  inv_nextWith (fun _ hu => inv_answering hu _ _) (fun _ hu => inv_seqStep (inv_answering h a a) hu) hs

theorem inv_sequencerEdge {s t : State} {p : InputPins} {m : MflTiming} (h : s.Inv)
    (hs : s.sequencerEdge p m = .next t) : t.Inv := by
  unfold State.sequencerEdge at hs
  split at hs
  case h_3 => cases hs; exact inv_takeRequest h p
  all_goals
    split at hs
    · exact inv_seqStepAnswered (inv_congr h rfl) hs
    · cases hs; exact h

theorem inv_afterHost {s : State} (h : s.Inv) (p : InputPins) (m : MflTiming) : (s.afterHost p m).Inv := by
  unfold State.afterHost
  split
  · exact inv_hostAccess h _
  · exact h

theorem inv_edge {s t : State} {p : InputPins} {m : MflTiming} (h : s.Inv) (he : s.edge p m = .next t) : t.Inv := by
  unfold State.edge at he
  split at he
  · cases he; exact inv_congr (inv_resetInput h) rfl
  · refine inv_nextWith (fun _ hu => inv_congr hu rfl) (fun u hu => ?_) he
    split at hu
    · exact inv_sequencerEdge (inv_afterHost h p m) hu
    · cases hu; exact inv_afterHost h p m

/-! ### The step -/

theorem inv_takeMove {s t : State} {m : Move} (h : s.Inv) (hm : State.takeMove m s = .next t) : t.Inv := by
  cases m with
  | host x => cases hm; exact inv_hostAccess h x
  | reset => cases hm; exact inv_resetInput h
  | mfl => exact inv_runCommand h hm
  | mflStep => exact inv_seqStep h hm
  | answering c r => cases hm; exact inv_answering h c r
  | edge p m => exact inv_edge h hm

/-- Settles O52: each kind of move keeps the invariant, and taking a move off the agenda does not touch it. -/
theorem stepKeepsInvariant : Obligations.StepKeepsInvariant := by
  intro s t h hs
  unfold step at hs
  split at hs
  · exact inv_runCommand h hs
  · exact inv_takeMove (inv_congr h rfl) hs

end Sys2Proof.Machine
end

section
/-! PROOF. The host port of an idle MFL (spec/10_state.md R22 to R36): what each part of the register map and each buffer
answers and takes, that `KEY` reaches no read, and the fields of `STATUS`. -/

namespace Sys2Proof.Machine

/-! ### The register map, range by range (R22, R23) -/

theorem State.regRead_ilen (s : State) {j : Nat} (hj : j < 4) : s.regRead (0x04 + j) = wordByte s.ilen j := by
  simp (disch := omega) only [State.regRead, if_pos, if_neg, Nat.add_sub_cancel_left]

theorem State.regRead_olen (s : State) {j : Nat} (hj : j < 4) : s.regRead (0x08 + j) = wordByte s.olen j := by
  simp (disch := omega) only [State.regRead, if_pos, if_neg, Nat.add_sub_cancel_left]

theorem State.regRead_nblk (s : State) {j : Nat} (hj : j < 4) : s.regRead (0x0C + j) = wordByte s.nblk j := by
  simp (disch := omega) only [State.regRead, if_pos, if_neg, Nat.add_sub_cancel_left]

theorem State.regRead_key (s : State) {j : Nat} (hj : j < 16) : s.regRead (0x10 + j) = 0x00 := by
  simp (disch := omega) only [State.regRead, if_pos, if_neg]

theorem State.regRead_xa (s : State) {j : Nat} (hj : j < 16) : s.regRead (0x20 + j) = byteOf s.xa j := by
  simp (disch := omega) only [State.regRead, if_pos, if_neg, Nat.add_sub_cancel_left]

theorem State.regRead_xb (s : State) {j : Nat} (hj : j < 16) : s.regRead (0x30 + j) = byteOf s.xb j := by
  simp (disch := omega) only [State.regRead, if_pos, if_neg, Nat.add_sub_cancel_left]

theorem State.regRead_xc (s : State) {j : Nat} (hj : j < 16) : s.regRead (0x40 + j) = byteOf s.xc j := by
  simp (disch := omega) only [State.regRead, if_pos, if_neg, Nat.add_sub_cancel_left]

theorem State.regRead_reserved (s : State) {a : Nat} (ha : a = 0x03 ∨ 0x50 ≤ a) : s.regRead a = 0x00 := by
  rcases ha with rfl | ha
  · rfl
  · simp (disch := omega) only [State.regRead, if_neg]

theorem State.regWrite_ilen (s : State) {j : Nat} (hj : j < 4) (v : Byte) :
    s.regWrite (0x04 + j) v = { s with ilen := setWordByte s.ilen j v } := by
  simp (disch := omega) only [State.regWrite, if_pos, if_neg, Nat.add_sub_cancel_left]

theorem State.regWrite_nblk (s : State) {j : Nat} (hj : j < 4) (v : Byte) :
    s.regWrite (0x0C + j) v = { s with nblk := setWordByte s.nblk j v } := by
  simp (disch := omega) only [State.regWrite, if_pos, if_neg, Nat.add_sub_cancel_left]

theorem State.regWrite_key (s : State) {j : Nat} (hj : j < 16) (v : Byte) :
    s.regWrite (0x10 + j) v = { s with key := setByteOf s.key j v } := by
  simp (disch := omega) only [State.regWrite, if_pos, if_neg, Nat.add_sub_cancel_left]

theorem State.regWrite_xa (s : State) {j : Nat} (hj : j < 16) (v : Byte) :
    s.regWrite (0x20 + j) v = { s with xa := setByteOf s.xa j v } := by
  simp (disch := omega) only [State.regWrite, if_pos, if_neg, Nat.add_sub_cancel_left]

theorem State.regWrite_xb (s : State) {j : Nat} (hj : j < 16) (v : Byte) :
    s.regWrite (0x30 + j) v = { s with xb := setByteOf s.xb j v } := by
  simp (disch := omega) only [State.regWrite, if_pos, if_neg, Nat.add_sub_cancel_left]

theorem State.regWrite_ignored (s : State) {a : Nat} (v : Byte)
    (ha : a = 0x02 ∨ a = 0x03 ∨ 0x08 ≤ a ∧ a < 0x0C ∨ 0x40 ≤ a) : s.regWrite a v = s := by
  rcases ha with rfl | rfl | ha | ha
  · rfl
  · rfl
  · simp (disch := omega) only [State.regWrite, if_pos, if_neg]
  · simp (disch := omega) only [State.regWrite, if_neg]

/-- Settles O40, range by range. -/
theorem registerMapReads : Obligations.RegisterMapReads := by
  intro s hb
  simp only [hostRead_idle hb, State.readIdle]
  refine ⟨rfl, rfl, rfl, fun j hj => ?_, fun j hj => ?_, rfl, fun a ha => s.regRead_reserved (.inr ha)⟩
  · rw [s.regRead_ilen hj, s.regRead_olen hj, s.regRead_nblk hj]
    exact ⟨wordByte_toNat _ _, wordByte_toNat _ _, wordByte_toNat _ _⟩
  · exact ⟨s.regRead_key hj, s.regRead_xa hj, s.regRead_xb hj, s.regRead_xc hj⟩

/-- Byte `j` of a register written: that byte of its value, and no other (R64). -/
theorem toNat_setWordByte (w : Word) {j k : Nat} (hj : j < 4) (hk : k < 4) (v : Byte) :
    (setWordByte w j v).toNat / 256 ^ k % 256 = if k = j then v.toNat else w.toNat / 256 ^ k % 256 := by
  rw [← wordByte_toNat, setWordByte_spec w j k hj hk, apply_ite BitVec.toNat, wordByte_toNat]

/-- Settles O41, range by range. -/
theorem registerMapWrites : Obligations.RegisterMapWrites := by
  intro s v hb
  simp only [hostWrite_idle hb, State.writeIdle]
  refine ⟨rfl, fun j hj => ?_, fun j hj => ?_, fun j hj => ⟨?_, ?_, ?_⟩⟩
  · exact ⟨_, s.regWrite_ilen hj v, fun k hk => toNat_setWordByte _ hj hk v⟩
  · exact ⟨_, s.regWrite_nblk hj v, fun k hk => toNat_setWordByte _ hj hk v⟩
  · exact ⟨_, s.regWrite_key hj v, fun k hk => byteOf_setByteOf _ _ _ hk⟩
  · exact ⟨_, s.regWrite_xa hj v, fun k hk => byteOf_setByteOf _ _ _ hk⟩
  · exact ⟨_, s.regWrite_xb hj v, fun k hk => byteOf_setByteOf _ _ _ hk⟩

theorem getLsbD_ctrlBits (v : Byte) {k : Nat} (hk : 1 ≤ k) : (ctrlBits v).getLsbD k = false := by
  have hmask : (0x01 : Byte).getLsbD k = false := by
    rw [show (0x01 : Byte) = BitVec.twoPow 8 0 from rfl, BitVec.getLsbD_twoPow]
    simp; omega
  rw [ctrlBits, BitVec.getLsbD_and, hmask, Bool.and_false]

theorem getLsbD_statusRead_three (v : Byte) : (statusRead v).getLsbD 3 = false := by
  rw [statusRead, BitVec.getLsbD_and]
  exact Bool.and_false _

/-- Settles O42: reserved offsets and read-only registers range by range, reserved bits by the masks of `CTRL` and
`STATUS`. -/
theorem reservedAndReadOnly : Obligations.ReservedAndReadOnly := by
  intro s v hb
  have hb' : (s.writeIdle .reg 0x01 v).busy = false := hb
  rw [hostWrite_idle hb .reg 0x01, hostRead_idle hb', hostRead_idle hb, hostRead_idle hb]
  refine ⟨fun a ha => ⟨?_, ?_⟩, fun a ha => ?_, getLsbD_statusRead_three _, fun k hk =>
    ⟨getLsbD_ctrlBits _ hk, getLsbD_ctrlBits _ hk⟩⟩
  · rw [hostRead_idle hb]
    exact s.regRead_reserved ha
  · rw [hostWrite_idle hb]
    exact s.regWrite_ignored v (by omega)
  · rw [hostWrite_idle hb]
    exact s.regWrite_ignored v (by omega)

/-! ### The buffers (R33 to R36) -/

/-- `OBUF` reads as the byte sequence it holds, and 0x00 behind it (R34). -/
theorem readIdle_obuf {s : State} (ho : s.olen.toNat = s.obuf.length) (a : Nat) :
    s.readIdle .obuf a = s.obuf.getD a 0x00 := by
  simp only [State.readIdle, ho]
  split
  · rfl
  · rw [List.getD_eq_default _ _ (by omega)]

/-- Settles O43: a store keeps the canonical form and every other byte (`Memory.read_write`). -/
theorem bufferAccesses : Obligations.BufferAccesses := by
  intro s a v h hb
  rw [hostWrite_idle hb, hostWrite_idle hb, hostRead_idle hb, hostRead_idle hb, hostWrite_idle hb, hostRead_idle hb,
    readIdle_obuf h.olen_eq.1]
  refine ⟨fun ha => ⟨s.ibuf.write a v, if_pos ha, ?_, if_pos ha, ?_⟩,
    fun ha => ⟨s.blk.write a v, if_pos ha, ?_, if_pos ha, ?_⟩, rfl, rfl⟩
  · exact Memory.wf_write h.ibuf_wf.1 a v
  · exact Memory.read_write h.ibuf_wf.1 a v
  · exact Memory.wf_write h.blk_wf.1 a v
  · exact Memory.read_write h.blk_wf.1 a v

/-- Settles O44: outside a space no access reaches its buffer, and `OBUF` is no longer than its space. -/
theorem beyondTheSpaces : Obligations.BeyondTheSpaces := by
  intro s a v h hb
  obtain ⟨ho, hcap⟩ := h.olen_eq
  simp only [hostWrite_idle hb, hostRead_idle hb]
  exact ⟨fun ha => ⟨if_neg (by omega), if_neg (by omega), if_neg (by omega), rfl⟩,
    fun ha => ⟨if_neg (Nat.not_lt.2 ha), if_neg (Nat.not_lt.2 ha)⟩⟩

/-! ### `KEY` (R30) -/

/-- `t` is `s` but for `KEY`. -/
def SameButKey (s t : State) : Prop := ∃ k, t = { s with key := k }

theorem SameButKey.ite {p : Prop} [Decidable p] {a b a' b' : State} (ha : SameButKey a a') (hb : SameButKey b b') :
    SameButKey (if p then a else b) (if p then a' else b') := by split <;> assumption

theorem SameButKey.hostRead {s t : State} (h : SameButKey s t) (sp : Space) (a : Nat) :
    t.hostRead sp a = s.hostRead sp a := by
  obtain ⟨k, rfl⟩ := h
  cases sp <;> rfl

/-- Each range of the map writes one register, the same in both states where it is not `KEY`. -/
theorem SameButKey.regWrite {s t : State} (h : SameButKey s t) (a : Nat) (v : Byte) :
    SameButKey (s.regWrite a v) (t.regWrite a v) := by
  obtain ⟨k, rfl⟩ := h
  exact .ite ⟨k, rfl⟩ <| .ite ⟨k, rfl⟩ <| .ite ⟨k, rfl⟩ <| .ite ⟨k, rfl⟩ <| .ite ⟨k, rfl⟩ <| .ite ⟨k, rfl⟩ <|
    .ite ⟨_, rfl⟩ <| .ite ⟨k, rfl⟩ <| .ite ⟨k, rfl⟩ ⟨k, rfl⟩

theorem SameButKey.hostWrite {s t : State} (h : SameButKey s t) (sp : Space) (a : Nat) (v : Byte) :
    SameButKey (s.hostWrite sp a v) (t.hostWrite sp a v) := by
  obtain ⟨k, rfl⟩ := id h
  cases sp with
  | reg => exact .ite h (h.regWrite a v)
  | ibuf => exact .ite h (.ite ⟨k, rfl⟩ h)
  | obuf => exact .ite h h
  | blk => exact .ite h (.ite ⟨k, rfl⟩ h)

theorem SameButKey.hostAccess {s t : State} (h : SameButKey s t) (x : Access) :
    SameButKey (s.hostAccess x) (t.hostAccess x) := by
  cases x with
  | write sp a v => exact h.hostWrite sp a v
  | read sp a =>
    simp only [State.hostAccess, h.hostRead]
    obtain ⟨k, rfl⟩ := h
    exact ⟨k, rfl⟩

theorem SameButKey.hostAccesses {s t : State} (h : SameButKey s t) (xs : List Access) :
    SameButKey (s.hostAccesses xs) (t.hostAccesses xs) := by
  induction xs generalizing s t with
  | nil => exact h
  | cons x xs ih => exact ih (h.hostAccess x)

/-- Settles O46: from states that differ in `KEY` alone the accesses lead to states that differ in `KEY` alone, and the
record of the bytes read lies outside it. -/
theorem keyCannotBeRead : Obligations.KeyCannotBeRead := by
  intro s k xs
  have h : SameButKey s { s with key := k } := ⟨k, rfl⟩
  obtain ⟨k', hxs⟩ := h.hostAccesses xs
  rw [hxs]

/-! ### The fields of `STATUS` (R26, R41) -/

theorem statusValues_fields : ∀ st ∈ statusValues,
    (st.getLsbD 0 = true → st.getLsbD 1 = false ∧ st.getLsbD 2 = false ∧ errOf st = 0) ∧
    (st.getLsbD 1 = true → st.getLsbD 0 = false) ∧ (st.getLsbD 2 = true → errOf st = 0) ∧
    (errOf st = 5 → st.getLsbD 2 = false) ∧ (errOf st).toNat ≤ 5 := by decide

/-- Settles O48: the relations hold of each of the nine legal values of `STATUS`. -/
theorem statusFields : Obligations.StatusFields := by
  intro s h
  obtain ⟨hbusy, hdone, hpadinv, herr, hle⟩ := statusValues_fields s.status h.status_legal
  exact ⟨hbusy, hdone, hpadinv, herr, h.busy_iff, hle⟩

end Sys2Proof.Machine
end

section
/-! PROOF. What the sequencer and the commands leave unchanged (spec/10_state.md R21, R33; spec/45_sequencer.md R219): the
inputs always, every destination but a command's own, and that `IBUF` reaches a command through `IBUF[0:ILEN]` alone. -/

namespace Sys2Proof.Machine

/-! ### The inputs, at the sequencer level (R21) -/

/-- What the host alone writes. -/
def State.inputs (s : State) : Memory × Word × Key × Byte × Block × Block × Byte × Params :=
  (s.ibuf, s.ilen, s.key, s.ctrl, s.xa, s.xb, s.opc, s.params)

theorem clearDest_inputs (d : Dest) (s : State) : (s.clearDest d).inputs = s.inputs := by cases d <;> rfl

theorem raise_inputs (d : Dest) (c : ErrCode) (s : State) : (s.raise d c).inputs = s.inputs := clearDest_inputs d s

theorem finishUnpad_inputs (w : List Byte) (s : State) : (s.finishUnpad w).inputs = s.inputs := by
  rcases s.finishUnpad_cases w with ⟨-, h⟩ | ⟨-, -, h⟩ | ⟨-, -, h⟩ <;> rw [h] <;> rfl

theorem sendOnce_inputs (r : PortRequest) (s : State) : (s.sendOnce r).inputs = s.inputs := by
  unfold State.sendOnce
  split <;> rfl

theorem checkStep_inputs (i : Instr) (s : State) : (checkStep i s).inputs = s.inputs := by
  rcases checkStep_cases i s with h | ⟨-, h⟩ | ⟨-, -, -, h⟩ <;> rw [h]
  · exact raise_inputs _ _ s
  · exact raise_inputs _ _ s
  · cases i <;> rfl

theorem drawTaken_inputs (s : State) : s.drawTaken.inputs = s.inputs := rfl
theorem setPrev_inputs (iv : Block) (s : State) : (s.setPrev iv).inputs = s.inputs := rfl
theorem setNonce_inputs (nonce : Nonce) (s : State) : (s.setNonce nonce).inputs = s.inputs := rfl
theorem enterLoop_inputs (pre : List Byte) (s : State) : (s.enterLoop pre).inputs = s.inputs := rfl

theorem randomStep_inputs {i : Instr} {s t : State} (h : randomStep i s = .next t) : t.inputs = s.inputs := by
  cases i with
  | cbcEnc =>
    cases h
    have hu := sendOnce_inputs (.random 16) s
    generalize s.sendOnce (.random 16) = u at hu ⊢
    split
    · split
      · rw [raise_inputs, drawTaken_inputs, hu]
      · rw [enterLoop_inputs, setPrev_inputs, drawTaken_inputs, hu]
    · exact hu
  | ctrEnc =>
    cases h
    have hu := sendOnce_inputs (.random 8) s
    generalize s.sendOnce (.random 8) = u at hu ⊢
    split
    · split
      · rw [raise_inputs, drawTaken_inputs, hu]
      · rw [enterLoop_inputs, setNonce_inputs, drawTaken_inputs, hu]
    · exact hu
  | pad | unpad | group | ungroup | xor | ecbEnc | ecbDec | cbcDec | ctrDec => cases h

theorem blockStep_inputs {i : Instr} {s t : State} (h : blockStep i s = .next t) : t.inputs = s.inputs := by
  unfold blockStep at h
  split at h
  case h_1 => cases h
  case h_2 d op x hr =>
    split at h
    · cases h
      rw [← sendOnce_inputs (.cipher op x s.key) s]
      split
      · rw [blockAdvance_blockTake]
        rfl
      · rfl
    · cases h

theorem finalStep_inputs {i : Instr} {s t : State} (h : finalStep i s = .next t) : t.inputs = s.inputs := by
  cases i with
  | ecbEnc | cbcEnc | ctrEnc => cases h; rfl
  | unpad | ecbDec | cbcDec | ctrDec => cases h; exact finishUnpad_inputs _ s
  | pad | group | ungroup | xor => cases h

theorem seqStep_inputs {s t : State} (h : s.seqStep = .next t) : t.inputs = s.inputs := by
  unfold State.seqStep at h
  split at h
  case h_1 => cases h; rfl
  case h_2 => cases h; exact raise_inputs _ _ s
  case h_3 i _ _ => cases h; exact checkStep_inputs i s
  case h_4 => exact randomStep_inputs h
  case h_5 => exact blockStep_inputs h
  case h_6 => exact finalStep_inputs h
  all_goals cases h

/-- Settles O37: step by step (`seqStep_inputs`). -/
theorem sequencerNeverWritesInputs : Obligations.SequencerNeverWritesInputs := by
  intro s t h
  simpa only [State.inputs, Prod.mk.injEq] using seqStep_inputs h

/-! ### The commands (R219) -/

theorem component_ite {α : Type} (f : State → α) {x : α} {p : Prop} [Decidable p] {a b : State} (ha : f a = x)
    (hb : f b = x) : f (if p then a else b) = x := by split <;> assumption

/-- A command whose destination is `OBUF` leaves everything else of the registers and buffers as it was. -/
theorem exec_obufFrame {i : Instr} {s t : State} (hd : destOf i = .obuf) (h : exec i s = .next t) : ObufFrame s t := by
  cases i with
  | pad => cases h; exact .ite (.raise s _) (.ite (.raise s _) (.publish s _))
  | unpad => cases h; exact .ite (.raise s _) (.finishUnpad s _)
  | group => cases hd
  | ungroup => cases h; exact .ite (.raise s _) (.publish s _)
  | xor => cases hd
  | ecbEnc =>
    cases h
    exact .ite (.raise s _) <| .ite (.raise s _) <| ((ObufFrame.openMode s _ _).trans (.enterLoop _ _)).trans <|
      .withCipher _ _ _ fun _ => .publish _ _
  | ecbDec =>
    cases h
    exact .ite (.raise s _) <| .ite (.raise s _) <| ((ObufFrame.openMode s _ _).trans (.enterLoop _ _)).trans <|
      .withCipher _ _ _ fun _ => .finishUnpad _ _
  | cbcEnc =>
    cases h
    exact .ite (.raise s _) <| .ite (.raise s _) <| (ObufFrame.openMode s _ _).trans <| .withRandom _ _ _ fun _ _ =>
      ((ObufFrame.setPrev _ _).trans (.enterLoop _ _)).trans <| .withCipher _ _ _ fun _ => .publish _ _
  | cbcDec =>
    cases h
    exact .ite (.raise s _) <| .ite (.raise s _) <|
      (((ObufFrame.openMode s _ _).trans (.setPrev _ _)).trans (.enterLoop _ _)).trans <|
      .withCipher _ _ _ fun _ => .finishUnpad _ _
  | ctrEnc =>
    cases h
    exact .ite (.raise s _) <| .ite (.raise s _) <| (ObufFrame.openMode s _ _).trans <| .withRandom _ _ _ fun _ _ =>
      ((ObufFrame.setNonce _ _).trans (.enterLoop _ _)).trans <| .withCipher _ _ _ fun _ => .publish _ _
  | ctrDec =>
    cases h
    exact .ite (.raise s _) <| .ite (.raise s _) <|
      (((ObufFrame.openMode s _ _).trans (.setNonce _ _)).trans (.enterLoop _ _)).trans <|
      .withCipher _ _ _ fun _ => .finishUnpad _ _

/-- A unit command asks nothing on a port. -/
theorem exec_requests {i : Instr} {s t : State} (hm : isMode i = false) (h : exec i s = .next t) :
    t.requests = s.requests := by
  cases i with
  | pad => cases h; exact component_ite State.requests rfl (component_ite State.requests rfl rfl)
  | unpad => cases h; exact component_ite State.requests rfl (finishUnpad_requests s _)
  | group => cases h; exact component_ite State.requests rfl (component_ite State.requests rfl rfl)
  | ungroup => cases h; exact component_ite State.requests rfl rfl
  | xor => cases h; rfl
  | ecbEnc | ecbDec | cbcEnc | cbcDec | ctrEnc | ctrDec => cases hm

/-- Only the commands with a random step move the random source. -/
theorem exec_rng {i : Instr} {s t : State} (hr : drawsRandom i = false) (h : exec i s = .next t) : t.rng = s.rng := by
  cases i with
  | pad => cases h; exact component_ite State.rng rfl (component_ite State.rng rfl rfl)
  | unpad => cases h; exact component_ite State.rng rfl (finishUnpad_rng s _)
  | group => cases h; exact component_ite State.rng rfl (component_ite State.rng rfl rfl)
  | ungroup => cases h; exact component_ite State.rng rfl rfl
  | xor => cases h; rfl
  | cbcEnc | ctrEnc => cases hr
  | ecbEnc =>
    cases h
    exact component_ite State.rng rfl (component_ite State.rng rfl (withCipher_rng _ _ _ fun _ => rfl))
  | ecbDec | cbcDec | ctrDec =>
    cases h
    exact component_ite State.rng rfl
      (component_ite State.rng rfl (withCipher_rng _ _ _ fun _ => finishUnpad_rng _ _))

theorem eq_group_of_destOf {i : Instr} (h : destOf i = .nblk) : i = .group := by
  revert h
  cases i <;> decide

theorem eq_xor_of_destOf {i : Instr} (h : destOf i = .xc) : i = .xor := by
  revert h
  cases i <;> decide

/-- What `GROUP` does: it fails, or it stores the blocks of its input (R143). -/
theorem exec_group_cases {s t : State} (h : exec .group s = .next t) :
    (∃ c, t = s.raise .nblk c) ∨ t = (s.storeBlocks (groupBytes s.input)).finishOk false := by
  cases h
  split
  · exact .inl ⟨_, rfl⟩
  · split
    · exact .inl ⟨_, rfl⟩
    · exact .inr rfl

/-- Storing blocks leaves every byte behind them. -/
theorem Memory.read_writeBlocks_of_le {m : Memory} (hm : m.wf = true) {bs : List Block} {a : Nat}
    (ha : 16 * bs.length ≤ a) : (m.writeBlocks 0 bs).read a = m.read a := by
  have hlen : (bs.map Vector.toList).flatten.length = 16 * bs.length := length_ungroupBlocks bs
  rw [Memory.writeBlocks_eq, Memory.read_writeSeq hm, if_pos (by omega), List.getElem?_eq_none (by omega),
    Option.getD_none]

/-- Settles O36, by the destination: `OBUF` by `exec_obufFrame`; `GROUP` writes `BLK` no further than its blocks; `XOR`
writes `XC`. -/
theorem commandFrame : Obligations.CommandFrame := by
  intro i s t hw h
  have hrng : drawsRandom i = false → t.rng = s.rng := fun hr => exec_rng hr h
  have hreq : isMode i = false → t.requests = s.requests := fun hm => exec_requests hm h
  cases hd : destOf i with
  | obuf =>
    obtain ⟨opc, ctrl, ilen, nblk, key, xa, xb, xc, ibuf, blk, params, cipher, readData, agenda⟩ := exec_obufFrame hd h
    exact ⟨⟨opc, ctrl, ilen, key, xa, xb, params, cipher, readData, agenda⟩, fun a => by rw [ibuf],
      fun hne => absurd rfl hne, fun _ => ⟨nblk, fun a => by rw [blk]⟩, fun _ => xc, nofun, hrng, hreq⟩
  | nblk =>
    obtain rfl := eq_group_of_destOf hd
    rcases exec_group_cases h with ⟨c, rfl⟩ | rfl
    · exact ⟨⟨rfl, rfl, rfl, rfl, rfl, rfl, rfl, rfl, rfl, rfl⟩, fun _ => rfl, fun _ => ⟨rfl, rfl⟩,
        fun hne => absurd rfl hne, fun _ => rfl, fun _ _ _ => rfl, hrng, hreq⟩
    · refine ⟨⟨rfl, rfl, rfl, rfl, rfl, rfl, rfl, rfl, rfl, rfl⟩, fun _ => rfl, fun _ => ⟨rfl, rfl⟩,
        fun hne => absurd rfl hne, fun _ => rfl, fun _ a ha => ?_, hrng, hreq⟩
      exact Memory.read_writeBlocks_of_le hw (by rwa [length_groupBytes, length_input])
  | xc =>
    obtain rfl := eq_xor_of_destOf hd
    cases h
    exact ⟨⟨rfl, rfl, rfl, rfl, rfl, rfl, rfl, rfl, rfl, rfl⟩, fun _ => rfl, fun _ => ⟨rfl, rfl⟩,
      fun _ => ⟨rfl, fun _ => rfl⟩, fun hne => absurd rfl hne, nofun, hrng, hreq⟩
  | none => cases i <;> cases hd

/-! ### `IBUF` beyond `ILEN` (R33) -/

/-- `s` with other contents of `IBUF`. -/
def State.withIbuf (m : Memory) (s : State) : State := { s with ibuf := m }

@[simp] theorem withIbuf_inLen (m : Memory) (s : State) : (s.withIbuf m).inLen = s.inLen := rfl
@[simp] theorem withIbuf_params (m : Memory) (s : State) : (s.withIbuf m).params = s.params := rfl
@[simp] theorem withIbuf_nblk (m : Memory) (s : State) : (s.withIbuf m).nblk = s.nblk := rfl
@[simp] theorem withIbuf_storedBlocks (m : Memory) (s : State) : (s.withIbuf m).storedBlocks = s.storedBlocks := rfl
@[simp] theorem withIbuf_ask (m : Memory) (s : State) : (s.withIbuf m).ask = s.ask := rfl
@[simp] theorem withIbuf_requestsFor (m : Memory) (s : State) : (s.withIbuf m).requestsFor = s.requestsFor := rfl

@[simp] theorem raise_withIbuf (m : Memory) (d : Dest) (c : ErrCode) (s : State) :
    State.raise d c (s.withIbuf m) = (s.raise d c).withIbuf m := by cases d <;> rfl

@[simp] theorem publish_withIbuf (m : Memory) (w : List Byte) (s : State) :
    State.publish w (s.withIbuf m) = (s.publish w).withIbuf m := rfl

@[simp] theorem finishUnpad_withIbuf (m : Memory) (w : List Byte) (s : State) :
    State.finishUnpad w (s.withIbuf m) = (s.finishUnpad w).withIbuf m := by
  unfold State.finishUnpad
  rw [show (s.withIbuf m).strict = s.strict from rfl]
  cases (padCheck w).1 <;> cases s.strict <;> rfl

@[simp] theorem storeBlocks_finishOk_withIbuf (m : Memory) (bs : List Block) (b : Bool) (s : State) :
    ((s.withIbuf m).storeBlocks bs).finishOk b = ((s.storeBlocks bs).finishOk b).withIbuf m := rfl

@[simp] theorem openMode_withIbuf (m : Memory) (k : Nat) (p : Phase) (s : State) :
    (s.withIbuf m).openMode k p = (s.openMode k p).withIbuf m := rfl

@[simp] theorem setPrev_withIbuf (m : Memory) (iv : Block) (s : State) :
    (s.withIbuf m).setPrev iv = (s.setPrev iv).withIbuf m := rfl

@[simp] theorem setNonce_withIbuf (m : Memory) (nonce : Nonce) (s : State) :
    (s.withIbuf m).setNonce nonce = (s.setNonce nonce).withIbuf m := rfl

@[simp] theorem enterLoop_withIbuf (m : Memory) (pre : List Byte) (s : State) :
    (s.withIbuf m).enterLoop pre = (s.enterLoop pre).withIbuf m := rfl

theorem withCipher_withIbuf {m : Memory} {fin : State → State}
    (hf : ∀ u : State, fin (u.withIbuf m) = (fin u).withIbuf m) (rs : List PortRequest) (s : State) :
    (s.withIbuf m).withCipher rs fin = (s.withCipher rs fin).withIbuf m := by
  cases rs with
  | nil => exact hf s
  | cons r rs =>
    cases hl : s.cipher.live
    · rw [State.withCipher_waits hl, State.withCipher_waits (s := s.withIbuf m) hl]
      rfl
    · rw [State.withCipher_live hl, State.withCipher_live (s := s.withIbuf m) hl]
      exact hf (s.afterRequests (r :: rs))

theorem withRandom_withIbuf {m : Memory} {go : Block → State → State}
    (hg : ∀ r (u : State), go r (u.withIbuf m) = (go r u).withIbuf m) (n : Nat) (s : State) :
    (s.withIbuf m).withRandom n go = (s.withRandom n go).withIbuf m := by
  rw [State.withRandom_eq, State.withRandom_eq, apply_ite (State.withIbuf m), show (s.withIbuf m).rng = s.rng from rfl]
  cases s.rng.answer with
  | fail => rfl
  | ok r => exact ite_congr rfl (fun _ => hg r (s.send (.random n)).drawTaken) fun _ => rfl

@[simp] theorem withCipher_publish_withIbuf (m : Memory) (rs : List PortRequest) (w : List Byte) (s : State) :
    (s.withIbuf m).withCipher rs (State.publish w) = (s.withCipher rs (State.publish w)).withIbuf m :=
  withCipher_withIbuf (publish_withIbuf m w) rs s

@[simp] theorem withCipher_finishUnpad_withIbuf (m : Memory) (rs : List PortRequest) (w : List Byte) (s : State) :
    (s.withIbuf m).withCipher rs (State.finishUnpad w) = (s.withCipher rs (State.finishUnpad w)).withIbuf m :=
  withCipher_withIbuf (finishUnpad_withIbuf m w) rs s

/-- A command sees of `IBUF` its input alone: each of its branches ends or waits in the same way. -/
theorem exec_withIbuf {m : Memory} {s : State} (h : (s.withIbuf m).input = s.input) (i : Instr) :
    exec i (s.withIbuf m) = nextWith (State.withIbuf m) (exec i s) := by
  cases i with
  | pad => simp [exec, execPad, h, apply_ite (State.withIbuf m)]
  | unpad => simp [exec, execUnpad, h, apply_ite (State.withIbuf m)]
  | group => simp [exec, execGroup, h, apply_ite (State.withIbuf m)]
  | ungroup => simp [exec, execUngroup, apply_ite (State.withIbuf m)]
  | xor => rfl
  | ecbEnc => simp [exec, execEcbEnc, h, apply_ite (State.withIbuf m)]
  | ecbDec => simp [exec, execEcbDec, h, apply_ite (State.withIbuf m)]
  | cbcEnc => simp [exec, execCbcEnc, h, apply_ite (State.withIbuf m), withRandom_withIbuf]
  | cbcDec => simp [exec, execCbcDec, h, apply_ite (State.withIbuf m)]
  | ctrEnc => simp [exec, execCtrEnc, h, apply_ite (State.withIbuf m), withRandom_withIbuf]
  | ctrDec => simp [exec, execCtrDec, h, apply_ite (State.withIbuf m)]

/-- Settles O38: contents of `IBUF` that agree below `ILEN` give the same input, and a command sees no more of them. -/
theorem bytesBeyondIlenAreIgnored : Obligations.BytesBeyondIlenAreIgnored := by
  intro i s t m hm h
  have hin : (s.withIbuf m).input = s.input := readSeq_congr 0 s.inLen fun a _ ha => hm a (by omega)
  have hexec := exec_withIbuf hin i
  rw [h] at hexec
  exact hexec

end Sys2Proof.Machine
end

section
/-! PROOF. The agenda (spec/20_memory.md R70, R72; spec/45_sequencer.md R210): a step is the move at its head, and the MFL
left alone goes by `PHASE`. -/

namespace Sys2Proof.Machine

/-! ### The step, by the agenda -/

theorem step_of_agenda_nil {s : State} (h : s.agenda = []) : step s = s.runCommand := by
  rw [step, h]

theorem step_of_agenda_cons {s : State} {m : Move} {rest : List Move} (h : s.agenda = m :: rest) :
    step s = State.takeMove m { s with agenda := rest } := by
  rw [step, h]

/-! ### The MFL left alone, by `PHASE` -/

theorem State.command_of_decode {s : State} {i : Instr} {rest : List Byte} (h : decode [s.opc] = .ok (i, rest)) :
    s.command = some i := by
  rw [State.command, State.commandBytes, h]

theorem runCommand_idle {s : State} (hp : s.phase = .idle) : s.runCommand = .next s := by
  rw [State.runCommand, hp]

theorem runCommand_illegal {s : State} (hp : s.phase = .check) (hc : s.command = none) :
    s.runCommand = .next (s.endedWith 0x12) := by
  rw [State.runCommand, hp, hc]
  rfl

theorem runCommand_running {s : State} (hp : s.phase = .rand ∨ s.phase = .block ∨ s.phase = .final) :
    s.runCommand = s.seqRun (s.n.toNat - s.idx.toNat + 2) := by
  rcases hp with hp | hp | hp <;> rw [State.runCommand, hp]

/-- Settles O6: with the move off the agenda the MFL is left alone, and `CHECK` with a legal byte latched runs it. -/
theorem stepRunsTheLatchedCommand : Obligations.StepRunsTheLatchedCommand := by
  intro s i rest hp hd
  have hc : s.command = some i := State.command_of_decode hd
  refine ⟨fun ha => ?_, fun ha => ?_⟩
  · rw [step_of_agenda_nil ha]
    exact runCommand_check hp hc
  · rw [step_of_agenda_cons ha]
    exact runCommand_check (s := { s with agenda := rest }) hp hc

/-- Settles O8, move by move. -/
theorem stepTakesTheNextMove : Obligations.StepTakesTheNextMove := by
  intro s rest x p m c r
  refine ⟨step_of_agenda_cons, step_of_agenda_cons, step_of_agenda_cons, step_of_agenda_cons, step_of_agenda_cons,
    fun ha => ?_, fun ha => ?_⟩
  · rw [step_of_agenda_cons ha]
    exact ⟨fun hp => runCommand_idle (s := { s with agenda := rest }) hp,
      fun hp hc => runCommand_illegal (s := { s with agenda := rest }) hp hc,
      fun hp => runCommand_running (s := { s with agenda := rest }) hp⟩
  · rw [step_of_agenda_nil ha]
    exact ⟨runCommand_idle, runCommand_illegal, runCommand_running⟩

end Sys2Proof.Machine
end

section
/-! PROOF. The host's accesses (spec/20_memory.md R67, R69): a running MFL ignores writes and answers two reads, and an
idle one takes a write twice as it takes it once. -/

namespace Sys2Proof.Machine

/-! ### While `BUSY = 1` (R69) -/

theorem hostWrite_busy {s : State} (h : s.busy = true) (sp : Space) (a : Nat) (v : Byte) : s.hostWrite sp a v = s :=
  if_pos h

theorem hostRead_busy {s : State} (h : s.busy = true) (sp : Space) (a : Nat) : s.hostRead sp a = s.readBusy sp a :=
  if_pos h

theorem State.readBusy_other (s : State) {sp : Space} {a : Nat} (h : ¬(sp = .reg ∧ (a = 0x00 ∨ a = 0x02))) :
    s.readBusy sp a = 0x00 := by
  cases sp with
  | reg =>
    have ha : a ≠ 0x00 ∧ a ≠ 0x02 := by simpa using h
    rw [State.readBusy, if_neg ha.1, if_neg ha.2]
  | ibuf | obuf | blk => rfl

/-- Settles O39. -/
theorem busyAccesses : Obligations.BusyAccesses := by
  intro s hb
  simp only [hostRead_busy hb]
  exact ⟨hostWrite_busy hb, rfl, rfl, fun _ _ => s.readBusy_other⟩

/-! ### A write twice (R67) -/

theorem setByteOf_setByteOf (b : Block) (i : Nat) (v : Byte) : setByteOf (setByteOf b i v) i v = setByteOf b i v :=
  Vector.setIfInBounds_setIfInBounds ..

theorem setWordByte_setWordByte (w : Word) {j : Nat} (hj : j < 4) (v : Byte) :
    setWordByte (setWordByte w j v) j v = setWordByte w j v :=
  word_ext fun k hk => by
    rw [setWordByte_spec _ j k hj hk, setWordByte_spec w j k hj hk]
    split <;> rfl

theorem Memory.write_write {m : Memory} (hm : m.wf = true) (a : Nat) (v : Byte) :
    (m.write a v).write a v = m.write a v := by
  have hw := Memory.wf_write hm a v
  refine Memory.ext_from (Memory.wf_write hw a v) hw fun b => ?_
  rw [Memory.read_write hw, Memory.read_write hm]
  split <;> rfl

/-- An offset of the register map inside a register of `len` bytes is one of its bytes. -/
theorem exists_byte_of_offset {lo len a : Nat} (h : lo ≤ a ∧ a < lo + len) : ∃ j < len, a = lo + j :=
  ⟨a - lo, by omega, by omega⟩

/-- A register takes a byte twice as once, range by range of the map. -/
theorem State.regWrite_regWrite (s : State) {a : Nat} (ha : a ≠ 0x00) (v : Byte) :
    (s.regWrite a v).regWrite a v = s.regWrite a v := by
  have hmap : a = 0x01 ∨ (0x04 ≤ a ∧ a < 0x04 + 4) ∨ (0x0C ≤ a ∧ a < 0x0C + 4) ∨ (0x10 ≤ a ∧ a < 0x10 + 16) ∨
      (0x20 ≤ a ∧ a < 0x20 + 16) ∨ (0x30 ≤ a ∧ a < 0x30 + 16) ∨
      (a = 0x02 ∨ a = 0x03 ∨ 0x08 ≤ a ∧ a < 0x0C ∨ 0x40 ≤ a) := by omega
  rcases hmap with rfl | hilen | hnblk | hkey | hxa | hxb | hignored
  · rfl
  · obtain ⟨j, hj, rfl⟩ := exists_byte_of_offset hilen
    simp only [State.regWrite_ilen _ hj, setWordByte_setWordByte _ hj]
  · obtain ⟨j, hj, rfl⟩ := exists_byte_of_offset hnblk
    simp only [State.regWrite_nblk _ hj, setWordByte_setWordByte _ hj]
  · obtain ⟨j, hj, rfl⟩ := exists_byte_of_offset hkey
    simp only [State.regWrite_key _ hj, setByteOf_setByteOf]
  · obtain ⟨j, hj, rfl⟩ := exists_byte_of_offset hxa
    simp only [State.regWrite_xa _ hj, setByteOf_setByteOf]
  · obtain ⟨j, hj, rfl⟩ := exists_byte_of_offset hxb
    simp only [State.regWrite_xb _ hj, setByteOf_setByteOf]
  · simp only [State.regWrite_ignored _ v hignored]

/-- An idle MFL takes a write, to any place but `CMD`, twice as once. -/
theorem State.writeIdle_writeIdle {s : State} (hi : s.ibuf.wf = true) (hb : s.blk.wf = true) {sp : Space} {a : Nat}
    (ha : ¬(sp = .reg ∧ a = 0x00)) (v : Byte) : (s.writeIdle sp a v).writeIdle sp a v = s.writeIdle sp a v := by
  cases sp with
  | reg => exact s.regWrite_regWrite (fun h => ha ⟨rfl, h⟩) v
  | ibuf =>
    by_cases hlt : a < s.params.capBytes
    · simp only [State.writeIdle, hlt, if_true, Memory.write_write hi]
    · simp only [State.writeIdle, hlt, if_false]
  | obuf => rfl
  | blk =>
    by_cases hlt : a < s.blkSize
    · have hlt' : a < State.blkSize { s with blk := s.blk.write a v } := hlt
      simp only [State.writeIdle, hlt, hlt', if_true, Memory.write_write hb]
    · simp only [State.writeIdle, hlt, if_false]

/-- Settles O45: a running MFL ignores both writes, an idle one takes the second as it took the first. -/
theorem writesAreIdempotent : Obligations.WritesAreIdempotent := by
  intro s sp a v h hcmd
  cases hb : s.busy with
  | true => rw [hostWrite_busy hb, hostWrite_busy hb]
  | false =>
    rw [hostWrite_idle hb]
    cases hb' : (s.writeIdle sp a v).busy with
    | true => exact hostWrite_busy hb' sp a v
    | false => rw [hostWrite_idle hb', State.writeIdle_writeIdle h.ibuf_wf.1 h.blk_wf.1 hcmd]

end Sys2Proof.Machine
end

section
/-! PROOF. The requests of a whole command (spec/20_memory.md R82, R85; spec/44_ctr.md R195): each end of a command is one
before its block loop or one behind it. -/

namespace Sys2Proof.Machine

/-- What `i`, run from `s`, has asked on its ports where it ends in `t`: the claim of `RequestsOfACommand` about one end. -/
def MadeRequests (i : Instr) (s t : State) : Prop :=
  ∃ bs : List Block,
    t.requests = s.requests ++
        ((if drawsRandom i = true ∧ t.status ≠ 0x22 then [.random (prefixLen i)] else []) ++
          bs.map fun b => .cipher (cipherOpOf i) b s.key) ∧
    (isMode i = false → bs = []) ∧
    (isMode i = true → t.status ∈ [0x02, 0x06, 0x52] → bs.length = s.blockCount i) ∧
    (t.status ∈ [0x22, 0x32, 0x42] → bs = [])

/-- The request that a command with a random step makes before its block loop. -/
def drawRequests (i : Instr) : List PortRequest := if drawsRandom i = true then [.random (prefixLen i)] else []

section
variable {i : Instr} {s : State}

theorem MadeRequests.ite {p : Prop} [Decidable p] {a b : State} (ha : MadeRequests i s a) (hb : MadeRequests i s b) :
    MadeRequests i s (if p then a else b) := by split <;> assumption

/-! ### The ends before the block loop -/

theorem loopEnds_not_before : ∀ st ∈ ([0x22, 0x32, 0x42] : List Byte), st ∉ ([0x02, 0x06, 0x52] : List Byte) := by decide

/-- An end before the block loop has asked the cipher nothing. -/
theorem MadeRequests.before_loop {t : State} (hst : t.status ∈ ([0x22, 0x32, 0x42] : List Byte))
    (hreq : t.requests = s.requests ++ if drawsRandom i = true ∧ t.status ≠ 0x22 then [.random (prefixLen i)] else []) :
    MadeRequests i s t :=
  ⟨[], by rw [hreq, List.map_nil, List.append_nil], fun _ => rfl,
    fun _ hloop => absurd hloop (loopEnds_not_before _ hst), fun _ => rfl⟩

theorem MadeRequests.raise_capacity : MadeRequests i s (s.raise .obuf .capacity) :=
  .before_loop (show statusError .capacity ∈ _ by decide) (by rw [if_neg fun h => h.2 rfl, List.append_nil]; rfl)

theorem MadeRequests.raise_length (hd : drawsRandom i = false) : MadeRequests i s (s.raise .obuf .length) :=
  .before_loop (show statusError .length ∈ _ by decide) (by rw [if_neg (by simp [hd]), List.append_nil]; rfl)

/-- The random step: its one request, and `ERR_RNG` or the block loop. -/
theorem MadeRequests.withRandom {u : State} {go : Block → State → State} (hd : drawsRandom i = true)
    (hl : u.rng.live = true) (hu : u.requests = s.requests)
    (hgo : ∀ r, MadeRequests i s (go r (u.send (.random (prefixLen i))).drawTaken)) :
    MadeRequests i s (u.withRandom (prefixLen i) go) := by
  rw [State.withRandom_eq, if_pos hl]
  split
  · refine .before_loop (show statusError .rng ∈ _ by decide) ?_
    rw [if_pos ⟨hd, show statusError .rng ≠ 0x22 by decide⟩, ← hu]
    rfl
  · exact hgo _

/-! ### The ends behind the block loop -/

theorem finishUnpad_status_mem (w : List Byte) (s : State) :
    (s.finishUnpad w).status ∈ ([0x02, 0x06, 0x52] : List Byte) := by
  rcases s.finishUnpad_cases w with ⟨-, h⟩ | ⟨-, -, h⟩ | ⟨-, -, h⟩ <;> rw [h, State.endCommand_status] <;> decide

theorem loopEnds_ne_capacity : ∀ st ∈ ([0x02, 0x06, 0x52] : List Byte), st ≠ 0x22 := by decide

/-- A block loop over the `N` blocks that the cipher is asked. -/
theorem MadeRequests.withCipher {u : State} {bs : List Block} {fin : State → State} (hm : isMode i = true)
    (hl : u.cipher.live = true) (hu : u.requests = s.requests ++ drawRequests i) (hbs : bs.length = s.blockCount i)
    (hfin : ∀ v : State, (fin v).requests = v.requests ∧ (fin v).status ∈ ([0x02, 0x06, 0x52] : List Byte)) :
    MadeRequests i s (u.withCipher (s.requestsFor (cipherOpOf i) bs) fin) := by
  rw [State.withCipher_live hl]
  obtain ⟨hreq, hst⟩ := hfin (u.afterRequests (s.requestsFor (cipherOpOf i) bs))
  have hne := loopEnds_ne_capacity _ hst
  refine ⟨bs, ?_, fun h => ?_, fun _ _ => hbs, fun h => absurd hst (loopEnds_not_before _ h)⟩
  · rw [hreq, State.afterRequests_requests, hu, List.append_assoc, drawRequests]
    simp only [hne, ne_eq, not_false_eq_true, and_true]
    rfl
  · rw [hm] at h
    cases h

theorem publish_end (w : List Byte) (v : State) :
    (v.publish w).requests = v.requests ∧ (v.publish w).status ∈ ([0x02, 0x06, 0x52] : List Byte) :=
  ⟨rfl, by rw [State.publish, State.finishOk, State.endCommand_status]; decide⟩

theorem finishUnpad_end (w : List Byte) (v : State) :
    (v.finishUnpad w).requests = v.requests ∧ (v.finishUnpad w).status ∈ ([0x02, 0x06, 0x52] : List Byte) :=
  ⟨finishUnpad_requests v w, finishUnpad_status_mem w v⟩

/-! ### The commands -/

/-- A unit command asks nothing. -/
theorem MadeRequests.unit {t : State} (hm : isMode i = false) (hd : drawsRandom i = false)
    (h : exec i s = .next t) : MadeRequests i s t :=
  ⟨[], by simp [exec_requests hm h, hd], fun _ => rfl, fun hm' => by simp [hm] at hm', fun _ => rfl⟩

theorem length_padBlocks (s : State) : (groupBytes (padBytes s.input)).length = s.inLen / 16 + 1 := by
  rw [length_groupBytes, length_padBytes_input]

theorem length_bodyBlocks (s : State) (pre : Nat) : (groupBytes (s.input.drop pre)).length = (s.inLen - pre) / 16 := by
  rw [length_groupBytes, List.length_drop, length_input]

end

/-- Settles O32: every command checks, draws where it has a random step, and loops; the ends of the checks and of the
draw are before the loop, the others behind it. -/
theorem requestsOfACommand : Obligations.RequestsOfACommand := by
  intro i s t ⟨hc, hr⟩ h
  show MadeRequests i s t
  cases i with
  | pad | unpad | group | ungroup | xor => exact .unit rfl rfl h
  | ecbEnc =>
    cases h
    exact .ite .raise_capacity <| .ite .raise_capacity <|
      .withCipher rfl hc (List.append_nil _).symm (length_padBlocks s) (publish_end _)
  | ecbDec =>
    cases h
    refine .ite .raise_capacity <| .ite (.raise_length rfl) <|
      .withCipher rfl hc (List.append_nil _).symm ?_ (finishUnpad_end _)
    rw [length_groupBytes, length_input]
    rfl
  | cbcEnc =>
    cases h
    exact .ite .raise_capacity <| .ite .raise_capacity <| .withRandom rfl hr rfl fun r =>
      .withCipher rfl hc rfl ((length_cbcCombined ..).trans (length_padBlocks s)) (publish_end _)
  | cbcDec =>
    cases h
    refine .ite .raise_capacity <| .ite (.raise_length rfl) <|
      .withCipher rfl hc (List.append_nil _).symm ((length_bodyBlocks s 16).trans ?_) (finishUnpad_end _)
    exact Nat.sub_mul_div s.inLen 16 1
  | ctrEnc =>
    cases h
    exact .ite .raise_capacity <| .ite .raise_capacity <| .withRandom rfl hr rfl fun r =>
      .withCipher rfl hc rfl ((length_ctrCounters ..).trans (length_padBlocks s)) (publish_end _)
  | ctrDec =>
    cases h
    exact .ite .raise_capacity <| .ite (.raise_length rfl) <|
      .withCipher rfl hc (List.append_nil _).symm ((length_ctrCounters ..).trans (length_bodyBlocks s 8))
        (finishUnpad_end _)

end Sys2Proof.Machine
end

section
/-! PROOF. One rising edge of the signal-level binding (spec/20_memory.md R87; spec/45_sequencer.md R215, R216;
spec/70_reset_and_hazards.md R271): the next state, whole, by what is outstanding and what transfers. -/

namespace Sys2Proof.Machine

/-! ### With the invariant the sequencer has a step (log 12) -/

theorem randomStep_next {i : Instr} (hd : drawsRandom i = true) (s : State) : ∃ t, randomStep i s = .next t := by
  cases i with
  | cbcEnc | ctrEnc => exact ⟨_, rfl⟩
  | pad | unpad | group | ungroup | xor | ecbEnc | ecbDec | cbcDec | ctrDec => cases hd

theorem blockStep_next {i : Instr} {s : State} (hm : isMode i = true) (hi : s.idx.toNat < s.n.toNat) :
    ∃ t, blockStep i s = .next t := by
  unfold blockStep
  cases i with
  | ecbEnc | ecbDec | cbcEnc | cbcDec | ctrEnc | ctrDec => exact ⟨_, if_pos hi⟩
  | pad | unpad | group | ungroup | xor => cases hm

theorem finalStep_next {i : Instr} (hm : isMode i = true ∨ i = .unpad) (s : State) : ∃ t, finalStep i s = .next t := by
  cases i with
  | unpad | ecbEnc | ecbDec | cbcEnc | cbcDec | ctrEnc | ctrDec => exact ⟨_, rfl⟩
  | pad | group | ungroup | xor => rcases hm with hm | hm <;> cases hm

theorem State.Inv.seqStep_next {s : State} (h : s.Inv) : ∃ t, s.seqStep = .next t := by
  cases hc : s.command with
  | none =>
    have hq := h.sequencer
    rw [hc] at hq
    rcases hq.1 with hp | hp
    · exact ⟨s, State.seqStep_idle hp⟩
    · exact ⟨s.endIllegal, by rw [State.seqStep, hp, hc]⟩
  | some i =>
    have hq := h.phaseOk_of_command hc
    cases hp : s.phase <;> simp only [State.phaseOk, hp] at hq <;> simp only [State.seqStep, hp, hc]
    case idle => exact ⟨s, rfl⟩
    case check => exact ⟨_, rfl⟩
    case rand => exact randomStep_next hq.1 s
    case block =>
      obtain ⟨hm, -, -, -, hi, -⟩ := hq
      exact blockStep_next hm hi
    case final => exact finalStep_next hq.1 s

theorem State.Inv.seqStepAnswered_next {s : State} (h : s.Inv) (a : Bool) : ∃ t, s.seqStepAnswered a = .next t := by
  obtain ⟨u, hu⟩ := (inv_answering h a a).seqStep_next
  exact ⟨_, by rw [State.seqStepAnswered, hu, nextWith_next]⟩

theorem State.Inv.sequencerEdge_next {s : State} (h : s.Inv) (p : InputPins) (m : MflTiming) :
    ∃ t, s.sequencerEdge p m = .next t := by
  unfold State.sequencerEdge
  split
  case h_3 => exact ⟨_, rfl⟩
  all_goals
    split
    · exact State.Inv.seqStepAnswered_next (inv_congr h rfl) _
    · exact ⟨s, rfl⟩

/-! ### What the host reads at the edge (log 22) -/

theorem hostWrite_readData (s : State) (sp : Space) (a : Nat) (v : Byte) :
    (s.hostWrite sp a v).readData = s.readData := by
  cases sp <;>
    simp only [State.hostWrite, State.writeIdle, State.regWrite, apply_ite State.readData, State.startCommand_readData,
      ite_self]

/-- The record of reads grows by `h_rdata` where a read transfers, and by nothing else. -/
theorem State.afterHost_readData (p : InputPins) (m : MflTiming) (s : State) :
    (s.afterHost p m).readData = s.readData ++
      if p.hValid = true ∧ m.hReady = true ∧ p.host.hWrite = false then [s.hRdata p.host] else [] := by
  by_cases ht : p.hValid = true ∧ m.hReady = true
  · rw [State.afterHost, if_pos (by simp [transferHappens, ht])]
    cases hw : p.host.hWrite
    · simp [HostPins.access, hw, State.hostAccess, State.hRdata, ht]
    · simp [HostPins.access, hw, State.hostAccess, hostWrite_readData]
  · rw [State.afterHost, if_neg (by simpa [transferHappens] using ht), if_neg fun h => ht ⟨h.1, h.2.1⟩,
      List.append_nil]

theorem takeRequest_withReadData (l : List Byte) (p : InputPins) (s : State) :
    (s.withReadData l).takeRequest p = (s.takeRequest p).withReadData l := by
  unfold State.takeRequest
  rw [apply_ite (State.withReadData l)]
  rfl

/-- The sequencer's part of an edge neither reads nor writes the record. -/
theorem sequencerEdge_withReadData (l : List Byte) (p : InputPins) (m : MflTiming) (s : State) :
    (s.withReadData l).sequencerEdge p m = nextWith (State.withReadData l) (s.sequencerEdge p m) := by
  rcases ho : s.outstanding with _ | ⟨r, a⟩
  · rw [State.sequencerEdge_none ho, State.sequencerEdge_none (s := s.withReadData l) ho,
      apply_ite (nextWith (State.withReadData l)), seqStepAnswered_withReadData]
    rfl
  · cases a with
    | false =>
      rw [State.sequencerEdge_untaken ho, State.sequencerEdge_untaken (s := s.withReadData l) ho,
        takeRequest_withReadData]
      rfl
    | true =>
      cases r with
      | cipher op b k =>
        rw [State.sequencerEdge_cipher ho, State.sequencerEdge_cipher (s := s.withReadData l) ho,
          apply_ite (nextWith (State.withReadData l)), ← seqStepAnswered_withReadData]
        rfl
      | random n =>
        rw [State.sequencerEdge_random ho, State.sequencerEdge_random (s := s.withReadData l) ho,
          apply_ite (nextWith (State.withReadData l)), ← seqStepAnswered_withReadData]
        rfl

/-! ### The edge with `rst = 0` -/

/-- `u` with what every edge from `s` leaves behind: the record of reads and the late answers still owed. -/
def State.afterEdge (p : InputPins) (m : MflTiming) (s u : State) : State :=
  { u with
    readData := (s.afterHost p m).readData
    late := s.late.given (s.cipherAnswers p m) (s.randomAnswers p m) }

section
variable {s : State} {p : InputPins} {m : MflTiming}

theorem State.edge_at_rest (hr : p.rst = false) (hb : s.busy = false) :
    s.edge p m = .next (State.afterEdge p m s (s.afterHost p m)) := State.edge_idle hr m hb

theorem State.edge_running (hr : p.rst = false) (hb : s.busy = true) :
    s.edge p m = nextWith (State.afterEdge p m s) (s.sequencerEdge p m) := by
  have hhost : s.afterHost p m = State.withReadData (s.afterHost p m).readData s := State.afterHost_busy hb p m
  rw [State.edge_busy hr m hb, hhost, sequencerEdge_withReadData]
  cases s.sequencerEdge p m <;> rfl

theorem State.Inv.edge_next (h : s.Inv) (hr : p.rst = false) : ∃ u, s.edge p m = .next (State.afterEdge p m s u) := by
  cases hb : s.busy with
  | false => exact ⟨_, State.edge_at_rest hr hb⟩
  | true =>
    obtain ⟨u, hu⟩ := h.sequencerEdge_next p m
    exact ⟨u, by rw [State.edge_running hr hb, hu, nextWith_next]⟩

/-! ### A request on its port -/

theorem State.takeRequest_cipher {op : CipherOp} {b : Block} {k : Key}
    (ho : s.outstanding = some ⟨.cipher op b k, false⟩) :
    s.takeRequest p = { s with outstanding := some ⟨.cipher op b k, p.cReqReady⟩ } := by
  obtain ⟨hc, hq⟩ := State.cReq_isSome ho
  cases hready : p.cReqReady with
  | false =>
    rw [← ho]
    exact State.takeRequest_untaken (by simp [State.requestTransfers, transferHappens, hq, hready])
  | true => simp [State.takeRequest, State.requestTransfers, transferHappens, hc, ho, hready]

theorem State.takeRequest_random {n : Nat} (ho : s.outstanding = some ⟨.random n, false⟩) :
    s.takeRequest p = { s with outstanding := some ⟨.random n, p.rReqReady⟩ } := by
  obtain ⟨hc, hq⟩ := State.rReq_isSome ho
  cases hready : p.rReqReady with
  | false =>
    rw [← ho]
    exact State.takeRequest_untaken (by simp [State.requestTransfers, transferHappens, hq, hready])
  | true => simp [State.takeRequest, State.requestTransfers, transferHappens, hc, ho, hready]

theorem State.edge_untaken {r : PortRequest} (hr : p.rst = false) (hb : s.busy = true)
    (ho : s.outstanding = some ⟨r, false⟩) : s.edge p m = .next (State.afterEdge p m s (s.takeRequest p)) := by
  rw [State.edge_running hr hb, State.sequencerEdge_untaken ho, nextWith_next]

/-! ### A request taken, and its answer -/

theorem State.cipherAnswers_taken {op : CipherOp} {b : Block} {k : Key}
    (ho : s.outstanding = some ⟨.cipher op b k, true⟩) : s.cipherAnswers p m = (p.cRspValid && m.cRspReady) := by
  simp [State.cipherAnswers, transferHappens, State.cRspReady, State.owed_cipher ho]

theorem State.randomAnswers_taken {n : Nat} (ho : s.outstanding = some ⟨.random n, true⟩) :
    s.randomAnswers p m = (p.rRspValid && m.rRspReady) := by
  simp [State.randomAnswers, transferHappens, State.rRspReady, State.owed_random ho]

/-- An answer is used only where it transfers and none is late. -/
theorem not_used_of {valid ready : Bool} {late : Nat} (hno : valid = false ∨ ready = false ∨ 0 < late) :
    ¬((valid && ready) = true ∧ late = 0) := by
  rintro ⟨hans, rfl⟩
  obtain ⟨rfl, rfl⟩ := Bool.and_eq_true_iff.1 hans
  simp at hno

/-- Where no answer transfers, or a late one does, the MFL waits on the cipher as it is (R86, R271). -/
theorem State.edge_cipher_waits {op : CipherOp} {b : Block} {k : Key} (hr : p.rst = false) (hb : s.busy = true)
    (ho : s.outstanding = some ⟨.cipher op b k, true⟩)
    (hno : p.cRspValid = false ∨ m.cRspReady = false ∨ 0 < s.late.cipher) :
    s.edge p m = .next (State.afterEdge p m s s) := by
  rw [State.edge_running hr hb, State.sequencerEdge_cipher ho, State.cipherAnswers_taken ho,
    if_neg (not_used_of hno), nextWith_next]

theorem State.edge_random_waits {n : Nat} (hr : p.rst = false) (hb : s.busy = true)
    (ho : s.outstanding = some ⟨.random n, true⟩)
    (hno : p.rRspValid = false ∨ m.rRspReady = false ∨ 0 < s.late.random) :
    s.edge p m = .next (State.afterEdge p m s s) := by
  rw [State.edge_running hr hb, State.sequencerEdge_random ho, State.randomAnswers_taken ho,
    if_neg (not_used_of hno), nextWith_next]

/-- The cipher's answer, none being late, is used by the block step of the latched command (R216). -/
theorem State.Inv.edge_cipher_answer {op : CipherOp} {b : Block} {k : Key} (h : s.Inv) (hr : p.rst = false)
    (ho : s.outstanding = some ⟨.cipher op b k, true⟩) (hv : p.cRspValid = true) (hm : m.cRspReady = true)
    (hl : s.late.cipher = 0) :
    ∃ i d, s.command = some i ∧ blockRequest i s = some (d, op, b) ∧
      s.edge p m = .next (State.afterEdge p m s (blockAdvance
        (blockTake i d (bitsBlock p.cRspBlock) { s with cipher := s.cipher.learn op b k (bitsBlock p.cRspBlock) }))) := by
  obtain ⟨hb, hp, rfl, hi, i, d, hc, hq⟩ := h.of_cipher_asked ho
  refine ⟨i, d, hc, hq, ?_⟩
  rw [State.edge_running hr hb, State.sequencerEdge_cipher ho, State.cipherAnswers_taken ho,
    if_pos ⟨by rw [hv, hm]; rfl, hl⟩, State.seqStepAnswered_cipher _ _ ho hp hc hq hi, nextWith_next]

/-- The random source's answer, none being late, is used by the random step (R215). -/
theorem State.Inv.edge_random_answer {n : Nat} (h : s.Inv) (hr : p.rst = false)
    (ho : s.outstanding = some ⟨.random n, true⟩) (hv : p.rRspValid = true) (hm : m.rRspReady = true)
    (hl : s.late.random = 0) :
    ∃ i, drawsRandom i = true ∧ n = prefixLen i ∧
      (p.rRsp.answer = .fail → s.edge p m = .next (State.afterEdge p m s (s.drawTaken.raise .obuf .rng))) ∧
      (∀ r, p.rRsp.answer = .ok r → s.edge p m = .next (State.afterEdge p m s (
        if i = .cbcEnc then (s.drawTaken.setPrev r).enterLoop r.toList
        else (s.drawTaken.setNonce (nonceOf r)).enterLoop (nonceOf r).toList))) := by
  obtain ⟨hb, hp, i, hc, hd, hn⟩ := h.of_random_asked ho
  have hused : (p.rRspValid && m.rRspReady) = true ∧ s.late.random = 0 := ⟨by rw [hv, hm]; rfl, hl⟩
  refine ⟨i, hd, hn, fun ha => ?_, fun r ha => ?_⟩ <;>
    rw [State.edge_running hr hb, State.sequencerEdge_random ho, State.randomAnswers_taken ho, if_pos hused,
      State.seqStepAnswered_random _ _ ho hp hc hd, nextWith_next, ha]

/-! ### The request ports -/

theorem State.quiet_of_taken {r : PortRequest} (ho : s.outstanding = some ⟨r, true⟩) : s.cReq = none ∧ s.rReq = none := by
  cases r <;> simp [State.cReq, State.rReq, ho]

theorem State.quiet_of_none (ho : s.outstanding = none) : s.cReq = none ∧ s.rReq = none := by
  simp [State.cReq, State.rReq, ho]

theorem mflHolds_of_quiet (hq : s.cReq = none ∧ s.rReq = none) (t : State) : mflHolds p s t :=
  ⟨fun hv => by simp [hq.1] at hv, fun hv => by simp [hq.2] at hv⟩

/-- The ports show the outstanding request and nothing else. -/
theorem State.req_congr {t : State} (ho : t.outstanding = s.outstanding) : t.cReq = s.cReq ∧ t.rReq = s.rReq := by
  simp only [State.cReq, State.rReq, ho, and_self]

/-- The MFL holds its request until the port takes it (R87). -/
theorem mflHolds_edge {t : State} (h : s.Inv) (hr : p.rst = false) (he : s.edge p m = .next t) : mflHolds p s t := by
  rcases ho : s.outstanding with _ | ⟨r, a⟩
  · exact mflHolds_of_quiet (State.quiet_of_none ho) t
  cases a with
  | true => exact mflHolds_of_quiet (State.quiet_of_taken ho) t
  | false =>
    cases r with
    | cipher op b k =>
      rw [State.edge_untaken hr (h.of_cipher_asked ho).1 ho, State.takeRequest_cipher ho] at he
      cases he
      refine ⟨fun _ hready => (State.req_congr ?_).1, fun hv => by simp [(State.cReq_isSome ho).2] at hv⟩
      rw [ho, ← hready]
      rfl
    | random n =>
      rw [State.edge_untaken hr (h.of_random_asked ho).1 ho, State.takeRequest_random ho] at he
      cases he
      refine ⟨fun hv => by simp [(State.rReq_isSome ho).2] at hv, fun _ hready => (State.req_congr ?_).2⟩
      rw [ho, ← hready]
      rfl

/-! ### The edge with `rst = 1` (R270, R271) -/

theorem State.takeRequest_late (p : InputPins) (s : State) : (s.takeRequest p).late = s.late := by
  rw [(s.takeRequest_eq p).1]

theorem State.owed_takeRequest_cipher {op : CipherOp} {b : Block} {k : Key} {a : Bool}
    (ho : s.outstanding = some ⟨.cipher op b k, a⟩) (ha : a = true ∨ p.cReqReady = true) :
    (s.takeRequest p).owed = { s.late with cipher := s.late.cipher + 1 } := by
  rw [State.owed_cipher (State.takeRequest_taken_cipher ho ha), State.takeRequest_late]

theorem State.owed_takeRequest_random {n : Nat} {a : Bool} (ho : s.outstanding = some ⟨.random n, a⟩)
    (ha : a = true ∨ p.rReqReady = true) :
    (s.takeRequest p).owed = { s.late with random := s.late.random + 1 } := by
  rw [State.owed_random (State.takeRequest_taken_random ho ha), State.takeRequest_late]

/-- Where no request has been taken by the edge, it adds nothing to what is owed. -/
theorem State.owed_takeRequest_untaken
    (ho : s.outstanding = none ∨ (∃ op b k, s.outstanding = some ⟨.cipher op b k, false⟩ ∧ p.cReqReady = false) ∨
      (∃ n, s.outstanding = some ⟨.random n, false⟩ ∧ p.rReqReady = false)) : (s.takeRequest p).owed = s.late := by
  rcases ho with ho | ⟨op, b, k, ho, hready⟩ | ⟨n, ho, hready⟩
  · rw [State.takeRequest_none ho, State.owed_none ho]
  · rw [State.takeRequest_cipher ho, State.owed_untaken (r := .cipher op b k) (by rw [hready])]
  · rw [State.takeRequest_random ho, State.owed_untaken (r := .random n) (by rw [hready])]

/-! ### The clauses of the edge with `rst = 0` -/

theorem State.edge_at_rest_clause {t : State} (hr : p.rst = false) (he : s.edge p m = .next t) (hb : s.busy = false) :
    (p.hValid = true → m.hReady = true → t = { s.hostAccess p.host.access with late := t.late }) ∧
    (p.hValid = false ∨ m.hReady = false → t = { s with late := t.late }) := by
  rw [State.edge_idle hr m hb] at he
  cases he
  refine ⟨fun hv hm => ?_, fun hno => ?_⟩
  · rw [State.afterHost, if_pos (by simp [transferHappens, hv, hm])]
  · rw [State.afterHost, if_neg (by rcases hno with hno | hno <;> simp [transferHappens, hno])]

/-- With nothing outstanding the command stays, or takes one step in which no collaborator answers (log 14). -/
theorem State.Inv.edge_unasked_clause {t : State} (h : s.Inv) (hr : p.rst = false) (he : s.edge p m = .next t)
    (hb : s.busy = true) (ho : s.outstanding = none) :
    (m.advance = false → t = { s with readData := t.readData, late := t.late }) ∧
    (m.advance = true → ∃ u,
      State.seqStep { s with cipher := { s.cipher with live := false }, rng := { s.rng with live := false } } = .next u ∧
      t = { u with
        cipher := { u.cipher with live := s.cipher.live }, rng := { u.rng with live := s.rng.live }
        readData := t.readData, late := t.late }) := by
  rw [State.edge_running hr hb, State.sequencerEdge_none ho] at he
  refine ⟨fun hadv => ?_, fun hadv => ?_⟩
  · rw [if_neg (by simp [hadv])] at he
    cases he
    rfl
  · obtain ⟨u, hu⟩ := (inv_answering h false false).seqStep_next
    rw [if_pos hadv, State.seqStepAnswered, hu] at he
    simp only [nextWith_next, State.afterEdge, State.answering] at he
    cases he
    exact ⟨u, hu, rfl⟩

/-- What the block step writes to `W`, `PREV` and `CNT`, by the command (R216). -/
theorem blockTake_writes {i : Instr} {u : State} {op : CipherOp} {d b : Block}
    (hq : blockRequest i s = some (d, op, b)) (c : CipherPort) (a : Block)
    (hu : blockTake i d a { s with cipher := c } = u) :
    (i = .ecbEnc ∨ i = .ecbDec → u.work = s.work ++ a.toList ∧ u.prev = s.prev ∧ u.cnt = s.cnt) ∧
    (i = .cbcEnc → u.work = s.work ++ a.toList ∧ u.prev = a ∧ u.cnt = s.cnt) ∧
    (i = .cbcDec → u.work = s.work ++ (xor16 a s.prev).toList ∧ u.prev = s.bodyBlock 16 s.idx.toNat ∧ u.cnt = s.cnt) ∧
    (i = .ctrEnc → u.work = s.work ++ (xor16 (s.plainBlock s.idx.toNat) a).toList ∧ u.prev = s.prev ∧ u.cnt = s.cnt + 1) ∧
    (i = .ctrDec → u.work = s.work ++ (xor16 (s.bodyBlock 8 s.idx.toNat) a).toList ∧ u.prev = s.prev ∧
      u.cnt = s.cnt + 1) := by
  subst hu
  have hd := congrArg (Option.map Prod.fst) hq
  refine ⟨?_, ?_, ?_, ?_, ?_⟩
  · rintro (rfl | rfl) <;> simp only [blockTake, and_self]
  · rintro rfl
    simp only [blockTake, and_self]
  · rintro rfl
    obtain rfl : s.bodyBlock 16 s.idx.toNat = d := Option.some.inj hd
    simp only [blockTake, and_self]
  · rintro rfl
    obtain rfl : s.plainBlock s.idx.toNat = d := Option.some.inj hd
    simp only [blockTake, and_self]
  · rintro rfl
    obtain rfl : s.bodyBlock 8 s.idx.toNat = d := Option.some.inj hd
    simp only [blockTake, and_self]

/-- The next state after the cipher's answer, whole (R216). -/
theorem State.Inv.edge_cipher_answer_clause {op : CipherOp} {b : Block} {k : Key} {t : State} (h : s.Inv)
    (hr : p.rst = false) (he : s.edge p m = .next t) (ho : s.outstanding = some ⟨.cipher op b k, true⟩)
    (hv : p.cRspValid = true) (hm : m.cRspReady = true) (hl : s.late.cipher = 0) :
    ∃ i d v, s.command = some i ∧ blockRequest i s = some (d, op, b) ∧
      blockTake i d (bitsBlock p.cRspBlock) { s with cipher := s.cipher.learn op b k (bitsBlock p.cRspBlock) } = v ∧
      t.work = v.work ∧ t.prev = v.prev ∧ t.cnt = v.cnt ∧
      t = { s with
        idx := s.idx + 1, phase := if s.idx + 1 = s.n then .final else .block, outstanding := none
        cipher := { s.cipher with known := ⟨op, b, k, bitsBlock p.cRspBlock⟩ :: s.cipher.known }
        work := t.work, prev := t.prev, cnt := t.cnt, readData := t.readData, late := t.late } := by
  obtain ⟨i, d, hi, hq, heq⟩ := h.edge_cipher_answer hr ho hv hm hl
  rw [heq, blockAdvance_blockTake] at he
  generalize hw : blockTake i d (bitsBlock p.cRspBlock) _ = v at he
  cases he
  exact ⟨i, d, v, hi, hq, hw, rfl, rfl, rfl, rfl⟩

/-- The next state after the random source's answer, whole (R215). -/
theorem State.Inv.edge_random_answer_clause {n : Nat} {t : State} (h : s.Inv) (hr : p.rst = false)
    (he : s.edge p m = .next t) (ho : s.outstanding = some ⟨.random n, true⟩) (hv : p.rRspValid = true)
    (hm : m.rRspReady = true) (hl : s.late.random = 0) :
    (p.rRsp.rRspFail = true →
      t = { (s.withOutput []).endedWith 0x42 with rng := s.rng.advance, readData := t.readData, late := t.late }) ∧
    (p.rRsp.rRspFail = false → n = 16 →
      t = { s with
        prev := bitsBlock p.rRsp.rRspData, work := (bitsBlock p.rRsp.rRspData).toList, idx := 0, phase := .block
        outstanding := none, rng := s.rng.advance, readData := t.readData, late := t.late }) ∧
    (p.rRsp.rRspFail = false → n = 8 →
      t = { s with
        nonce := nonceOf (bitsBlock p.rRsp.rRspData), cnt := 0, work := (bitsBlock p.rRsp.rRspData).toList.take 8
        idx := 0, phase := .block, outstanding := none, rng := s.rng.advance, readData := t.readData
        late := t.late }) ∧
    (n = 16 ∨ n = 8) := by
  obtain ⟨i, hd, hn, hfail, hok⟩ := h.edge_random_answer hr ho hv hm hl
  cases hf : p.rRsp.rRspFail with
  | true =>
    rw [hfail (if_pos hf), raise_obuf] at he
    have hst : statusError .rng = 0x42 := by decide
    simp only [hst, State.afterEdge, State.withOutput, State.endedWith, State.drawTaken] at he
    cases he
    refine ⟨fun _ => rfl, fun hne => absurd hne (by decide), fun hne => absurd hne (by decide), ?_⟩
    exact (prefixLen_random i hd).imp (fun hpre => hn.trans hpre.2) fun hpre => hn.trans hpre.2
  | false =>
    rw [hok _ (if_neg (by simp [hf]))] at he
    generalize bitsBlock p.rRsp.rRspData = r at he ⊢
    rcases prefixLen_random i hd with ⟨rfl, hpre⟩ | ⟨rfl, hpre⟩
    · simp only [if_true, State.afterEdge, State.enterLoop, State.setPrev, State.drawTaken] at he
      cases he
      exact ⟨nofun, fun _ _ => rfl, fun _ h8 => by omega, .inl (hn.trans hpre)⟩
    · simp only [reduceCtorEq, if_false, toList_nonceOf, State.afterEdge, State.enterLoop, State.setNonce,
        State.drawTaken] at he
      cases he
      exact ⟨nofun, fun _ h16 => by omega, fun _ _ => rfl, .inr (hn.trans hpre)⟩

end

/-- Settles O60. Each edge has a next state (`edge_next`); with `rst = 1` it is `resetEdge`, and with `rst = 0` what is
outstanding and what transfers decide which equation of the edge gives it. -/
theorem edgesOfTheBinding : Obligations.EdgesOfTheBinding := by
  intro s p m h
  refine ⟨fun hr => ?_, fun hr => ?_⟩
  · have hlate := s.resetEdge_late p m
    refine ⟨(s.resetEdge p m).late, State.edge_reset hr m s, fun op b k a ho ha => ?_, fun n a ho ha => ?_, fun ho => ?_⟩
    · rwa [State.owed_takeRequest_cipher ho ha] at hlate
    · rwa [State.owed_takeRequest_random ho ha] at hlate
    · rwa [State.owed_takeRequest_untaken ho] at hlate
  obtain ⟨u, he⟩ := h.edge_next (m := m) hr
  refine ⟨_, he, mflHolds_edge h hr he, ?_, ?_, s.afterHost_readData p m, State.edge_at_rest_clause hr he,
    h.edge_unasked_clause hr he, fun op b k ho => ?_, fun n ho => ?_, fun op b k ho => ?_, fun n ho => ?_⟩
  · exact apply_ite (s.late.cipher - ·) _ 1 0 |>.symm
  · exact apply_ite (s.late.random - ·) _ 1 0 |>.symm
  · rw [State.edge_untaken hr (h.of_cipher_asked ho).1 ho, State.takeRequest_cipher ho] at he
    refine ⟨by rw [State.cReq, ho], (State.cReq_isSome ho).2, ?_⟩
    rw [← Host.Outcome.next.inj he]
    rfl
  · rw [State.edge_untaken hr (h.of_random_asked ho).1 ho, State.takeRequest_random ho] at he
    refine ⟨by rw [State.rReq, ho], (State.rReq_isSome ho).2, ?_⟩
    rw [← Host.Outcome.next.inj he]
    rfl
  · obtain ⟨hc, hq⟩ := State.quiet_of_taken ho
    refine ⟨hc, hq, fun hno => ?_, fun hv hm hl => ?_⟩
    · rw [State.edge_cipher_waits hr (h.of_cipher_asked ho).1 ho hno] at he
      rw [← Host.Outcome.next.inj he]
      rfl
    · obtain ⟨i, d, v, hi, hreq, htake, hwork, hprev, hcnt, ht⟩ := h.edge_cipher_answer_clause hr he ho hv hm hl
      rw [hwork, hprev, hcnt, hi]
      simp only [Option.some.injEq]
      rw [hwork, hprev, hcnt] at ht
      exact ⟨ht, blockTake_writes hreq _ _ htake⟩
  · obtain ⟨hc, hq⟩ := State.quiet_of_taken ho
    refine ⟨hc, hq, fun hno => ?_, h.edge_random_answer_clause hr he ho⟩
    rw [State.edge_random_waits hr (h.of_random_asked ho).1 ho hno] at he
    rw [← Host.Outcome.next.inj he]
    rfl

end Sys2Proof.Machine
end

section
/-! PROOF. The encoding (spec/30_encoding.md R100 to R105): the decoder accepts the encodings and nothing else, one after
another on a stream, and an illegal byte ends where it starts (R242). -/

namespace Sys2Proof

/-! ### One command -/

theorem decode_cons_of_some {b : Byte} {i : Instr} (h : decodeByte b = some i) (rest : List Byte) :
    decode (b :: rest) = .ok (i, rest) := by
  rw [decode, h]

theorem decode_cons_of_none {b : Byte} (h : decodeByte b = none) (rest : List Byte) :
    decode (b :: rest) = .error (.illegalOpcode b) := by
  rw [decode, h]

theorem decode_encode_append (i : Instr) (rest : List Byte) : decode (encode i ++ rest) = .ok (i, rest) :=
  decode_cons_of_some (Machine.decodeByte_opcodeOf i) rest

/-- Only the encoding of `i` decodes to `i`: the byte in front is one whose whole value is the opcode (R101). -/
theorem eq_encode_append_of_decode {bytes rest : List Byte} {i : Instr} (h : decode bytes = .ok (i, rest)) :
    bytes = encode i ++ rest := by
  cases bytes with
  | nil => cases h
  | cons b tail =>
    cases hb : decodeByte b with
    | none => rw [decode_cons_of_none hb] at h; cases h
    | some j =>
      rw [decode_cons_of_some hb] at h
      cases h
      rw [Machine.decodeByte_eq_some.1 hb]
      rfl

/-- Settles O2. -/
theorem decodedBytesAreTheEncoding : Obligations.DecodedBytesAreTheEncoding := by
  intro bytes i rest
  constructor
  · exact eq_encode_append_of_decode
  · rintro rfl
    exact decode_encode_append i rest

/-! ### A stream of commands -/

theorem decodeMany_succ {k : Nat} {bytes rest rest' : List Byte} {i : Instr} {is : List Instr}
    (h : decode bytes = .ok (i, rest)) (hs : decodeMany k rest = .ok (is, rest')) :
    decodeMany (k + 1) bytes = .ok (i :: is, rest') := by
  simp only [decodeMany, h, hs]

theorem decodeMany_encodings (is : List Instr) (rest : List Byte) :
    decodeMany is.length ((is.map encode).flatten ++ rest) = .ok (is, rest) := by
  induction is with
  | nil => rfl
  | cons i is ih =>
    rw [List.map_cons, List.flatten_cons, List.append_assoc]
    exact decodeMany_succ (decode_encode_append i _) ih

/-- Settles O1, by induction on the commands; every command is well formed (R104), so none needs its premise. -/
theorem decodeInvertsEncodeOnStreams : Obligations.DecodeInvertsEncodeOnStreams :=
  fun is rest _ => decodeMany_encodings is rest

/-! ### The opcode map -/

/-- Settles O3, over the 256 cells of the map. -/
theorem opcodeMap : Obligations.OpcodeMap := by
  unfold Obligations.OpcodeMap
  decide

/-- Settles O4: the five words and the word of zeros are decoded. -/
theorem opcodeWordsDecode : Obligations.OpcodeWordsDecode := by
  unfold Obligations.OpcodeWordsDecode
  decide

end Sys2Proof

namespace Sys2Proof.Machine

/-! ### Illegal bytes -/

/-- The check step of an illegal byte ends the command (R213 step 1). -/
theorem State.seqStep_illegal {s : State} (hp : s.phase = .check) (hc : s.command = none) :
    s.seqStep = .next (s.endedWith 0x12) := by
  rw [State.seqStep, hp, hc]
  rfl

/-- From `IDLE` the hidden registers are clear already, so a command that ends where it starts writes `OPC` and `STATUS`
and nothing else. -/
theorem State.Inv.startCommand_endedWith {s : State} (h : s.Inv) (hp : s.phase = .idle) (v status : Byte) :
    (s.startCommand v).endedWith status = { s with opc := v, status := status } := by
  obtain ⟨hn, hidx, hprev, hnonce, hcnt, hwork, hout⟩ := h.hidden_of_rest (.inl hp)
  simp only [State.endedWith, State.startCommand, hp, hn, hidx, hprev, hnonce, hcnt, hwork, hout]

/-- R105: 256 byte values less the eleven opcodes. -/
theorem illegal_byte_count :
    ((List.range 256).filter fun k => (decodeByte (BitVec.ofNat 8 k)).isNone).length = 245 := by
  decide +kernel

/-- Settles O5: an illegal byte latched in `CMD` is in `CHECK` with no command, and both levels end it there. -/
theorem illegalCommandTouchesNothing : Obligations.IllegalCommandTouchesNothing := by
  refine ⟨illegal_byte_count, by decide, fun s v h hp hv => ?_⟩
  have hc : (s.startCommand v).command = none := by rw [State.command_eq, State.startCommand_opc, hv]
  rw [hostWrite_cmd (inv_idle h hp).1, ← h.startCommand_endedWith hp v 0x12]
  exact ⟨runCommand_illegal rfl hc, State.seqStep_illegal rfl hc⟩

end Sys2Proof.Machine
end

section
/-! PROOF. The padding codec (spec/40_padding_codec.md): the shape of `pad`, the validator, `PAD` and `UNPAD` whole, and
the round trip, as functions and as a program of the host notation. -/

namespace Sys2Proof.Machine

/-! ### `pad` and the validator (R120 to R122) -/

theorem length_padBytes_eq_add (x : List Byte) : (padBytes x).length = x.length + padLen x.length := by
  rw [length_padBytes, add_padLen]

/-- Settles O9: `pad` appends `padLen` bytes, 1 to 16 of them, which complete the last block and each hold their number. -/
theorem padShape : Obligations.PadShape := by
  intro x
  have hpos := padLen_pos x.length
  have hle := padLen_le x.length
  have hlen := length_padBytes_eq_add x
  refine ⟨length_padBytes x, ?_, by omega, by omega, List.take_left, ?_⟩
  · rw [length_padBytes, Nat.mul_mod_right]
  · rw [getLast?_padBytes, Option.map_some, toNat_padLen, hlen, Nat.add_sub_cancel_left]

theorem padCheck_concat (x : List Byte) (b : Byte) :
    padCheck (x ++ [b]) =
      (decide (1 ≤ b.toNat) && decide (b.toNat ≤ 16) && decide (b.toNat ≤ x.length + 1), b.toNat) := by
  simp only [padCheck, List.getLast?_concat, List.length_append, List.length_singleton]

/-- Settles O10: of a sequence that ends in `b` the validator sees `b` and the length (`padCheck_concat`). -/
theorem validatorLooksAtLastByteAndLength : Obligations.ValidatorLooksAtLastByteAndLength := by
  refine ⟨rfl, fun x b => ?_, fun x y b hlen => ?_, by decide⟩
  · rw [padCheck_concat]
    simp [and_assoc]
  · rw [padCheck_concat, padCheck_concat, hlen]

/-! ### `PAD` (R124) -/

theorem padBytes_input (s : State) :
    padBytes s.input = s.input ++ List.replicate (padLen s.inLen) (BitVec.ofNat 8 (padLen s.inLen)) := by
  rw [padBytes, length_input]

/-- Where the input does not fit, its padding does not either, so the second check of R124 decides alone. -/
theorem exec_pad_of_lt {s : State} (h : s.params.capBytes < s.inLen + padLen s.inLen) :
    exec .pad s = .next ((s.withOutput []).endedWith 0x22) := by
  rw [exec, execPad, if_pos h, ite_self]
  rfl

theorem exec_pad_of_le {s : State} (h : s.inLen + padLen s.inLen ≤ s.params.capBytes) :
    exec .pad s = .next ((s.withOutput (padBytes s.input)).endedWith 0x02) := by
  rw [exec, execPad, if_neg (by omega), if_neg (by omega)]
  rfl

theorem Params.capBytes_lt_of_wf {p : Params} (h : p.wf = true) : p.capBytes < 2 ^ 32 :=
  of_decide_eq_true (Bool.and_eq_true_iff.1 h).2

/-- An end of `PAD` with `STATUS` 0x02 is the one with an output, whose length the capacity keeps from wrapping. -/
theorem olen_of_exec_pad {s t : State} (hw : s.params.wf = true) (ht : exec .pad s = .next t) (hst : t.status = 0x02) :
    t.olen.toNat = 16 * (s.inLen / 16 + 1) := by
  have hcap := Params.capBytes_lt_of_wf hw
  rcases Nat.lt_or_ge s.params.capBytes (s.inLen + padLen s.inLen) with hlt | hle
  · rw [exec_pad_of_lt hlt] at ht
    cases ht
    exact absurd hst (show (0x22 : Byte) ≠ 0x02 by decide)
  · rw [exec_pad_of_le hle] at ht
    cases ht
    rw [add_padLen] at hle
    show (BitVec.ofNat 32 (padBytes s.input).length).toNat = _
    rw [length_padBytes, length_input, toNat_ofNat_lt (by omega)]

/-- Settles O11: either the padded output fits or it does not; with it fits the input. -/
theorem padResult : Obligations.PadResult := by
  refine ⟨rfl, fun s => ⟨fun hbig => ?_, fun _ hfits => ?_, fun t => olen_of_exec_pad⟩⟩
  · exact exec_pad_of_lt (by rw [padLen]; omega)
  · rw [exec_pad_of_le hfits, padBytes_input]
    rfl

/-! ### `UNPAD` (R123, R125) -/

theorem exec_unpad_of_lt {s : State} (h : s.params.capBytes < s.inLen) :
    exec .unpad s = .next ((s.withOutput []).endedWith 0x22) := by
  rw [exec, execUnpad, if_pos h]
  rfl

theorem exec_unpad_of_le {s : State} (h : s.inLen ≤ s.params.capBytes) :
    exec .unpad s = .next (s.endedUnpadding s.input) := by
  rw [exec, execUnpad, if_neg (by omega), finishUnpad_eq]

/-- Settles O12: the end with unpadding is the one that `finishUnpad_eq` gives. -/
theorem unpadResult : Obligations.UnpadResult :=
  ⟨rfl, fun _ => ⟨exec_unpad_of_lt, exec_unpad_of_le⟩⟩

/-- Finishing with unpadding strips what `pad` appended, whatever `CTRL.STRICT` is (R126). -/
theorem endedUnpadding_padBytes (s : State) (x : List Byte) :
    s.endedUnpadding (padBytes x) = (s.withOutput x).endedWith 0x02 := by
  rw [State.endedUnpadding, padCheck_padBytes, if_pos rfl, take_padBytes]

/-! ### Statements from a state at rest -/

/-- `s` with `x` as the input: stored from the start of `IBUF`, `ILEN` its length. `LOADI x` does this, and `COPYOI` does
it with `OBUF`, but for the record of reads. -/
def State.loaded (s : State) (x : List Byte) : State :=
  { s with ibuf := s.ibuf.writeSeq 0 x, ilen := BitVec.ofNat 32 x.length }

theorem State.Inv.loaded {s : State} (h : s.Inv) (hp : s.phase = .idle) {x : List Byte}
    (hx : x.length ≤ s.params.capBytes) : (s.loaded x).Inv :=
  inv_idle_congr h hp
    ⟨h.params_wf, ⟨Memory.wf_writeSeq h.ibuf_wf.1 0 x, Memory.below_writeSeq h.ibuf_wf.2 (by rwa [Nat.zero_add])⟩,
      h.blk_wf, h.olen_eq, h.ctrl_reserved⟩
    rfl rfl rfl rfl rfl rfl rfl rfl rfl

theorem State.Inv.inLen_loaded {s : State} (h : s.Inv) {x : List Byte} (hx : x.length ≤ s.params.capBytes) :
    (s.loaded x).inLen = x.length :=
  toNat_ofNat_lt (hx.trans_lt h.base.cap_lt.1)

theorem State.Inv.input_loaded {s : State} (h : s.Inv) {x : List Byte} (hx : x.length ≤ s.params.capBytes) :
    (s.loaded x).input = x := by
  rw [State.input, h.inLen_loaded hx]
  exact readSeq_writeSeq h.ibuf_wf.1 x

theorem State.Inv.runStmt_loadI {s : State} (h : s.Inv) (hp : s.phase = .idle) {x : List Byte}
    (hx : x.length ≤ s.params.capBytes) : s.runStmt (.loadI x) = some (s.loaded x, .done) :=
  loadI_eq x (inv_idle h hp).1 hx

theorem State.Inv.runStmt_copyOI {s : State} (h : s.Inv) (hp : s.phase = .idle) :
    ∃ l, s.runStmt .copyOI = some ((s.loaded s.obuf).withReadData l, .done) := by
  obtain ⟨ho, hcap⟩ := h.olen_eq
  obtain ⟨l, hl⟩ := copyOI_eq (inv_idle h hp).1 ho hcap
  have hilen : BitVec.ofNat 32 s.obuf.length = s.olen := by rw [← ho, BitVec.ofNat_toNat, BitVec.setWidth_eq]
  exact ⟨l, by rw [hl, State.loaded, hilen]⟩

/-- `RUN` of a command that ends leads to its end, which keeps the invariant, but for the record of reads. -/
theorem State.Inv.runStmt_run {s t : State} {i : Instr} (h : s.Inv) (hp : s.phase = .idle)
    (he : exec i (s.startCommand (opcodeOf i)) = .next t) (ht : t.phase = .idle) :
    ∃ l r, s.runStmt (.run i) = some (t.withReadData l, r) ∧ (t.withReadData l).Inv := by
  have hc : (s.startCommand (opcodeOf i)).command = some i := by
    rw [State.command_eq, State.startCommand_opc, decodeByte_opcodeOf]
  have hi : t.Inv := inv_exec (inv_startCommand h hp _) rfl hc he
  obtain ⟨l, hl⟩ := run_eq (inv_idle h hp).1 he (inv_idle hi ht).1
  exact ⟨l, _, hl, inv_congr hi rfl⟩

/-! ### The round trip (R126) -/

/-- `RUN PAD` with `x` as the input leaves `pad(x)` in `OBUF`. -/
theorem State.Inv.runStmt_pad {s : State} {x : List Byte} (h : s.Inv) (hp : s.phase = .idle) (hin : s.input = x)
    (hx : x.length + 16 ≤ s.params.capBytes) :
    ∃ t r, s.runStmt (.run .pad) = some (t, r) ∧ t.Inv ∧ t.phase = .idle ∧ t.obuf = padBytes x := by
  subst hin
  rw [length_input] at hx
  have hle := padLen_le s.inLen
  have he := exec_pad_of_le (s := s.startCommand (opcodeOf .pad))
    (show s.inLen + padLen s.inLen ≤ s.params.capBytes by omega)
  obtain ⟨l, r, hrun, hinv⟩ := h.runStmt_run hp he rfl
  exact ⟨_, r, hrun, hinv, rfl, rfl⟩

/-- `RUN UNPAD` with `pad(x)` as the input leaves `x` in `OBUF`. -/
theorem State.Inv.runStmt_unpad {s : State} {x : List Byte} (h : s.Inv) (hp : s.phase = .idle)
    (hin : s.input = padBytes x) (hx : s.inLen ≤ s.params.capBytes) :
    ∃ t r, s.runStmt (.run .unpad) = some (t, r) ∧ t.Inv ∧ t.obuf = x ∧ t.status = 0x02 := by
  have he : exec .unpad (s.startCommand (opcodeOf .unpad)) = .next ((s.startCommand _).endedUnpadding s.input) :=
    exec_unpad_of_le hx
  rw [hin, endedUnpadding_padBytes] at he
  obtain ⟨l, r, hrun, hinv⟩ := h.runStmt_run hp he rfl
  exact ⟨_, r, hrun, hinv, rfl, rfl⟩

theorem padProgram_roundTrip {s : State} {x : List Byte} (h : s.Inv) (hp : s.phase = .idle)
    (hx : x.length + 16 ≤ s.params.capBytes) :
    ∃ t rs, s.runStmts [.loadI x, .run .pad, .copyOI, .run .unpad] = some (t, rs) ∧
      t.obuf = x ∧ t.olen.toNat = x.length ∧ t.status = 0x02 := by
  have hx' : x.length ≤ s.params.capBytes := by omega
  obtain ⟨u, r₁, hpad, hu, hpu, hou⟩ := (h.loaded hp hx').runStmt_pad hp (h.input_loaded hx') hx
  obtain ⟨l, hcopy⟩ := hu.runStmt_copyOI hpu
  have hcap : u.obuf.length ≤ u.params.capBytes := hu.olen_eq.2
  have hv : ((u.loaded u.obuf).withReadData l).Inv := inv_congr (hu.loaded hpu hcap) rfl
  have hin : ((u.loaded u.obuf).withReadData l).input = padBytes x := (hu.input_loaded hcap).trans hou
  have hlen : ((u.loaded u.obuf).withReadData l).inLen ≤ u.params.capBytes := (hu.inLen_loaded hcap).trans_le hcap
  obtain ⟨t, r₂, hunpad, ht, hot, hst⟩ := hv.runStmt_unpad hpu hin hlen
  have hruns := runStmts_cons_some (h.runStmt_loadI hp hx') <| runStmts_cons_some hpad <|
    runStmts_cons_some hcopy <| runStmts_cons_some hunpad (show t.runStmts [] = some (t, []) from rfl)
  exact ⟨t, _, hruns, hot, hot ▸ ht.olen_eq.1, hst⟩

/-- Settles O54: `padProgram_roundTrip` is the program. The converse fails for two bytes that end in their own number,
which strip to the empty sequence, whose padding is a whole block. -/
theorem padRoundTrip : Obligations.PadRoundTrip :=
  ⟨fun x => ⟨padCheck_padBytes x, take_padBytes x⟩, fun _ _ => padProgram_roundTrip, [0x41, 0x02], by decide⟩

end Sys2Proof.Machine
end

section
/-! PROOF. The segmenter and the combiner (spec/41_segmenter_xor.md): the two functions byte by byte and their laws, `XOR`,
`GROUP` and `UNGROUP` whole, and the round trips, as functions and as programs of the host notation. -/

namespace Sys2Proof.Machine

/-! ### The combiner and `XOR` (R142, R145, R147) -/

theorem xor16_cancel_left (a b : Block) : xor16 a (xor16 a b) = b := by
  rw [xor16_comm a b, xor16_comm, xor16_cancel]

/-- Settles O17: the laws of the exclusive or of bytes, taken byte by byte (`byteOf_xor16`). -/
theorem xorLaws : Obligations.XorLaws :=
  fun a b c => ⟨xor16_cancel_left a b, xor16_self a, xor16_comm a b, xor16_zero a, xor16_assoc a b c⟩

theorem exec_xor (s : State) : exec .xor s = .next (State.endedWith { s with xc := xor16 s.xa s.xb } 0x02) := rfl

/-- Settles O15: the block stored is the combiner's, whose bytes `byteOf_xor16` gives. -/
theorem xorResult : Obligations.XorResult :=
  ⟨rfl, fun s => ⟨xor16 s.xa s.xb, exec_xor s, fun k _ => byteOf_xor16 s.xa s.xb k⟩⟩

/-! ### The segmenter (R140, R141) -/

theorem byte_of_groupBytes (x : List Byte) {j k : Nat} (hj : j < x.length / 16) (hk : k < 16) :
    (groupBytes x)[j]?.map (byteOf · k) = x[16 * j + k]? := by
  have hlt : 16 * j + k < x.length := by omega
  rw [getElem?_groupBytes x hj, Option.map_some, byteOf_blockAt x j hk, List.getD_eq_getElem x 0 hlt,
    List.getElem?_eq_getElem hlt]

/-- Settles O16: the bytes of `group` are those of `blockAt`, the others the laws of `ungroup` and of the combiner. -/
theorem segmenterAndCombinerBytes : Obligations.SegmenterAndCombinerBytes :=
  ⟨fun x _ _ => byte_of_groupBytes x, fun bs j _ => getElem?_ungroupBlocks bs j, length_ungroupBlocks,
    fun a b k _ => byteOf_xor16 a b k⟩

/-! ### Blocks stored in `BLK` (R35, R143) -/

/-- Blocks stored from block 0 on are their bytes from address 0 on; behind them `BLK` is as before. -/
theorem Memory.read_writeBlocks {m : Memory} (hm : m.wf = true) (bs : List Block) (a : Nat) :
    (m.writeBlocks 0 bs).read a = ((ungroupBlocks bs)[a]?).getD (m.read a) := by
  rw [Memory.writeBlocks_eq, Memory.read_writeSeq hm, if_pos (Nat.zero_le a), Nat.mul_zero, Nat.sub_zero, ungroupBlocks]

theorem storedBlocks_eq_groupBytes (s : State) (k : Nat) : s.storedBlocks k = groupBytes (s.blk.readSeq 0 (16 * k)) := by
  rw [← ungroup_stored, groupBytes_ungroupBlocks]

theorem storedBlocks_storeBlocks {s : State} (hm : s.blk.wf = true) (bs : List Block) :
    (s.storeBlocks bs).storedBlocks bs.length = bs := by
  rw [storedBlocks_eq_groupBytes, State.storeBlocks_blk, Memory.writeBlocks_eq, ← length_ungroupBlocks]
  exact (congrArg groupBytes (readSeq_writeSeq hm _)).trans (groupBytes_ungroupBlocks bs)

/-! ### `GROUP` (R143) -/

theorem exec_group_of_lt {s : State} (h : s.params.capBytes < s.inLen) :
    exec .group s = .next (State.endedWith { s with nblk := 0 } 0x22) := by
  rw [exec, execGroup, if_pos h]
  rfl

theorem exec_group_of_unaligned {s : State} (h : s.inLen ≤ s.params.capBytes) (ha : s.inLen % 16 ≠ 0) :
    exec .group s = .next (State.endedWith { s with nblk := 0 } 0x32) := by
  rw [exec, execGroup, if_neg (by omega), if_pos ha]
  rfl

theorem exec_group_of_aligned {s : State} (h : s.inLen ≤ s.params.capBytes) (ha : s.inLen % 16 = 0) :
    exec .group s = .next ((s.storeBlocks (groupBytes s.input)).endedWith 0x02) := by
  rw [exec, execGroup, if_neg (by omega), if_neg (not_not_intro ha)]
  rfl

/-- `BLK` after `GROUP`: `IBUF`'s byte inside the blocks stored, and the byte there was beyond them. -/
theorem read_writeBlocks_input {s : State} (hm : s.blk.wf = true) (ha : s.inLen % 16 = 0) (a : Nat) :
    (s.blk.writeBlocks 0 (groupBytes s.input)).read a =
      if a < 16 * (s.inLen / 16) then s.ibuf.read a else s.blk.read a := by
  rw [Memory.read_writeBlocks hm, ungroupBlocks_groupBytes (by rwa [length_input]), State.input, Memory.getElem?_readSeq,
    Nat.zero_add, show 16 * (s.inLen / 16) = s.inLen by omega]
  split <;> rfl

/-- Settles O13: the memory is `BLK` with the blocks of the input stored from block 0 on. -/
theorem groupResult : Obligations.GroupResult := by
  refine ⟨rfl, fun s hm => ⟨exec_group_of_lt, exec_group_of_unaligned, fun h ha =>
    ⟨s.blk.writeBlocks 0 (groupBytes s.input), ?_, Memory.wf_writeBlocks hm 0 _, read_writeBlocks_input hm ha⟩⟩⟩
  rw [exec_group_of_aligned h ha, State.storeBlocks, length_groupBytes, length_input]

/-! ### `UNGROUP` (R144) -/

theorem exec_ungroup_of_lt {s : State} (h : s.params.capBytes < 16 * s.nblk.toNat) :
    exec .ungroup s = .next ((s.withOutput []).endedWith 0x22) := by
  rw [exec, execUngroup, if_pos h]
  rfl

theorem exec_ungroup_of_le {s : State} (h : 16 * s.nblk.toNat ≤ s.params.capBytes) :
    exec .ungroup s = .next ((s.withOutput (ungroupBlocks (s.storedBlocks s.nblk.toNat))).endedWith 0x02) := by
  rw [exec, execUngroup, if_neg (by omega)]
  rfl

/-- Settles O14: the bytes of the stored blocks are those of `BLK` in order (`ungroup_stored`). -/
theorem ungroupResult : Obligations.UngroupResult :=
  ⟨rfl, fun s => ⟨exec_ungroup_of_lt, fun h => by rw [exec_ungroup_of_le h, ungroup_stored]⟩⟩

/-! ### The statements of the round-trip programs -/

/-- `RUN GROUP` with the aligned `x` as the input leaves the blocks of `x` in `BLK`. -/
theorem State.Inv.runStmt_group {s : State} {x : List Byte} (h : s.Inv) (hp : s.phase = .idle) (hin : s.input = x)
    (ha : x.length % 16 = 0) (hx : x.length ≤ s.params.capBytes) :
    ∃ t r, s.runStmt (.run .group) = some (t, r) ∧ t.Inv ∧ t.phase = .idle ∧ t.params = s.params ∧
      t.storedBlocks (x.length / 16) = groupBytes x ∧ t.nblk.toNat = x.length / 16 := by
  subst hin
  rw [length_input] at ha hx
  have he := exec_group_of_aligned (s := s.startCommand (opcodeOf .group)) hx ha
  obtain ⟨l, r, hrun, hinv⟩ := h.runStmt_run hp he rfl
  have hlen : (groupBytes s.input).length = s.input.length / 16 := length_groupBytes s.input
  have hcap := h.base.cap_lt.1
  have hlt : (groupBytes s.input).length < 2 ^ 32 := by
    rw [hlen, length_input]
    omega
  rw [← hlen]
  exact ⟨_, r, hrun, hinv, rfl, rfl, storedBlocks_storeBlocks h.blk_wf.1 _, toNat_ofNat_lt hlt⟩

/-- `RUN UNGROUP` leaves the bytes of the stored blocks in `OBUF`. -/
theorem State.Inv.runStmt_ungroup {s : State} (h : s.Inv) (hp : s.phase = .idle)
    (hn : 16 * s.nblk.toNat ≤ s.params.capBytes) :
    ∃ t r, s.runStmt (.run .ungroup) = some (t, r) ∧ t.Inv ∧ t.phase = .idle ∧
      t.obuf = ungroupBlocks (s.storedBlocks s.nblk.toNat) := by
  have he := exec_ungroup_of_le (s := s.startCommand (opcodeOf .ungroup)) hn
  obtain ⟨l, r, hrun, hinv⟩ := h.runStmt_run hp he rfl
  exact ⟨_, r, hrun, hinv, rfl, rfl⟩

theorem runStmt_loadBlk {s : State} {j : Nat} {b : Block} (hb : s.busy = false) (h : 16 * j + 16 ≤ s.blkSize) :
    s.runStmt (.loadBlk j b.toList) = some ({ s with blk := s.blk.writeSeq (16 * j) b.toList }, .done) := by
  simp only [State.runStmt, expandStmt, Option.map_some]
  rw [hostAccesses_blk b.toList (16 * j) hb (by rwa [length_toList])]

theorem runStmt_setNblk {s : State} (n : Nat) (hb : s.busy = false) :
    s.runStmt (.setNblk n) = some ({ s with nblk := BitVec.ofNat 32 n }, .done) := by
  simp only [State.runStmt, expandStmt, Option.map_some]
  rw [hostAccesses_nblk n hb]

/-- A `LOADBLK` for each block, and then the statements of `rest`. -/
theorem runStmts_loadBlocks_append {s u : State} {j : Nat} {bs : List Block} {rest : List Stmt} {rs : List StmtResult}
    (hb : s.busy = false) (h : 16 * (j + bs.length) ≤ s.blkSize)
    (hrest : State.runStmts rest { s with blk := s.blk.writeBlocks j bs } = some (u, rs)) :
    s.runStmts (loadBlocks j bs ++ rest) = some (u, List.replicate bs.length .done ++ rs) := by
  induction bs generalizing s j with
  | nil => exact hrest
  | cons b bs ih =>
    rw [List.length_cons] at h
    have hload := runStmt_loadBlk (b := b) hb (show 16 * j + 16 ≤ s.blkSize by omega)
    have hloads := ih (s := { s with blk := s.blk.writeSeq (16 * j) b.toList }) (j := j + 1) hb
      (show 16 * (j + 1 + bs.length) ≤ s.blkSize by omega) hrest
    exact runStmts_cons_some hload hloads

/-- The blocks loaded and `NBLK` set to their number: the state that storing them at once leaves (`storeBlocks`). -/
theorem runStmts_loadBlocks_setNblk {s u : State} {bs : List Block} {rest : List Stmt} {rs : List StmtResult}
    (hb : s.busy = false) (h : 16 * bs.length ≤ s.blkSize)
    (hrest : (s.storeBlocks bs).runStmts rest = some (u, rs)) :
    s.runStmts (loadBlocks 0 bs ++ .setNblk bs.length :: rest) =
      some (u, List.replicate bs.length .done ++ .done :: rs) :=
  runStmts_loadBlocks_append hb (by rwa [Nat.zero_add])
    (runStmts_cons_some (runStmt_setNblk (s := { s with blk := s.blk.writeBlocks 0 bs }) bs.length hb) hrest)

theorem State.Inv.storeBlocks {s : State} (h : s.Inv) (hp : s.phase = .idle) {bs : List Block}
    (hbs : 16 * bs.length ≤ s.blkSize) : (s.storeBlocks bs).Inv :=
  inv_idle_congr h hp (h.base.storeBlocks hbs) rfl rfl rfl rfl rfl rfl rfl rfl rfl

/-! ### The round trips (R146) -/

theorem groupProgram_roundTrip {s : State} {x : List Byte} (h : s.Inv) (hp : s.phase = .idle) (ha : x.length % 16 = 0)
    (hx : x.length ≤ s.params.capBytes) :
    ∃ t rs, s.runStmts [.loadI x, .run .group, .run .ungroup] = some (t, rs) ∧
      t.obuf = x ∧ t.olen.toNat = x.length := by
  obtain ⟨u, r₁, hgroup, hu, hpu, hparams, hstored, hnblk⟩ :=
    (h.loaded hp hx).runStmt_group hp (h.input_loaded hx) ha hx
  have hfits : 16 * u.nblk.toNat ≤ u.params.capBytes := by
    rw [hparams, hnblk]
    exact (Nat.mul_div_le x.length 16).trans hx
  obtain ⟨t, r₂, hungroup, ht, -, hout⟩ := hu.runStmt_ungroup hpu hfits
  have hot : t.obuf = x := by rw [hout, hnblk, hstored, ungroupBlocks_groupBytes ha]
  have hruns := runStmts_cons_some (h.runStmt_loadI hp hx) <| runStmts_cons_some hgroup <|
    runStmts_cons_some hungroup (show t.runStmts [] = some (t, []) from rfl)
  exact ⟨t, _, hruns, hot, hot ▸ ht.olen_eq.1⟩

theorem ungroupProgram_roundTrip {s : State} {bs : List Block} (h : s.Inv) (hp : s.phase = .idle)
    (hbs : 16 * bs.length ≤ s.params.capBytes) :
    ∃ t rs, s.runStmts (loadBlocks 0 bs ++ [.setNblk bs.length, .run .ungroup, .copyOI, .run .group]) = some (t, rs) ∧
      t.storedBlocks bs.length = bs ∧ t.nblk.toNat = bs.length := by
  have hblk : 16 * bs.length ≤ s.blkSize := by
    rw [State.blkSize]
    omega
  have hcap := h.base.cap_lt.1
  have hnblk : (s.storeBlocks bs).nblk.toNat = bs.length := toNat_ofNat_lt (by omega)
  obtain ⟨u, r₁, hungroup, hu, hpu, hou⟩ := (h.storeBlocks hp hblk).runStmt_ungroup hp (by rwa [hnblk])
  rw [hnblk, storedBlocks_storeBlocks h.blk_wf.1] at hou
  obtain ⟨l, hcopy⟩ := hu.runStmt_copyOI hpu
  have hfits : u.obuf.length ≤ u.params.capBytes := hu.olen_eq.2
  have hlen : u.obuf.length = 16 * bs.length := by rw [hou, length_ungroupBlocks]
  have hv : ((u.loaded u.obuf).withReadData l).Inv := inv_congr (hu.loaded hpu hfits) rfl
  have hin : ((u.loaded u.obuf).withReadData l).input = u.obuf := hu.input_loaded hfits
  obtain ⟨t, r₂, hgroup, -, -, -, hstored, hnblk'⟩ := hv.runStmt_group hpu hin (by omega) hfits
  have hruns := runStmts_loadBlocks_setNblk (inv_idle h hp).1 hblk <| runStmts_cons_some hungroup <|
    runStmts_cons_some hcopy <| runStmts_cons_some hgroup (show t.runStmts [] = some (t, []) from rfl)
  have hdiv : u.obuf.length / 16 = bs.length := by omega
  rw [hdiv, hou, groupBytes_ungroupBlocks] at hstored
  exact ⟨t, _, hruns, hstored, hnblk'.trans hdiv⟩

/-- Settles O55: the laws of the two functions, and the two programs (`groupProgram_roundTrip`,
`ungroupProgram_roundTrip`). -/
theorem segmenterRoundTrip : Obligations.SegmenterRoundTrip :=
  ⟨fun _ => ungroupBlocks_groupBytes, fun bs => ⟨groupBytes_ungroupBlocks bs, length_ungroupBlocks bs⟩,
    fun _ _ => groupBytes_append, fun _ _ => groupProgram_roundTrip, fun _ _ => ungroupProgram_roundTrip⟩

end Sys2Proof.Machine
end

section
/-! PROOF. ECB mode (spec/42_ecb.md): `ECB_ENC` and `ECB_DEC` whole, what equal plaintext blocks show, and the round
trip as a program of the host notation. -/

namespace Sys2Proof.Machine

/-! ### `ECB_ENC` (R160) -/

/-- Where the input does not fit, the output does not either, so the second check of R160 decides alone. -/
theorem exec_ecbEnc_of_lt {s : State} (h : s.params.capBytes < 16 * (s.inLen / 16 + 1)) :
    exec .ecbEnc s = .next ((s.withOutput []).endedWith 0x22) := by
  rw [exec, execEcbEnc, if_pos h, ite_self]
  rfl

theorem exec_ecbEnc_of_le {s : State} (h : 16 * (s.inLen / 16 + 1) ≤ s.params.capBytes) :
    exec .ecbEnc s = .next (((s.openMode (s.inLen / 16 + 1) .block).enterLoop []).withCipher
      (s.requestsFor .enc (groupBytes (padBytes s.input)))
      (State.publish (ungroupBlocks ((groupBytes (padBytes s.input)).map (s.ask .enc))))) := by
  rw [exec, execEcbEnc, if_neg (by omega), if_neg (by omega)]
  rfl

theorem exec_ecbEnc_of_live {s : State} (h : 16 * (s.inLen / 16 + 1) ≤ s.params.capBytes) (hl : s.cipher.live = true) :
    exec .ecbEnc s = .next (((s.withOutput (ungroupBlocks
      ((groupBytes (padBytes s.input)).map (s.ask .enc)))).afterRequests
      (s.requestsFor .enc (groupBytes (padBytes s.input)))).endedWith 0x02) := by
  rw [exec_ecbEnc_of_le h, State.withCipher_live (s := (s.openMode _ _).enterLoop _) hl]
  rfl

/-- Settles O18: either the padded input fits or it does not; with it fits the input. -/
theorem ecbEncResult : Obligations.EcbEncResult := by
  refine ⟨rfl, fun s => ⟨fun hbig => ?_, fun _ hfits hl => ⟨exec_ecbEnc_of_live hfits hl, ?_⟩⟩⟩
  · exact exec_ecbEnc_of_lt (by omega)
  · rw [length_groupBytes, length_padBytes_input]

/-! ### `ECB_DEC` (R161) -/

theorem exec_ecbDec_of_lt {s : State} (h : s.params.capBytes < s.inLen) :
    exec .ecbDec s = .next ((s.withOutput []).endedWith 0x22) := by
  rw [exec, execEcbDec, if_pos h]
  rfl

theorem exec_ecbDec_of_unaligned {s : State} (h : s.inLen ≤ s.params.capBytes) (ha : s.inLen % 16 ≠ 0) :
    exec .ecbDec s = .next ((s.withOutput []).endedWith 0x32) := by
  rw [exec, execEcbDec, if_neg (by omega), if_pos ha]
  rfl

theorem exec_ecbDec_of_live {s : State} (h : s.inLen ≤ s.params.capBytes) (ha : s.inLen % 16 = 0)
    (hl : s.cipher.live = true) :
    exec .ecbDec s = .next ((s.afterRequests (s.requestsFor .dec (groupBytes s.input))).endedUnpadding
      (ungroupBlocks ((groupBytes s.input).map (s.ask .dec)))) := by
  rw [exec, execEcbDec, if_neg (by omega), if_neg (not_not_intro ha)]
  dsimp only
  rw [State.withCipher_live (s := (s.openMode _ _).enterLoop _) hl, finishUnpad_eq]
  rfl

/-- Settles O19: the three cases of the checks; the end with unpadding is the one that `finishUnpad_eq` gives. -/
theorem ecbDecResult : Obligations.EcbDecResult :=
  ⟨rfl, fun _ => ⟨exec_ecbDec_of_lt, exec_ecbDec_of_unaligned, exec_ecbDec_of_live⟩⟩

/-! ### Equal blocks (R164) -/

/-- A block loop that publishes `w` leaves `OBUF` as it was where it waits. -/
theorem withCipher_publish_obuf (rs : List PortRequest) (w : List Byte) (s : State) :
    (s.withCipher rs (State.publish w)).obuf = s.obuf ∨ (s.withCipher rs (State.publish w)).obuf = w := by
  cases rs with
  | nil => exact .inr rfl
  | cons r rs =>
    cases hl : s.cipher.live with
    | false =>
      rw [State.withCipher_waits hl]
      exact .inl rfl
    | true =>
      rw [State.withCipher_live hl]
      exact .inr rfl

/-- At an error end, or where the cipher does not answer, `OBUF` is empty; otherwise it is the answers in order. -/
theorem obuf_of_exec_ecbEnc {s t : State} (ht : exec .ecbEnc s = .next t) :
    t.obuf = [] ∨ t.obuf = ungroupBlocks ((groupBytes (padBytes s.input)).map (s.ask .enc)) := by
  rcases Nat.lt_or_ge s.params.capBytes (16 * (s.inLen / 16 + 1)) with hlt | hle
  · rw [exec_ecbEnc_of_lt hlt] at ht
    cases ht
    exact .inl rfl
  · rw [exec_ecbEnc_of_le hle] at ht
    cases ht
    exact withCipher_publish_obuf _ _ _

/-- Settles O26: block `j` of the output is the cipher's answer to block `j` of the padded input alone. -/
theorem ecbShowsEqualBlocks : Obligations.EcbShowsEqualBlocks := by
  intro s t j k _ ht _ _ _ heq
  rcases obuf_of_exec_ecbEnc ht with hout | hout
  · simp only [hout, List.drop_nil]
  · rw [hout, take_drop_ungroup, take_drop_ungroup, List.getElem?_map, List.getElem?_map, heq]

/-! ### The round trip (R163) -/

theorem CipherPort.inverseOn.map_dec_map_enc {c : CipherPort} {k : Key} {bs : List Block} (h : c.inverseOn k bs) :
    (bs.map fun b => c.answer .enc b k).map (fun b => c.answer .dec b k) = bs := by
  rw [List.map_map]
  exact (List.map_congr_left h).trans (List.map_id bs)

theorem State.Inv.keyed {s : State} (h : s.Inv) (hp : s.phase = .idle) (k : Key) : State.Inv { s with key := k } :=
  inv_idle_congr h hp ⟨h.params_wf, h.ibuf_wf, h.blk_wf, h.olen_eq, h.ctrl_reserved⟩ rfl rfl rfl rfl rfl rfl rfl rfl rfl

/-- `RUN ECB_ENC` with `x` as the input leaves the cipher's answers to the blocks of `pad(x)` in `OBUF`. -/
theorem State.Inv.runStmt_ecbEnc {s : State} {x : List Byte} (h : s.Inv) (hp : s.phase = .idle)
    (hl : s.cipher.live = true) (hin : s.input = x) (hx : 16 * (x.length / 16 + 1) ≤ s.params.capBytes) :
    ∃ t r, s.runStmt (.run .ecbEnc) = some (t, r) ∧ t.Inv ∧ t.phase = .idle ∧ t.params = s.params ∧
      t.key = s.key ∧ t.cipher = s.cipher ∧ t.obuf = ungroupBlocks ((groupBytes (padBytes x)).map (s.ask .enc)) := by
  subst hin
  rw [length_input] at hx
  have he := exec_ecbEnc_of_live (s := s.startCommand (opcodeOf .ecbEnc)) hx hl
  obtain ⟨l, r, hrun, hinv⟩ := h.runStmt_run hp he rfl
  exact ⟨_, r, hrun, hinv, rfl, rfl, rfl, rfl, rfl⟩

/-- `RUN ECB_DEC` with an input whose blocks the cipher decrypts to those of `pad(x)` leaves `x` in `OBUF`. -/
theorem State.Inv.runStmt_ecbDec {s : State} {cs : List Block} {x : List Byte} (h : s.Inv) (hp : s.phase = .idle)
    (hl : s.cipher.live = true) (hin : s.input = ungroupBlocks cs) (hcs : 16 * cs.length ≤ s.params.capBytes)
    (hdec : cs.map (s.ask .dec) = groupBytes (padBytes x)) :
    ∃ t r, s.runStmt (.run .ecbDec) = some (t, r) ∧ t.Inv ∧ t.obuf = x ∧ t.status = 0x02 := by
  have hlen : s.inLen = 16 * cs.length := by rw [← length_input, hin, length_ungroupBlocks]
  have hpad : ungroupBlocks ((groupBytes s.input).map (s.ask .dec)) = padBytes x := by
    rw [hin, groupBytes_ungroupBlocks, hdec, ungroupBlocks_groupBytes (by rw [length_padBytes, Nat.mul_mod_right])]
  have he : exec .ecbDec (s.startCommand (opcodeOf .ecbDec)) =
      .next (((s.startCommand _).afterRequests (s.requestsFor .dec (groupBytes s.input))).endedUnpadding
        (ungroupBlocks ((groupBytes s.input).map (s.ask .dec)))) :=
    exec_ecbDec_of_live (hlen.trans_le hcs) (show s.inLen % 16 = 0 by omega) hl
  rw [hpad, endedUnpadding_padBytes] at he
  obtain ⟨l, r, hrun, hinv⟩ := h.runStmt_run hp he rfl
  exact ⟨_, r, hrun, hinv, rfl, rfl⟩

/-- `COPYOI` makes the output the input; the key and the collaborators stay. -/
theorem State.Inv.runStmt_copyOI_input {s : State} (h : s.Inv) (hp : s.phase = .idle) :
    ∃ t, s.runStmt .copyOI = some (t, .done) ∧ t.Inv ∧ t.phase = .idle ∧ t.input = s.obuf ∧ t.params = s.params ∧
      t.key = s.key ∧ t.cipher = s.cipher ∧ t.rng = s.rng := by
  obtain ⟨l, hcopy⟩ := h.runStmt_copyOI hp
  have hcap := h.olen_eq.2
  exact ⟨_, hcopy, inv_congr (h.loaded hp hcap) rfl, hp, h.input_loaded hcap, rfl, rfl, rfl, rfl⟩

theorem ecbProgram_roundTrip {s : State} {k : Key} {p : List Byte} (h : s.Inv) (hp : s.phase = .idle)
    (hl : s.cipher.live = true) (hx : 16 * (p.length / 16 + 1) ≤ s.params.capBytes)
    (hinverse : s.cipher.inverseOn k (groupBytes (padBytes p))) :
    ∃ t rs, s.runStmts [.loadK k.toList, .loadI p, .run .ecbEnc, .copyOI, .run .ecbDec] = some (t, rs) ∧
      t.obuf = p ∧ t.olen.toNat = p.length ∧ t.status = 0x02 := by
  have hp' : p.length ≤ s.params.capBytes := by omega
  have hk := h.keyed hp k
  obtain ⟨u, r₁, henc, hu, hpu, hparams, hkey, hcipher, hou⟩ :=
    (hk.loaded hp hp').runStmt_ecbEnc hp hl (hk.input_loaded hp') hx
  obtain ⟨v, hcopy, hv, hpv, hin, hparams', hkey', hcipher', -⟩ := hu.runStmt_copyOI_input hpu
  have hask : v.ask .dec = fun c => s.cipher.answer .dec c k := by
    funext c
    rw [State.ask, hcipher', hkey', hcipher, hkey]
    rfl
  have hfits : 16 * ((groupBytes (padBytes p)).map fun b => s.cipher.answer .enc b k).length ≤ v.params.capBytes := by
    rw [hparams', hparams, List.length_map, length_groupBytes, length_padBytes, Nat.mul_div_cancel_left _ (by decide)]
    exact hx
  have hdec : ((groupBytes (padBytes p)).map fun b => s.cipher.answer .enc b k).map (v.ask .dec) =
      groupBytes (padBytes p) := by
    rw [hask]
    exact CipherPort.inverseOn.map_dec_map_enc hinverse
  have hlive : v.cipher.live = true := (congrArg CipherPort.live (hcipher'.trans hcipher)).trans hl
  obtain ⟨t, r₂, hrun, ht, hot, hst⟩ := hv.runStmt_ecbDec hpv hlive (hin.trans hou) hfits hdec
  have hruns := runStmts_cons_some (loadK_eq k (inv_idle h hp).1) <| runStmts_cons_some (hk.runStmt_loadI hp hp') <|
    runStmts_cons_some henc <| runStmts_cons_some hcopy <| runStmts_cons_some hrun
      (show t.runStmts [] = some (t, []) from rfl)
  exact ⟨t, _, hruns, hot, hot ▸ ht.olen_eq.1, hst⟩

/-- The reset state with a cipher that encrypts the padded byte 0x61 to sixteen bytes 0x00 and decrypts those to
themselves, which is no padding. -/
def notInverting : State :=
  { State.reset with
    cipher :=
      { known := [⟨.enc, blockAt (padBytes [0x61]) 0, zeroBlock, zeroBlock⟩, ⟨.dec, zeroBlock, zeroBlock, zeroBlock⟩]
        live := true } }

theorem inv_notInverting : notInverting.Inv :=
  inv_congr (inv_afterPowerOn (p := Config.params) (ibuf := []) (blk := []) (by decide) ⟨rfl, rfl⟩ ⟨rfl, rfl⟩) rfl

/-- The program ends, with `CTRL.STRICT = 1`, in `ERR_PADDING` and no output. -/
theorem ecbProgram_notInverting : ∃ t rs, notInverting.runStmts
    [.loadK zeroBlock.toList, .loadI [0x61], .run .ecbEnc, .copyOI, .run .ecbDec] = some (t, rs) ∧ t.obuf ≠ [0x61] := by
  have hout : (notInverting.runStmts [.loadK zeroBlock.toList, .loadI [0x61], .run .ecbEnc, .copyOI, .run .ecbDec]).map
      (·.1.obuf) = some [] := by decide +kernel
  obtain ⟨⟨t, rs⟩, hrun, hobuf⟩ := Option.map_eq_some_iff.1 hout
  exact ⟨t, rs, hrun, ne_of_eq_of_ne hobuf (by decide)⟩

/-- Settles O56: `ecbProgram_roundTrip` is the program; `notInverting` is a state where it gives back nothing. -/
theorem ecbRoundTrip : Obligations.EcbRoundTrip :=
  ⟨fun _ _ _ h hp hl => ecbProgram_roundTrip h hp hl.1,
    notInverting, zeroBlock, [0x61], inv_notInverting, rfl, ⟨rfl, rfl⟩, by decide, ecbProgram_notInverting⟩

end Sys2Proof.Machine
end

section
/-! PROOF. CBC mode (spec/43_cbc.md): `CBC_ENC` and `CBC_DEC` whole, the lengths of CBC and CTR outputs, what a changed
block or IV changes, and the round trip as a program of the host notation. -/

namespace Sys2Proof.Machine

/-! ### The random step, by its answer (R85, R215) -/

theorem State.withRandom_fail {s : State} (hl : s.rng.live = true) (ha : s.rng.answer = .fail) (n : Nat)
    (go : Block → State → State) : s.withRandom n go = (s.send (.random n)).drawTaken.raise .obuf .rng := by
  rw [State.withRandom_eq, if_pos hl, ha]

theorem State.withRandom_ok {s : State} {r : Block} (hl : s.rng.live = true) (ha : s.rng.answer = .ok r) (n : Nat)
    (go : Block → State → State) : s.withRandom n go = go r (s.send (.random n)).drawTaken := by
  rw [State.withRandom_eq, if_pos hl, ha]

/-! ### `CBC_ENC` (R170) -/

/-- `CBC_ENC` from `s` once the IV is drawn, in the state `t`: its block loop and its end. -/
def State.cbcEncLoop (s : State) (iv : Block) (t : State) : State :=
  ((t.setPrev iv).enterLoop iv.toList).withCipher
    (s.requestsFor .enc (cbcCombined (s.ask .enc) iv (groupBytes (padBytes s.input))))
    (State.publish (iv.toList ++ ungroupBlocks (cbcEncrypt (s.ask .enc) iv (groupBytes (padBytes s.input)))))

/-- Where the input does not fit, the output does not either, so the second check of R170 decides alone. -/
theorem exec_cbcEnc_of_lt {s : State} (h : s.params.capBytes < 16 + 16 * (s.inLen / 16 + 1)) :
    exec .cbcEnc s = .next ((s.withOutput []).endedWith 0x22) := by
  rw [exec, execCbcEnc, if_pos h, ite_self]
  rfl

theorem exec_cbcEnc_of_le {s : State} (h : 16 + 16 * (s.inLen / 16 + 1) ≤ s.params.capBytes) :
    exec .cbcEnc s = .next ((s.openMode (s.inLen / 16 + 1) .rand).withRandom 16 s.cbcEncLoop) := by
  rw [exec, execCbcEnc, if_neg (by omega), if_neg (by omega)]
  rfl

theorem exec_cbcEnc_of_fail {s : State} (h : 16 + 16 * (s.inLen / 16 + 1) ≤ s.params.capBytes)
    (hl : s.rng.live = true) (ha : s.rng.answer = .fail) :
    exec .cbcEnc s = .next (((State.withOutput { s with rng := s.rng.advance } []).afterRequests
      [.random 16]).endedWith 0x42) := by
  rw [exec_cbcEnc_of_le h, State.withRandom_fail (s := s.openMode _ _) hl ha]
  rfl

theorem exec_cbcEnc_of_ok {s : State} {iv : Block} (h : 16 + 16 * (s.inLen / 16 + 1) ≤ s.params.capBytes)
    (hl : s.live) (ha : s.rng.answer = .ok iv) :
    exec .cbcEnc s = .next (((State.withOutput { s with rng := s.rng.advance }
        (iv.toList ++ ungroupBlocks (cbcEncrypt (s.ask .enc) iv (groupBytes (padBytes s.input))))).afterRequests
      (.random 16 :: s.requestsFor .enc
        (cbcCombined (s.ask .enc) iv (groupBytes (padBytes s.input))))).endedWith 0x02) := by
  obtain ⟨hcipher, hrng⟩ := hl
  rw [exec_cbcEnc_of_le h, State.withRandom_ok (s := s.openMode _ _) hrng ha, State.cbcEncLoop, State.withCipher_live]
  · exact congrArg _ (publish_drawn (s := s) _ 16 _ rfl rfl)
  · exact hcipher

/-- Settles O20: the combined blocks and the ciphertext blocks are those of `cbcCombined_get`, index by index. -/
theorem cbcEncResult : Obligations.CbcEncResult := by
  refine ⟨rfl, fun s => ⟨fun hbig => exec_cbcEnc_of_lt (by omega), fun _ => exec_cbcEnc_of_fail,
    fun iv _ hfits hl ha => ⟨_, _, exec_cbcEnc_of_ok hfits hl ha, ?_, ?_, fun k hk => ?_⟩⟩⟩
  · rw [length_cbcCombined, length_padBlocks]
  · rw [length_cbcEncrypt, length_padBlocks]
  · exact cbcCombined_get (s.ask .enc) iv _ k (by rwa [length_padBlocks])

/-! ### `CBC_DEC` (R173) -/

/-- The first block of a byte sequence stands in front of those behind it. -/
theorem groupBytes_eq_cons {x : List Byte} (h : 16 ≤ x.length) :
    groupBytes x = blockAt x 0 :: groupBytes (x.drop 16) := by
  have hlen : x.length / 16 = (x.drop 16).length / 16 + 1 := by
    rw [List.length_drop]
    omega
  rw [groupBytes, hlen, List.range_succ_eq_map, List.map_cons, List.map_map, groupBytes]
  exact congrArg _ (List.map_congr_left fun k _ => (blockAt_drop x k).symm)

theorem exec_cbcDec_of_lt {s : State} (h : s.params.capBytes < s.inLen) :
    exec .cbcDec s = .next ((s.withOutput []).endedWith 0x22) := by
  rw [exec, execCbcDec, if_pos h]
  rfl

theorem exec_cbcDec_of_length {s : State} (h : s.inLen ≤ s.params.capBytes) (hb : s.inLen < 16 ∨ s.inLen % 16 ≠ 0) :
    exec .cbcDec s = .next ((s.withOutput []).endedWith 0x32) := by
  rw [exec, execCbcDec, if_neg (by omega), if_pos hb]
  rfl

theorem exec_cbcDec_of_aligned {s : State} (h : s.inLen ≤ s.params.capBytes) (h16 : 16 ≤ s.inLen)
    (ha : s.inLen % 16 = 0) :
    exec .cbcDec s = .next (State.withCipher
      (s.requestsFor .dec (groupBytes (s.input.drop 16)))
      (State.finishUnpad (ungroupBlocks
        (cbcDecrypt (s.ask .dec) (blockAt s.input 0) (groupBytes (s.input.drop 16)))))
      (((s.openMode (s.inLen / 16 - 1) .block).setPrev (blockAt s.input 0)).enterLoop [])) := by
  rw [exec, execCbcDec, if_neg (by omega), if_neg (by omega)]

theorem exec_cbcDec_of_live {s : State} (h : s.inLen ≤ s.params.capBytes) (h16 : 16 ≤ s.inLen)
    (ha : s.inLen % 16 = 0) (hl : s.cipher.live = true) :
    exec .cbcDec s = .next ((s.afterRequests (s.requestsFor .dec (groupBytes (s.input.drop 16)))).endedUnpadding
      (ungroupBlocks (cbcDecrypt (s.ask .dec) (blockAt s.input 0) (groupBytes (s.input.drop 16))))) := by
  rw [exec_cbcDec_of_aligned h h16 ha, State.withCipher_live, finishUnpad_eq]
  · rfl
  · exact hl

/-- Settles O21: the IV and the blocks behind it are the blocks of the input in order (`groupBytes_eq_cons`), and the
plaintext blocks are those of `cbcDecrypt_get`. -/
theorem cbcDecResult : Obligations.CbcDecResult := by
  refine ⟨rfl, fun s => ⟨exec_cbcDec_of_lt, exec_cbcDec_of_length, fun hfits h16 ha hl =>
    ⟨_, exec_cbcDec_of_live hfits h16 ha hl, ?_, fun k hk => ?_⟩⟩⟩
  · rw [length_cbcDecrypt, length_bodyBlocks]
    omega
  · rw [groupBytes_eq_cons (x := s.input) (by rwa [length_input])]
    exact cbcDecrypt_get (s.ask .dec) _ _ k (by rw [length_bodyBlocks]; omega)

/-! ### Lengths of outputs (R175, R197) -/

/-- A block loop that has come to the end of its command did not wait. -/
theorem withCipher_of_ended {s : State} {rs : List PortRequest} {fin : State → State} (hp : s.phase ≠ .idle)
    (h : (s.withCipher rs fin).phase = .idle) : s.withCipher rs fin = fin (s.afterRequests rs) := by
  cases hl : s.cipher.live with
  | true => exact State.withCipher_live hl rs fin
  | false =>
    cases rs with
    | nil => rw [State.withCipher, State.afterRequests, List.append_nil]
    | cons r rs =>
      rw [State.withCipher_waits hl] at h
      exact absurd h hp

/-- The end of a command that publishes `w` behind its block loop. -/
theorem withCipher_publish_olen {s : State} {rs : List PortRequest} {w : List Byte} (hp : s.phase ≠ .idle)
    (hw : w.length < 2 ^ 32) (h : (s.withCipher rs (State.publish w)).phase = .idle) :
    (s.withCipher rs (State.publish w)).olen.toNat = w.length := by
  rw [withCipher_of_ended hp h]
  exact toNat_ofNat_lt hw

/-- A good end of a command that draws is an end of what it does with the bytes drawn. -/
theorem withRandom_olen {s : State} {n m : Nat} {go : Block → State → State} (hp : s.phase ≠ .idle)
    (hgo : ∀ r u, (go r u).phase = .idle → (go r u).olen.toNat = m)
    (h : (s.withRandom n go).phase = .idle) (hst : (s.withRandom n go).status = 0x02) :
    (s.withRandom n go).olen.toNat = m := by
  cases hl : s.rng.live with
  | true =>
    cases ha : s.rng.answer with
    | ok r =>
      rw [State.withRandom_ok hl ha] at h ⊢
      exact hgo r _ h
    | fail =>
      rw [State.withRandom_fail hl ha] at hst
      exact absurd hst (show statusError .rng ≠ 0x02 by decide)
  | false =>
    rw [State.withRandom_eq, hl] at h
    exact absurd h hp

/-- The output length `m` of a command `i` that checks the capacity against it, draws, and goes on with `go`. -/
theorem olen_of_exec_drawing {i : Instr} {s t : State} {blocks n m : Nat} {go : Block → State → State}
    (hw : s.params.wf = true)
    (hbig : s.params.capBytes < m → exec i s = .next ((s.withOutput []).endedWith 0x22))
    (hfits : m ≤ s.params.capBytes → exec i s = .next ((s.openMode blocks .rand).withRandom n go))
    (hgo : m < 2 ^ 32 → ∀ r u, (go r u).phase = .idle → (go r u).olen.toNat = m)
    (ht : exec i s = .next t) (hp : t.phase = .idle) (hst : t.status = 0x02) : t.olen.toNat = m := by
  have hcap := Params.capBytes_lt_of_wf hw
  rcases Nat.lt_or_ge s.params.capBytes m with hlt | hle
  · rw [hbig hlt] at ht
    cases ht
    exact absurd hst (show (0x22 : Byte) ≠ 0x02 by decide)
  · rw [hfits hle] at ht
    cases ht
    exact withRandom_olen Phase.noConfusion (hgo (hle.trans_lt hcap)) hp hst

theorem State.cbcEncLoop_olen {s : State} (hw : 16 + 16 * (s.inLen / 16 + 1) < 2 ^ 32) (iv : Block) (t : State)
    (h : (s.cbcEncLoop iv t).phase = .idle) : (s.cbcEncLoop iv t).olen.toNat = 16 + 16 * (s.inLen / 16 + 1) := by
  have hlen : (iv.toList ++ ungroupBlocks (cbcEncrypt (s.ask .enc) iv (groupBytes (padBytes s.input)))).length =
      16 + 16 * (s.inLen / 16 + 1) := by
    rw [List.length_append, length_toList, length_ungroupBlocks, length_cbcEncrypt, length_padBlocks]
  exact (withCipher_publish_olen (Phase.noConfusion : Phase.block ≠ .idle) (hlen.trans_lt hw) h).trans hlen

theorem olen_of_exec_cbcEnc {s t : State} (hw : s.params.wf = true) (ht : exec .cbcEnc s = .next t)
    (hp : t.phase = .idle) (hst : t.status = 0x02) : t.olen.toNat = 16 + 16 * (s.inLen / 16 + 1) :=
  olen_of_exec_drawing hw exec_cbcEnc_of_lt exec_cbcEnc_of_le State.cbcEncLoop_olen ht hp hst

/-- At an error end, or where the cipher does not answer, `OLEN` is 0; otherwise the end unpads the plaintext blocks. -/
theorem olen_of_exec_cbcDec {s t : State} (ht : exec .cbcDec s = .next t) (hp : t.phase = .idle) :
    t.olen.toNat ≤ s.inLen - 16 := by
  have hlt32 : s.inLen < 2 ^ 32 := s.ilen.isLt
  by_cases hcap : s.inLen ≤ s.params.capBytes
  · by_cases hlen : 16 ≤ s.inLen ∧ s.inLen % 16 = 0
    · obtain ⟨h16, ha⟩ := hlen
      rw [exec_cbcDec_of_aligned hcap h16 ha] at ht
      cases ht
      have hout : (ungroupBlocks (cbcDecrypt (s.ask .dec) (blockAt s.input 0)
          (groupBytes (s.input.drop 16)))).length = s.inLen - 16 := by
        rw [length_ungroupBlocks, length_cbcDecrypt, length_bodyBlocks]
        omega
      rw [withCipher_of_ended Phase.noConfusion hp, ← hout]
      exact finishUnpad_olen _ _ (by omega)
    · rw [exec_cbcDec_of_length hcap (by omega)] at ht
      cases ht
      exact Nat.zero_le _
  · rw [exec_cbcDec_of_lt (by omega)] at ht
    cases ht
    exact Nat.zero_le _

/-- `CTR_ENC` from `s` once the bytes `r` are drawn, in the state `t`: its block loop and its end. -/
def State.ctrEncLoop (s : State) (r : Block) (t : State) : State :=
  ((t.setNonce (nonceOf r)).enterLoop (nonceOf r).toList).withCipher
    (s.requestsFor .enc (ctrCounters s.params.ctrEndian (nonceOf r) 0 (groupBytes (padBytes s.input)).length))
    (State.publish ((nonceOf r).toList ++
      ungroupBlocks (ctrBlocks (s.ask .enc) s.params.ctrEndian (nonceOf r) 0 (groupBytes (padBytes s.input)))))

/-- Where the input does not fit, the output does not either, so the second check of R193 decides alone. -/
theorem exec_ctrEnc_of_lt {s : State} (h : s.params.capBytes < 8 + 16 * (s.inLen / 16 + 1)) :
    exec .ctrEnc s = .next ((s.withOutput []).endedWith 0x22) := by
  rw [exec, execCtrEnc, if_pos h, ite_self]
  rfl

theorem exec_ctrEnc_of_le {s : State} (h : 8 + 16 * (s.inLen / 16 + 1) ≤ s.params.capBytes) :
    exec .ctrEnc s = .next ((s.openMode (s.inLen / 16 + 1) .rand).withRandom 8 s.ctrEncLoop) := by
  rw [exec, execCtrEnc, if_neg (by omega), if_neg (by omega)]
  rfl

theorem State.ctrEncLoop_olen {s : State} (hw : 8 + 16 * (s.inLen / 16 + 1) < 2 ^ 32) (r : Block) (t : State)
    (h : (s.ctrEncLoop r t).phase = .idle) : (s.ctrEncLoop r t).olen.toNat = 8 + 16 * (s.inLen / 16 + 1) := by
  have hlen : ((nonceOf r).toList ++ ungroupBlocks
      (ctrBlocks (s.ask .enc) s.params.ctrEndian (nonceOf r) 0 (groupBytes (padBytes s.input)))).length =
      8 + 16 * (s.inLen / 16 + 1) := by
    rw [List.length_append, Vector.length_toList, length_ungroupBlocks, length_ctrBlocks, length_padBlocks]
  exact (withCipher_publish_olen (Phase.noConfusion : Phase.block ≠ .idle) (hlen.trans_lt hw) h).trans hlen

theorem olen_of_exec_ctrEnc {s t : State} (hw : s.params.wf = true) (ht : exec .ctrEnc s = .next t)
    (hp : t.phase = .idle) (hst : t.status = 0x02) : t.olen.toNat = 8 + 16 * (s.inLen / 16 + 1) :=
  olen_of_exec_drawing hw exec_ctrEnc_of_lt exec_ctrEnc_of_le State.ctrEncLoop_olen ht hp hst

/-- Settles O25, command by command: an end with `PHASE = IDLE` is no waiting state, and its output is the one published
or what unpadding leaves of the plaintext blocks. -/
theorem cbcCtrLengths : Obligations.CbcCtrLengths := by
  refine fun s t hw => ⟨fun ht hp hst => ?_, fun k ht hp hlen => ?_, fun ht hp hst => ?_⟩
  · have holen := olen_of_exec_cbcEnc hw ht hp hst
    omega
  · have holen := olen_of_exec_cbcDec ht hp
    omega
  · have holen := olen_of_exec_ctrEnc hw ht hp hst
    omega

/-! ### A changed block or IV (R179) -/

/-- Plaintext block `j` by its ciphertext block and the one before it, wherever there is one (R174). -/
theorem getElem?_cbcDecrypt (dec : Block → Block) (iv : Block) (cs : List Block) (j : Nat) :
    (cbcDecrypt dec iv cs)[j]? = cs[j]?.map fun c => xor16 (dec c) ((iv :: cs).getD j zeroBlock) := by
  rcases Nat.lt_or_ge j cs.length with hj | hj
  · rw [cbcDecrypt_get dec iv cs j hj, List.getElem?_eq_getElem hj, List.getD_eq_getElem cs _ hj, Option.map_some]
  · rw [List.getElem?_eq_none hj, List.getElem?_eq_none (by rwa [length_cbcDecrypt]), Option.map_none]

section
variable (dec : Block → Block) (iv d x : Block) (cs : List Block)

/-- The changed block itself is chained to the block before it as ever. -/
theorem cbcDecrypt_set_self {k : Nat} (hk : k < cs.length) :
    (cbcDecrypt dec iv (cs.set k x))[k]? = some (xor16 (dec x) ((iv :: cs).getD k zeroBlock)) := by
  rw [getElem?_cbcDecrypt, List.getElem?_set_self hk, ← List.set_cons_succ, getD_set_ne _ _ _ _ (by omega)]
  rfl

/-- In the block behind the changed one the change stands as it is, since that block is xored in behind `D`. -/
theorem cbcDecrypt_set_succ {k : Nat} (hk : k < cs.length) :
    (cbcDecrypt dec iv (cs.set k (xor16 (cs.getD k zeroBlock) d)))[k + 1]? =
      (cbcDecrypt dec iv cs)[k + 1]?.map (xor16 · d) := by
  rw [getElem?_cbcDecrypt, getElem?_cbcDecrypt, List.getElem?_set_ne (by omega), getD_cons_block, getD_cons_block,
    getD_set_self _ _ _ hk, Option.map_map]
  exact congrArg (Option.map · _) (funext fun c => (xor16_assoc _ _ _).symm)

theorem cbcDecrypt_set_ne {k j : Nat} (hj : j ≠ k) (hj' : j ≠ k + 1) :
    (cbcDecrypt dec iv (cs.set k x))[j]? = (cbcDecrypt dec iv cs)[j]? := by
  rw [getElem?_cbcDecrypt, getElem?_cbcDecrypt, List.getElem?_set_ne hj.symm, ← List.set_cons_succ,
    getD_set_ne _ _ _ _ hj'.symm]

theorem cbcDecrypt_iv_zero :
    (cbcDecrypt dec (xor16 iv d) cs)[0]? = (cbcDecrypt dec iv cs)[0]?.map (xor16 · d) := by
  rw [getElem?_cbcDecrypt, getElem?_cbcDecrypt, Option.map_map]
  exact congrArg (Option.map · _) (funext fun c => (xor16_assoc _ _ _).symm)

theorem cbcDecrypt_iv_pos {j : Nat} (hj : 0 < j) : (cbcDecrypt dec x cs)[j]? = (cbcDecrypt dec iv cs)[j]? := by
  obtain ⟨j, rfl⟩ := Nat.exists_eq_succ_of_ne_zero hj.ne'
  rw [getElem?_cbcDecrypt, getElem?_cbcDecrypt, getD_cons_block, getD_cons_block]

end

/-- Settles O27. -/
theorem cbcChangedBlock : Obligations.CbcChangedBlock :=
  fun dec iv d cs _ hk => ⟨cbcDecrypt_set_self dec iv _ cs hk, cbcDecrypt_set_succ dec iv d cs hk,
    fun _ => cbcDecrypt_set_ne dec iv _ cs, cbcDecrypt_iv_zero dec iv d cs, fun _ => cbcDecrypt_iv_pos dec iv _ cs⟩

/-! ### The round trip (R176) -/

/-- Decryption undoes encryption where `dec` inverts `enc` on the combined blocks: both chain through the ciphertext. -/
theorem cbcDecrypt_cbcEncrypt {enc dec : Block → Block} {iv : Block} {bs : List Block}
    (h : ∀ b ∈ cbcCombined enc iv bs, dec (enc b) = b) : cbcDecrypt dec iv (cbcEncrypt enc iv bs) = bs := by
  induction bs generalizing iv with
  | nil => rfl
  | cons b bs ih =>
    rw [cbcCombined, List.forall_mem_cons] at h
    obtain ⟨hb, hbs⟩ := h
    rw [cbcEncrypt, cbcDecrypt, hb, xor16_cancel, ih hbs]

/-- `RUN CBC_ENC` with `x` as the input and `iv` the next draw leaves the IV and the ciphertext blocks in `OBUF`. -/
theorem State.Inv.runStmt_cbcEnc {s : State} {x : List Byte} {iv : Block} (h : s.Inv) (hp : s.phase = .idle)
    (hl : s.live) (ha : s.rng.answer = .ok iv) (hin : s.input = x)
    (hx : 16 + 16 * (x.length / 16 + 1) ≤ s.params.capBytes) :
    ∃ t r, s.runStmt (.run .cbcEnc) = some (t, r) ∧ t.Inv ∧ t.phase = .idle ∧ t.params = s.params ∧
      t.key = s.key ∧ t.cipher = s.cipher ∧
      t.obuf = ungroupBlocks (iv :: cbcEncrypt (s.ask .enc) iv (groupBytes (padBytes x))) := by
  subst hin
  rw [length_input] at hx
  have he := exec_cbcEnc_of_ok (s := s.startCommand (opcodeOf .cbcEnc)) hx hl ha
  obtain ⟨l, r, hrun, hinv⟩ := h.runStmt_run hp he rfl
  exact ⟨_, r, hrun, hinv, rfl, rfl, rfl, rfl, rfl⟩

/-- `RUN CBC_DEC` with an IV and blocks as the input that decrypt to those of `pad(x)` leaves `x` in `OBUF`. -/
theorem State.Inv.runStmt_cbcDec {s : State} {iv : Block} {cs : List Block} {x : List Byte} (h : s.Inv)
    (hp : s.phase = .idle) (hl : s.cipher.live = true) (hin : s.input = ungroupBlocks (iv :: cs))
    (hcs : 16 + 16 * cs.length ≤ s.params.capBytes) (hdec : cbcDecrypt (s.ask .dec) iv cs = groupBytes (padBytes x)) :
    ∃ t r, s.runStmt (.run .cbcDec) = some (t, r) ∧ t.Inv ∧ t.obuf = x ∧ t.status = 0x02 := by
  have hlen : s.inLen = 16 + 16 * cs.length := by
    rw [← length_input, hin, length_ungroupBlocks, List.length_cons]
    omega
  have hblocks : blockAt s.input 0 :: groupBytes (s.input.drop 16) = iv :: cs := by
    rw [← groupBytes_eq_cons (by rw [length_input]; omega), hin, groupBytes_ungroupBlocks]
  obtain ⟨hiv, hbody⟩ := List.cons.inj hblocks
  have he : exec .cbcDec (s.startCommand (opcodeOf .cbcDec)) =
      .next (((s.startCommand _).afterRequests (s.requestsFor .dec (groupBytes (s.input.drop 16)))).endedUnpadding
        (ungroupBlocks (cbcDecrypt (s.ask .dec) (blockAt s.input 0) (groupBytes (s.input.drop 16))))) :=
    exec_cbcDec_of_live (hlen.trans_le hcs) (show 16 ≤ s.inLen by omega) (show s.inLen % 16 = 0 by omega) hl
  rw [hiv, hbody, hdec, ungroupBlocks_groupBytes (by rw [length_padBytes, Nat.mul_mod_right]),
    endedUnpadding_padBytes] at he
  obtain ⟨l, r, hrun, hinv⟩ := h.runStmt_run hp he rfl
  exact ⟨_, r, hrun, hinv, rfl, rfl⟩

/-- Settles O57: the IV travels in front of the ciphertext, so `CBC_DEC` chains from the IV drawn, and what it decrypts
is `pad(p)` again (`cbcDecrypt_cbcEncrypt`). -/
theorem cbcRoundTrip : Obligations.CbcRoundTrip := by
  intro s k iv p h hp hl hx ha hinverse
  have hp' : p.length ≤ s.params.capBytes := by omega
  have hk := h.keyed hp k
  obtain ⟨u, r₁, henc, hu, hpu, hparams, hkey, hcipher, hou⟩ :=
    (hk.loaded hp hp').runStmt_cbcEnc hp hl ha (hk.input_loaded hp') hx
  obtain ⟨v, hcopy, hv, hpv, hin, hparams', hkey', hcipher', -⟩ := hu.runStmt_copyOI_input hpu
  have hask : v.ask = State.ask { s with key := k } :=
    State.ask_congr (hcipher'.trans hcipher) (hkey'.trans hkey)
  have hlive : v.cipher.live = true := (congrArg CipherPort.live (hcipher'.trans hcipher)).trans hl.1
  have hfits : 16 + 16 * (cbcEncrypt (State.ask { s with key := k } .enc) iv (groupBytes (padBytes p))).length ≤
      v.params.capBytes := by
    rw [hparams', hparams, length_cbcEncrypt, length_groupBytes, length_padBytes, Nat.mul_div_cancel_left _ (by decide)]
    exact hx
  obtain ⟨t, r₂, hdec, ht, hot, hst⟩ := hv.runStmt_cbcDec hpv hlive (hin.trans hou) hfits
    (by rw [hask]; exact cbcDecrypt_cbcEncrypt hinverse)
  have hruns := runStmts_cons_some (loadK_eq k (inv_idle h hp).1) <| runStmts_cons_some (hk.runStmt_loadI hp hp') <|
    runStmts_cons_some henc <| runStmts_cons_some hcopy <| runStmts_cons_some hdec
      (show t.runStmts [] = some (t, []) from rfl)
  exact ⟨t, _, hruns, hot, hot ▸ ht.olen_eq.1, hst⟩

end Sys2Proof.Machine
end

section
/-! PROOF. CTR mode (spec/44_ctr.md): the counter block byte by byte, `CTR_ENC` and `CTR_DEC` whole, what a changed
ciphertext block changes, and the round trip as a program of the host notation. -/

namespace Sys2Proof.Machine

/-! ### The counter block (R190) -/

theorem byteOf_ctrBlock_nonce (e : Endian) (nonce : Nonce) (c : BitVec 64) {k : Nat} (hk : k < 8) :
    byteOf (ctrBlock e nonce c) k = nonce.toList.getD k 0 := by
  rw [ctrBlock, byteOf_blockOf _ (by omega), if_pos hk, List.getD_eq_getElem?_getD, Vector.getElem?_toList]

theorem byteOf_ctrBlock_be (nonce : Nonce) (c : BitVec 64) {k : Nat} (hk : k < 8) :
    byteOf (ctrBlock .be nonce c) (8 + k) = be64Byte c k := by
  rw [ctrBlock, byteOf_blockOf _ (by omega), if_neg (by omega), Nat.add_sub_cancel_left]

theorem byteOf_ctrBlock_le (nonce : Nonce) (c : BitVec 64) {k : Nat} (hk : k < 8) :
    byteOf (ctrBlock .le nonce c) (8 + k) = le64Byte c k := by
  rw [ctrBlock, byteOf_blockOf _ (by omega), if_neg (by omega), Nat.add_sub_cancel_left]

/-- The byte of weight `256^k` is the digit at `k` in base 256. -/
theorem toNat_le64Byte (c : BitVec 64) (k : Nat) : (le64Byte c k).toNat = c.toNat / 256 ^ k % 256 := by
  rw [le64Byte, BitVec.extractLsb'_toNat, Nat.shiftRight_eq_div_pow, Nat.pow_mul]

theorem be64Byte_eq_le64Byte (c : BitVec 64) {k : Nat} (hk : k < 8) : be64Byte c k = le64Byte c (7 - k) := by
  rw [be64Byte, le64Byte, show 56 - 8 * k = 8 * (7 - k) by omega]

/-- Settles O22: the counter's bytes are its digits in base 256 (`toNat_le64Byte`), in the one order or the other. -/
theorem counterBlockBytes : Obligations.CounterBlockBytes := by
  refine ⟨fun e nonce c k => byteOf_ctrBlock_nonce e nonce c, fun nonce c k hk => ⟨?_, ?_⟩, by decide⟩
  · rw [byteOf_ctrBlock_be _ _ hk, be64Byte_eq_le64Byte c hk, toNat_le64Byte]
  · rw [byteOf_ctrBlock_le _ _ hk, toNat_le64Byte]

/-! ### The block loop from counter 0 (R191, R192) -/

/-- The requests of the loop: block `j` asks for the encryption of the counter block of the value `j`. -/
theorem requestsFor_ctrCounters (s : State) (e : Endian) (nonce : Nonce) (k : Nat) :
    s.requestsFor .enc (ctrCounters e nonce 0 k) =
      (List.range k).map fun j => .cipher .enc (ctrBlock e nonce (BitVec.ofNat 64 j)) s.key := by
  rw [State.requestsFor, show (0 : BitVec 64) = BitVec.ofNat 64 0 from rfl, ctrCounters_eq, ← List.range_eq_range',
    List.map_map]
  rfl

theorem ctrBlocks_zero (enc : Block → Block) (e : Endian) (nonce : Nonce) (ts : List Block) :
    ctrBlocks enc e nonce 0 ts = (List.range ts.length).map fun j =>
      xor16 (ts.getD j zeroBlock) (enc (ctrBlock e nonce (BitVec.ofNat 64 j))) := by
  rw [show (0 : BitVec 64) = BitVec.ofNat 64 0 from rfl, ctrBlocks_eq]
  simp only [Nat.zero_add]

/-! ### `CTR_ENC` (R193) -/

theorem exec_ctrEnc_of_fail {s : State} (h : 8 + 16 * (s.inLen / 16 + 1) ≤ s.params.capBytes)
    (hl : s.rng.live = true) (ha : s.rng.answer = .fail) :
    exec .ctrEnc s = .next (((State.withOutput { s with rng := s.rng.advance } []).afterRequests
      [.random 8]).endedWith 0x42) := by
  rw [exec_ctrEnc_of_le h, State.withRandom_fail (s := s.openMode _ _) hl ha]
  rfl

theorem exec_ctrEnc_of_ok {s : State} {r : Block} (h : 8 + 16 * (s.inLen / 16 + 1) ≤ s.params.capBytes)
    (hl : s.live) (ha : s.rng.answer = .ok r) :
    exec .ctrEnc s = .next (((State.withOutput { s with rng := s.rng.advance }
        ((nonceOf r).toList ++ ungroupBlocks
          (ctrBlocks (s.ask .enc) s.params.ctrEndian (nonceOf r) 0 (groupBytes (padBytes s.input))))).afterRequests
      (.random 8 :: s.requestsFor .enc
        (ctrCounters s.params.ctrEndian (nonceOf r) 0 (groupBytes (padBytes s.input)).length))).endedWith 0x02) := by
  obtain ⟨hcipher, hrng⟩ := hl
  rw [exec_ctrEnc_of_le h, State.withRandom_ok (s := s.openMode _ _) hrng ha, State.ctrEncLoop, State.withCipher_live]
  · exact congrArg _ (publish_drawn (s := s) _ 8 _ rfl rfl)
  · exact hcipher

/-- Settles O23: requests and blocks of the loop are listed by their counter values (`requestsFor_ctrCounters`,
`ctrBlocks_zero`), and the eight bytes in front are the nonce (`toList_nonceOf`). -/
theorem ctrEncResult : Obligations.CtrEncResult := by
  refine ⟨rfl, fun s => ⟨fun hbig => exec_ctrEnc_of_lt (by omega), fun _ => exec_ctrEnc_of_fail,
    fun r _ hfits hl ha => ?_⟩⟩
  rw [exec_ctrEnc_of_ok hfits hl ha, requestsFor_ctrCounters, ctrBlocks_zero, length_padBlocks, toList_nonceOf]
  rfl

/-! ### `CTR_DEC` (R194) -/

theorem exec_ctrDec_of_lt {s : State} (h : s.params.capBytes < s.inLen) :
    exec .ctrDec s = .next ((s.withOutput []).endedWith 0x22) := by
  rw [exec, execCtrDec, if_pos h]
  rfl

theorem exec_ctrDec_of_length {s : State} (h : s.inLen ≤ s.params.capBytes)
    (hb : s.inLen < 8 ∨ (s.inLen - 8) % 16 ≠ 0) : exec .ctrDec s = .next ((s.withOutput []).endedWith 0x32) := by
  rw [exec, execCtrDec, if_neg (by omega), if_pos hb]
  rfl

theorem nonceOf_blockAt_zero {x : List Byte} {nonce : Nonce} (h : nonce.toList = x.take 8) :
    nonceOf (blockAt x 0) = nonce := by
  apply Vector.ext
  intro i hi
  have hget : nonce.toList.getD i 0 = x.getD i 0 := by
    rw [h, List.getD_eq_getElem?_getD, List.getElem?_take_of_lt hi, List.getD_eq_getElem?_getD]
  rw [nonceOf, Vector.getElem_ofFn, byteOf_blockAt _ _ (by omega), Nat.mul_zero, Nat.zero_add, ← hget,
    List.getD_eq_getElem?_getD, Vector.getElem?_toList, Vector.getElem?_eq_getElem hi, Option.getD_some]

theorem exec_ctrDec_of_live {s : State} {nonce : Nonce} (h : s.inLen ≤ s.params.capBytes) (h8 : 8 ≤ s.inLen)
    (ha : (s.inLen - 8) % 16 = 0) (hl : s.cipher.live = true) (hn : nonce.toList = s.input.take 8) :
    exec .ctrDec s = .next ((s.afterRequests (s.requestsFor .enc
        (ctrCounters s.params.ctrEndian nonce 0 (groupBytes (s.input.drop 8)).length))).endedUnpadding
      (ungroupBlocks (ctrBlocks (s.ask .enc) s.params.ctrEndian nonce 0 (groupBytes (s.input.drop 8))))) := by
  rw [exec, execCtrDec, if_neg (by omega), if_neg (by omega), nonceOf_blockAt_zero hn]
  dsimp only
  rw [State.withCipher_live, finishUnpad_eq]
  · rfl
  · exact hl

/-- Settles O24: the three cases of the checks; requests and blocks of the loop are listed by their counter values
(`requestsFor_ctrCounters`, `ctrBlocks_zero`). -/
theorem ctrDecResult : Obligations.CtrDecResult := by
  refine ⟨rfl, fun s => ⟨exec_ctrDec_of_lt, exec_ctrDec_of_length, fun nonce hfits h8 ha hl hn => ?_⟩⟩
  rw [exec_ctrDec_of_live hfits h8 ha hl hn, requestsFor_ctrCounters, ctrBlocks_zero, length_bodyBlocks]
  rfl

/-! ### A changed block (R199) -/

/-- The change passes through the exclusive or with the key stream as it is, and the key stream looks at no block. -/
theorem ctrBlocks_set_xor16 (enc : Block → Block) (e : Endian) (nonce : Nonce) (c : BitVec 64) (d : Block)
    (ts : List Block) (k : Nat) :
    ctrBlocks enc e nonce c (ts.set k (xor16 (ts.getD k zeroBlock) d)) =
      (ctrBlocks enc e nonce c ts).set k (xor16 ((ctrBlocks enc e nonce c ts).getD k zeroBlock) d) := by
  induction ts generalizing c k with
  | nil => rfl
  | cons t ts ih =>
    cases k with
    | zero =>
      simp only [List.set_cons_zero, List.getD_cons_zero, ctrBlocks]
      rw [xor16_assoc, xor16_comm d, ← xor16_assoc]
    | succ k => simp only [List.set_cons_succ, List.getD_cons_succ, ctrBlocks, ih]

/-- Settles O28. -/
theorem ctrChangedBlock : Obligations.CtrChangedBlock :=
  fun enc e nonce c d ts k _ => ctrBlocks_set_xor16 enc e nonce c d ts k

/-! ### The round trip (R198) -/

/-- CTR undoes itself under one nonce: the same key stream is xored in twice. -/
theorem ctrBlocks_ctrBlocks (enc : Block → Block) (e : Endian) (nonce : Nonce) (c : BitVec 64) (ts : List Block) :
    ctrBlocks enc e nonce c (ctrBlocks enc e nonce c ts) = ts := by
  induction ts generalizing c with
  | nil => rfl
  | cons t ts ih => rw [ctrBlocks, ctrBlocks, xor16_cancel, ih]

/-- `RUN CTR_ENC` with `x` as the input and `r` the next draw leaves the nonce and the ciphertext blocks in `OBUF`. -/
theorem State.Inv.runStmt_ctrEnc {s : State} {x : List Byte} {r : Block} (h : s.Inv) (hp : s.phase = .idle)
    (hl : s.live) (ha : s.rng.answer = .ok r) (hin : s.input = x)
    (hx : 8 + 16 * (x.length / 16 + 1) ≤ s.params.capBytes) :
    ∃ t res, s.runStmt (.run .ctrEnc) = some (t, res) ∧ t.Inv ∧ t.phase = .idle ∧ t.params = s.params ∧
      t.key = s.key ∧ t.cipher = s.cipher ∧ t.obuf = (nonceOf r).toList ++
        ungroupBlocks (ctrBlocks (s.ask .enc) s.params.ctrEndian (nonceOf r) 0 (groupBytes (padBytes x))) := by
  subst hin
  rw [length_input] at hx
  have he := exec_ctrEnc_of_ok (s := s.startCommand (opcodeOf .ctrEnc)) hx hl ha
  obtain ⟨l, res, hrun, hinv⟩ := h.runStmt_run hp he rfl
  exact ⟨_, res, hrun, hinv, rfl, rfl, rfl, rfl, rfl⟩

/-- `RUN CTR_DEC` with a nonce and blocks as the input that decrypt to those of `pad(x)` leaves `x` in `OBUF`. -/
theorem State.Inv.runStmt_ctrDec {s : State} {nonce : Nonce} {cs : List Block} {x : List Byte} (h : s.Inv)
    (hp : s.phase = .idle) (hl : s.cipher.live = true) (hin : s.input = nonce.toList ++ ungroupBlocks cs)
    (hcs : 8 + 16 * cs.length ≤ s.params.capBytes)
    (hdec : ctrBlocks (s.ask .enc) s.params.ctrEndian nonce 0 cs = groupBytes (padBytes x)) :
    ∃ t res, s.runStmt (.run .ctrDec) = some (t, res) ∧ t.Inv ∧ t.obuf = x ∧ t.status = 0x02 := by
  have hlen : s.inLen = 8 + 16 * cs.length := by
    rw [← length_input, hin, List.length_append, Vector.length_toList, length_ungroupBlocks]
  have hnonce : nonce.toList = s.input.take 8 := by rw [hin, List.take_left' Vector.length_toList]
  have hbody : groupBytes (s.input.drop 8) = cs := by
    rw [hin, List.drop_left' Vector.length_toList, groupBytes_ungroupBlocks]
  have he : exec .ctrDec (s.startCommand (opcodeOf .ctrDec)) =
      .next (((s.startCommand _).afterRequests (s.requestsFor .enc
          (ctrCounters s.params.ctrEndian nonce 0 (groupBytes (s.input.drop 8)).length))).endedUnpadding
        (ungroupBlocks (ctrBlocks (s.ask .enc) s.params.ctrEndian nonce 0 (groupBytes (s.input.drop 8))))) :=
    exec_ctrDec_of_live (hlen.trans_le hcs) (show 8 ≤ s.inLen by omega) (show (s.inLen - 8) % 16 = 0 by omega) hl hnonce
  rw [hbody, hdec, ungroupBlocks_groupBytes (by rw [length_padBytes, Nat.mul_mod_right]), endedUnpadding_padBytes] at he
  obtain ⟨l, res, hrun, hinv⟩ := h.runStmt_run hp he rfl
  exact ⟨_, res, hrun, hinv, rfl, rfl⟩

/-- Settles O58: the nonce travels in front of the ciphertext, so `CTR_DEC` asks for the key stream of `CTR_ENC`, and
what it decrypts is `pad(p)` again (`ctrBlocks_ctrBlocks`). -/
theorem ctrRoundTrip : Obligations.CtrRoundTrip := by
  intro s k r p h hp hl hx ha
  have hp' : p.length ≤ s.params.capBytes := by omega
  have hk := h.keyed hp k
  obtain ⟨u, r₁, henc, hu, hpu, hparams, hkey, hcipher, hou⟩ :=
    (hk.loaded hp hp').runStmt_ctrEnc hp hl ha (hk.input_loaded hp') hx
  obtain ⟨v, hcopy, hv, hpv, hin, hparams', hkey', hcipher', -⟩ := hu.runStmt_copyOI_input hpu
  have hask : v.ask = State.ask { s with key := k } :=
    State.ask_congr (hcipher'.trans hcipher) (hkey'.trans hkey)
  have hpar : v.params = s.params := hparams'.trans hparams
  have hlive : v.cipher.live = true := (congrArg CipherPort.live (hcipher'.trans hcipher)).trans hl.1
  have hfits : 8 + 16 * (ctrBlocks (State.ask { s with key := k } .enc) s.params.ctrEndian (nonceOf r) 0
      (groupBytes (padBytes p))).length ≤ v.params.capBytes := by
    rw [hpar, length_ctrBlocks, length_groupBytes, length_padBytes, Nat.mul_div_cancel_left _ (by decide)]
    exact hx
  obtain ⟨t, r₂, hdec, ht, hot, hst⟩ := hv.runStmt_ctrDec hpv hlive (hin.trans hou) hfits
    (by rw [hask, hpar]; exact ctrBlocks_ctrBlocks _ _ _ _ _)
  have hruns := runStmts_cons_some (loadK_eq k (inv_idle h hp).1) <| runStmts_cons_some (hk.runStmt_loadI hp hp') <|
    runStmts_cons_some henc <| runStmts_cons_some hcopy <| runStmts_cons_some hdec
      (show t.runStmts [] = some (t, []) from rfl)
  exact ⟨t, _, hruns, hot, hot ▸ ht.olen_eq.1, hst⟩

end Sys2Proof.Machine
end

section
/-! PROOF. The sequencer (spec/45_sequencer.md R210 to R224): how a command starts, what it fetches, that its steps end
where the command level says, within `3 + N` of them, and that no state with the invariant is without a step. -/

namespace Sys2Proof.Machine

/-! ### The start of a command (R212) -/

/-- Settles O47: an idle MFL takes the byte, a running one ignores the write. -/
theorem startOfACommand : Obligations.StartOfACommand :=
  fun _ v h => ⟨fun hp => hostWrite_cmd (inv_idle h hp).1 v, fun hp => hostWrite_busy (h.busy_iff.2 hp) _ _ _⟩

/-- The first byte of a table word that decodes to `i` is the opcode of `i`. -/
theorem headD_tableWordBytes {nbits w : Nat} {i : Instr} (h : decodeTableWord nbits w = some i) :
    (tableWordBytes nbits w).headD 0 = opcodeOf i := by
  unfold decodeTableWord at h
  split at h
  · next hd =>
    cases h
    rw [eq_encode_append_of_decode hd]
    rfl
  · cases h

/-- Settles O7: the word's byte is latched and the move at the head of the agenda leaves the MFL alone. -/
theorem fetchWordRunsNext : Obligations.FetchWordRunsNext := by
  intro s w i h
  have hc : (s.startCommand (opcodeOf i)).command = some i := by
    rw [State.command_eq, State.startCommand_opc, decodeByte_opcodeOf]
  rw [State.withFetchWord, headD_tableWordBytes h, step_of_agenda_cons rfl]
  exact runCommand_check rfl hc

/-! ### The blocks fetched (R220, R221) -/

theorem byteOf_readBlock (m : Memory) (a : Nat) {j : Nat} (hj : j < 16) : byteOf (m.readBlock a) j = m.read (a + j) :=
  byteOf_blockOf _ hj

theorem byteOf_bodyBlock (s : State) (pre k : Nat) {j : Nat} (hj : j < 16) :
    byteOf (s.bodyBlock pre k) j = s.ibuf.read (pre + 16 * k + j) :=
  byteOf_readBlock _ _ hj

theorem byteOf_plainBlock_of_lt {s : State} {k j : Nat} (hk : k < s.inLen / 16) (hj : j < 16) :
    byteOf (s.plainBlock k) j = s.ibuf.read (16 * k + j) := by
  rw [State.plainBlock, if_pos hk, byteOf_readBlock _ _ hj]

/-- The last block: the data bytes left, then the pad bytes. -/
theorem byteOf_plainBlock_last (s : State) {j : Nat} (hj : j < 16) :
    byteOf (s.plainBlock (s.inLen / 16)) j =
      if j < s.inLen % 16 then s.ibuf.read (16 * (s.inLen / 16) + j) else BitVec.ofNat 8 (16 - s.inLen % 16) := by
  rw [State.plainBlock, if_neg (Nat.lt_irrefl _), byteOf_blockOf _ hj, padLen]

/-- Settles O29: the two lists of blocks are those of the fetches, index by index (`groupBytes_padBytes_input`,
`groupBytes_drop_input`). -/
theorem fetchedBlocks : Obligations.FetchedBlocks := by
  intro s
  refine ⟨fun k hk => ?_, fun k j hk hj => byteOf_plainBlock_of_lt hk hj, fun j hj => byteOf_plainBlock_last s hj,
    fun pre k j hj => byteOf_bodyBlock s pre k hj, fun pre k hk => ⟨?_, by omega⟩⟩
  · rw [groupBytes_padBytes_input, List.getElem?_map, List.getElem?_range hk, Option.map_some]
  · rw [groupBytes_drop_input, List.getElem?_map, List.getElem?_range hk, Option.map_some]

/-! ### The two levels (R210) -/

theorem blockCount_startCommand (i : Instr) (v : Byte) (s : State) : (s.startCommand v).blockCount i = s.blockCount i := by
  cases i <;> rfl

/-- An illegal command is at its end after one step, where the MFL left alone brings it too. -/
theorem seqRun_eq_runCommand_of_illegal {s : State} {k : Nat} (hp : s.phase = .check) (hc : s.command = none)
    (hk : 1 ≤ k) : s.seqRun k = s.runCommand := by
  rw [runCommand_illegal hp hc]
  exact State.seqRun_done (State.seqRun_one (State.seqStep_illegal hp hc)) (State.seqStep_idle rfl) hk

/-- With collaborators that answer, a command in its check step runs to its end. -/
theorem runCommand_check_ends {s : State} (hp : s.phase = .check) (hl : s.live) :
    ∃ t, s.runCommand = .next t ∧ t.phase = .idle := by
  cases hc : s.command with
  | none => exact ⟨_, runCommand_illegal hp hc, rfl⟩
  | some i =>
    rw [runCommand_check hp hc]
    exact exec_ends i s hl

/-- Settles O30: the write latches the byte; a legal one meets `State.Inv.seqRun_eq_exec`. -/
theorem levelsAgree : Obligations.LevelsAgree := by
  intro s v h hp
  rw [hostWrite_cmd (inv_idle h hp).1]
  have hc : (s.startCommand v).command = decodeByte v := State.command_eq _
  refine ⟨fun i hi k hk => ?_, fun hv k => seqRun_eq_runCommand_of_illegal rfl (hc.trans hv),
    fun hl => runCommand_check_ends rfl hl⟩
  rw [runCommand_check rfl (hc.trans hi)]
  exact (inv_startCommand h hp v).seqRun_eq_exec rfl (hc.trans hi) (by rwa [blockCount_startCommand])

/-! ### Every step has a next state (log 12) -/

theorem State.Inv.seqRun_next {s : State} (h : s.Inv) (k : Nat) : ∃ t, s.seqRun k = .next t := by
  induction k generalizing s with
  | zero => exact ⟨s, rfl⟩
  | succ k ih =>
    obtain ⟨u, hu⟩ := h.seqStep_next
    rw [State.seqRun_succ k hu]
    exact ih (inv_seqStep h hu)

theorem exec_next (i : Instr) (s : State) : ∃ t, exec i s = .next t := by
  cases i <;> exact ⟨_, rfl⟩

theorem State.Inv.runCommand_next {s : State} (h : s.Inv) : ∃ t, s.runCommand = .next t := by
  unfold State.runCommand
  split
  · exact ⟨s, rfl⟩
  · split
    · exact exec_next _ s
    · exact ⟨_, rfl⟩
  all_goals exact h.seqRun_next _

theorem State.Inv.takeMove_next {s : State} (h : s.Inv) (m : Move) : ∃ t, State.takeMove m s = .next t := by
  cases m with
  | host _ | reset | answering _ _ => exact ⟨_, rfl⟩
  | mfl => exact h.runCommand_next
  | mflStep => exact h.seqStep_next
  | edge p m =>
    cases hr : p.rst with
    | true => exact ⟨_, State.edge_reset hr m s⟩
    | false =>
      obtain ⟨u, hu⟩ := h.edge_next (m := m) hr
      exact ⟨_, hu⟩

/-- Settles O53: the MFL left alone and each kind of move have a next state. -/
theorem stepNeverStops : Obligations.StepNeverStops := by
  intro s h
  unfold step
  split
  · exact h.runCommand_next
  · exact State.Inv.takeMove_next (inv_congr h rfl) _

/-! ### The ends of a command (R249) -/

/-- Where `i` has ended in `t`, `STATUS` holds a value of its row in R249's table. -/
def EndsInTable (i : Instr) (t : State) : Prop := t.phase = .idle → t.status ∈ endsOf i

section
variable {i : Instr}

theorem EndsInTable.ite {p : Prop} [Decidable p] {a b : State} (ha : EndsInTable i a) (hb : EndsInTable i b) :
    EndsInTable i (if p then a else b) := by split <;> assumption

theorem EndsInTable.raise {c : ErrCode} (h : statusError c ∈ endsOf i) (d : Dest) (s : State) :
    EndsInTable i (s.raise d c) := fun _ => h

theorem EndsInTable.finishOk (h : statusOk false ∈ endsOf i) (s : State) : EndsInTable i (s.finishOk false) := fun _ => h

theorem EndsInTable.finishUnpad (h : ∀ st ∈ ([0x02, 0x06, 0x52] : List Byte), st ∈ endsOf i) (w : List Byte) (s : State) :
    EndsInTable i (s.finishUnpad w) := fun _ => h _ (finishUnpad_status_mem w s)

/-- A block loop that waits has not ended. -/
theorem EndsInTable.withCipher {s : State} {fin : State → State} (hp : s.phase ≠ .idle)
    (hfin : ∀ u, EndsInTable i (fin u)) (rs : List PortRequest) : EndsInTable i (s.withCipher rs fin) := by
  intro h
  have hend := withCipher_of_ended hp h
  rw [hend] at h ⊢
  exact hfin _ h

/-- A random step that waits has not ended. -/
theorem EndsInTable.withRandom {s : State} {go : Block → State → State} (hp : s.phase ≠ .idle)
    (hrng : statusError .rng ∈ endsOf i) (hgo : ∀ r u, EndsInTable i (go r u)) (n : Nat) :
    EndsInTable i (s.withRandom n go) := by
  rw [State.withRandom_eq]
  refine .ite ?_ fun h => absurd h hp
  split
  · exact .raise hrng _ _
  · exact hgo _ _

end

/-- R249: a legal command ends with a `STATUS` of its row. -/
theorem exec_endsInTable {i : Instr} {s t : State} (h : exec i s = .next t) : EndsInTable i t := by
  cases i <;> cases h
  case pad => exact .ite (.raise (by decide) _ _) <| .ite (.raise (by decide) _ _) <| .finishOk (by decide) _
  case unpad => exact .ite (.raise (by decide) _ _) <| .finishUnpad (by decide) _ _
  case group => exact .ite (.raise (by decide) _ _) <| .ite (.raise (by decide) _ _) <| .finishOk (by decide) _
  case ungroup => exact .ite (.raise (by decide) _ _) <| .finishOk (by decide) _
  case xor => exact .finishOk (by decide) _
  case ecbEnc =>
    exact .ite (.raise (by decide) _ _) <| .ite (.raise (by decide) _ _) <|
      .withCipher Phase.noConfusion (fun _ => .finishOk (by decide) _) _
  case cbcEnc | ctrEnc =>
    exact .ite (.raise (by decide) _ _) <| .ite (.raise (by decide) _ _) <|
      .withRandom Phase.noConfusion (by decide)
        (fun _ _ => .withCipher Phase.noConfusion (fun _ => .finishOk (by decide) _) _) _
  case ecbDec | cbcDec | ctrDec =>
    exact .ite (.raise (by decide) _ _) <| .ite (.raise (by decide) _ _) <|
      .withCipher Phase.noConfusion (.finishUnpad (by decide) _) _

/-! ### Termination and work (R224) -/

/-- `N` of a mode command past its checks: `N` blocks fit the capacity. -/
theorem State.Inv.blockCount_lt {s : State} {i : Instr} (h : s.Inv) (hm : isMode i = true) (hc : s.checksPass i) :
    s.blockCount i < 2 ^ 28 := by
  obtain ⟨-, hlen, hfits⟩ := hc
  rw [resultLen_eq i s hm hlen] at hfits
  have hcap := h.base.cap_lt.1
  omega

/-- Every end is one behind the block loop or one before it. -/
theorem endsOf_behind_or_before (i : Instr) :
    ∀ st ∈ endsOf i, st ∈ ([0x02, 0x06, 0x52] : List Byte) ∨ st ∈ ([0x22, 0x32, 0x42] : List Byte) := by
  cases i <;> decide

/-- A command that has ended has asked the cipher at most `N` times, behind at most one random request (R222). -/
theorem exec_requests_le {i : Instr} {s t : State} (hl : s.live) (h : exec i s = .next t) (hp : t.phase = .idle) :
    ∃ (draw : List PortRequest) (bs : List Block),
      t.requests = s.requests ++ (draw ++ bs.map (.cipher (cipherOpOf i) · s.key)) ∧
      (draw = [] ∨ draw = [.random (prefixLen i)]) ∧ bs.length ≤ s.blockCount i := by
  obtain ⟨bs, hreq, hunit, hloop, herr⟩ := requestsOfACommand i s t hl h
  refine ⟨_, bs, hreq, ?_, ?_⟩
  · split
    · exact .inr rfl
    · exact .inl rfl
  · have hnil : bs = [] → bs.length ≤ s.blockCount i := fun e => by rw [e]; exact Nat.zero_le _
    cases hm : isMode i with
    | false => exact hnil (hunit hm)
    | true =>
      rcases endsOf_behind_or_before i _ (exec_endsInTable h hp) with hst | hst
      · exact (hloop hm hst).le
      · exact hnil (herr hst)

/-- In the random step no block has been done. -/
theorem State.Inv.idx_of_rand {s : State} (h : s.Inv) (hp : s.phase = .rand) : s.idx = 0 := by
  have hq := h.sequencer
  cases hc : s.command with
  | none =>
    rw [hc, hp] at hq
    rcases hq.1 with e | e <;> cases e
  | some i =>
    rw [hc] at hq
    simp only [State.phaseOk, hp] at hq
    obtain ⟨-, -, -, -, hidx, -⟩ := hq
    exact hidx

/-- A command past its check step runs to its end where the collaborators answer: the random step if it stands there, the
`N - IDX` blocks left, and the final step. -/
theorem State.Inv.seqRun_running_ends {s : State} (h : s.Inv) (hl : s.live)
    (hp : s.phase = .rand ∨ s.phase = .block ∨ s.phase = .final) :
    ∃ t, s.seqRun (s.n.toNat - s.idx.toNat + 2) = .next t ∧ t.phase = .idle := by
  rcases hp with hp | hp | hp
  · obtain ⟨u, hu, hlu, hidle | ⟨hb, hn, hidx⟩⟩ := State.seqStep_rand_live h hp hl
    · exact ⟨u, by rw [State.seqRun_succ _ hu, State.seqRun_idle hidle], hidle⟩
    · rw [State.seqRun_succ _ hu]
      refine State.seqRun_block_ends _ (inv_seqStep h hu) hlu (.inl ⟨hb, ?_⟩) (Nat.le_refl _)
      rw [hidx, hn, h.idx_of_rand hp]
      simp
  · obtain ⟨-, -, -, -, -, hlt, -⟩ := State.seqStep_block_live h hp hl
    exact State.seqRun_block_ends _ h hl (.inl ⟨hp, Nat.add_sub_cancel' hlt.le⟩) (Nat.le_succ _)
  · exact State.seqRun_block_ends _ h hl (.inr hp) (Nat.le_succ _)

/-- The MFL left alone comes to rest where the collaborators answer, whatever the phase. -/
theorem State.Inv.runCommand_ends {s : State} (h : s.Inv) (hl : s.live) :
    ∃ t, s.runCommand = .next t ∧ t.phase = .idle := by
  cases hp : s.phase with
  | idle => exact ⟨s, runCommand_idle hp, hp⟩
  | check => exact runCommand_check_ends hp hl
  | rand | block | final =>
    rw [runCommand_running (by simp [hp])]
    exact h.seqRun_running_ends hl (by simp [hp])

/-- Settles O31: `3 + N` steps are the whole command (`State.Inv.seqRun_eq_exec`), which ends where the collaborators
answer; from any other phase the steps that are left do (`State.Inv.runCommand_ends`). -/
theorem commandsTerminate : Obligations.CommandsTerminate := by
  refine ⟨fun s i h hp hc hl => ?_, fun s h hl => h.runCommand_ends hl⟩
  obtain ⟨t, ht, hidle⟩ := exec_ends i s hl
  obtain ⟨draw, bs, hreq, hdraw, hbs⟩ := exec_requests_le hl ht hidle
  refine ⟨3 + s.blockCount i, t, Nat.le_refl _, (h.seqRun_eq_exec hp hc (Nat.le_refl _)).trans ht, hidle,
    h.blockCount_lt, _, hreq, ?_, ?_⟩
  · rcases hdraw with rfl | rfl <;> simpa [List.filter_map, Function.comp_def] using hbs
  · rcases hdraw with rfl | rfl <;> simp [List.filter_map, Function.comp_def]

end Sys2Proof.Machine
end

section
/-! PROOF. Errors (spec/60_exceptions.md): what a failed command leaves behind (R247), and which command can end with
which code (R249). -/

namespace Sys2Proof.Machine

/-! ### The end of a failed command (R247) -/

/-- `s` with the error `c` raised, the random source standing and the requests made as in `t`. -/
def State.failedAs (d : Dest) (c : ErrCode) (s t : State) : State :=
  State.raise d c { s with rng := t.rng, requests := t.requests }

section
variable (c : ErrCode) (s t : State)

/-! Raising an error on `OBUF` overwrites what the steps of a command before it have written. -/

@[simp] theorem failedAs_afterRequests (rs : List PortRequest) :
    (s.afterRequests rs).failedAs .obuf c t = s.failedAs .obuf c t := rfl

@[simp] theorem failedAs_send (r : PortRequest) : (s.send r).failedAs .obuf c t = s.failedAs .obuf c t := rfl

@[simp] theorem failedAs_drawTaken : s.drawTaken.failedAs .obuf c t = s.failedAs .obuf c t := rfl

@[simp] theorem failedAs_openMode (blocks : Nat) (phase : Phase) :
    (s.openMode blocks phase).failedAs .obuf c t = s.failedAs .obuf c t := rfl

@[simp] theorem failedAs_setPrev (iv : Block) : (s.setPrev iv).failedAs .obuf c t = s.failedAs .obuf c t := rfl

@[simp] theorem failedAs_setNonce (nonce : Nonce) :
    (s.setNonce nonce).failedAs .obuf c t = s.failedAs .obuf c t := rfl

@[simp] theorem failedAs_enterLoop (pre : List Byte) :
    (s.enterLoop pre).failedAs .obuf c t = s.failedAs .obuf c t := rfl

end

/-- Where a command with destination `d` that started in `s` has ended in `t` with an error, `t` is `s` with that error
raised, but for the random source and the requests. -/
def FailsCleanly (d : Dest) (s t : State) : Prop :=
  t.phase = .idle → t.err ≠ 0 → ∃ c : ErrCode, t = s.failedAs d c t

section
variable {d : Dest} {s : State}

theorem FailsCleanly.ite {p : Prop} [Decidable p] {a b : State} (ha : FailsCleanly d s a) (hb : FailsCleanly d s b) :
    FailsCleanly d s (if p then a else b) := by split <;> assumption

theorem FailsCleanly.raise (c : ErrCode) : FailsCleanly d s (s.raise d c) := fun _ _ => ⟨c, by cases d <;> rfl⟩

/-- A good end carries no error code. -/
theorem FailsCleanly.finishOk (u : State) (padinv : Bool) : FailsCleanly d s (u.finishOk padinv) :=
  fun _ he => absurd (show errOf (statusOk padinv) = 0 by cases padinv <;> decide) he

theorem FailsCleanly.finishUnpad (w : List Byte) (s : State) : FailsCleanly .obuf s (s.finishUnpad w) := by
  unfold State.finishUnpad
  exact .ite (.finishOk _ _) (.ite (.raise _) (.finishOk _ _))

/-- Errors raised on `u`, a state on the way from `s`, count as raised on `s`. -/
theorem FailsCleanly.congr {u t : State} (hu : ∀ c v, u.failedAs d c v = s.failedAs d c v) (h : FailsCleanly d u t) :
    FailsCleanly d s t := fun hp he => (h hp he).imp fun c hc => hc.trans (hu c t)

/-- A block loop that waits has not ended. -/
theorem FailsCleanly.withCipher {fin : State → State} (hp : s.phase ≠ .idle)
    (hfin : ∀ u, FailsCleanly .obuf u (fin u)) (rs : List PortRequest) :
    FailsCleanly .obuf s (s.withCipher rs fin) := by
  intro h
  have hend := withCipher_of_ended hp h
  rw [hend] at h ⊢
  exact (hfin _).congr (by simp) h

/-- A random step that waits has not ended. -/
theorem FailsCleanly.withRandom {go : Block → State → State} (hp : s.phase ≠ .idle)
    (hgo : ∀ r u, FailsCleanly .obuf u (go r u)) (n : Nat) : FailsCleanly .obuf s (s.withRandom n go) := by
  rw [State.withRandom_eq]
  refine .ite (.congr (u := (s.send (.random n)).drawTaken) (by simp) ?_) fun h => absurd h hp
  split
  · exact .raise _
  · exact hgo _ _

end

/-- R247: a command that fails has raised its error on the state it started in. -/
theorem exec_failsCleanly {i : Instr} {s t : State} (h : exec i s = .next t) : FailsCleanly (destOf i) s t := by
  cases i <;> cases h
  case pad | group => exact .ite (.raise _) <| .ite (.raise _) <| .finishOk _ _
  case unpad => exact .ite (.raise _) <| .finishUnpad _ s
  case ungroup => exact .ite (.raise _) <| .finishOk _ _
  case xor => exact .finishOk _ _
  case ecbEnc =>
    exact .ite (.raise _) <| .ite (.raise _) <| .congr (by simp [destOf]) <|
      .withCipher Phase.noConfusion (fun _ => .finishOk _ _) _
  case ecbDec | cbcDec | ctrDec =>
    exact .ite (.raise _) <| .ite (.raise _) <| .congr (by simp [destOf]) <|
      .withCipher Phase.noConfusion (.finishUnpad _) _
  case cbcEnc | ctrEnc =>
    exact .ite (.raise _) <| .ite (.raise _) <| .congr (by simp [destOf]) <|
      .withRandom Phase.noConfusion (fun _ _ => .congr (by simp) <|
        .withCipher Phase.noConfusion (fun _ => .finishOk _ _) _) _

/-- Settles O34: a failed command has raised its error on the state it started in (`exec_failsCleanly`). -/
theorem failedCommandLeavesNothing : Obligations.FailedCommandLeavesNothing := by
  refine ⟨fun i s t h hp he => ?_, fun s hp hc => runCommand_illegal hp hc⟩
  obtain ⟨c, hc⟩ := exec_failsCleanly h hp he
  refine ⟨c, hc.trans ?_⟩
  cases destOf i <;> rfl

/-! ### The table, the other way (R249) -/

/-- The length of the input on which `i` ends with `status`, under a capacity of 64 bytes: beyond the capacity; no whole
number of blocks; nothing behind the prefix, which leaves no padding; otherwise one block behind the prefix. -/
def endLen (i : Instr) (status : Byte) : Nat :=
  if status = 0x22 then 65
  else if status = 0x32 then 1
  else if status = 0x06 ∨ status = 0x52 then prefixLen i
  else prefixLen i + 16

/-- An input of 32 bytes 0x01. -/
def endInput : Memory := (List.range 32).map fun a => (a, 0x01)

/-- Every block of that input. -/
def onesBlock : Block := Vector.replicate 16 0x01

/-- A state in which `i` is latched and ends with `status`: the input is `endInput`, and the cipher
answers the blocks that the decrypt commands ask with bytes 0x02, so that the data to unpad, where there are any, end with
0x01, 0x02 or 0x03, a valid pad byte. -/
def endState (i : Instr) (status : Byte) : State :=
  { State.afterPowerOn Config.params endInput [] with
    opc := opcodeOf i, status := 0x01, phase := .check
    ctrl := if status = 0x06 then 0x00 else 0x01
    ilen := BitVec.ofNat 32 (endLen i status), nblk := if status = 0x22 then 5 else 0
    cipher :=
      { known :=
          [⟨.dec, onesBlock, zeroBlock, Vector.replicate 16 0x02⟩,
            ⟨.enc, ctrBlock .be (nonceOf onesBlock) 0, zeroBlock, Vector.replicate 16 0x02⟩]
        live := true }
    rng := { script := [if status = 0x42 then .fail else .ok zeroBlock], count := 0, live := true } }

theorem inv_endState (i : Instr) (status : Byte) : (endState i status).Inv :=
  State.inv_of_rest (.inr rfl)
    (params_wf := show Config.params.wf = true by decide)
    (ibuf_wf := show Memory.wf endInput = true ∧ Memory.below 64 endInput = true by decide)
    (blk_wf := ⟨rfl, rfl⟩)
    (olen_eq := ⟨rfl, Nat.zero_le _⟩)
    (ctrl_reserved := show ctrlBits (ite _ _ _) = ite _ _ _ by split <;> decide)
    (status_legal := show (0x01 : Byte) ∈ statusValues by decide)
    (busy_iff := iff_of_true (show (0x01 : Byte).getLsbD 0 = true by decide) Phase.noConfusion)
    (hidden := ⟨rfl, rfl, rfl, rfl, rfl, rfl, rfl⟩)

/-- The `STATUS` with which an outcome leaves the MFL idle, if it does. -/
def endStatus (o : Host.Outcome State Fault Refusal) : Option Byte :=
  match o with
  | .next t => if t.phase = .idle then some t.status else none
  | .fault _ | .refused _ => none

theorem exists_next_of_endStatus {o : Host.Outcome State Fault Refusal} {status : Byte}
    (h : endStatus o = some status) : ∃ t, o = .next t ∧ t.phase = .idle ∧ t.status = status := by
  cases o with
  | next t =>
    obtain ⟨hp, hst⟩ := Option.ite_none_right_eq_some.1 h
    exact ⟨t, rfl, hp, Option.some.inj hst⟩
  | fault _ | refused _ => cases h

theorem exec_endState (i : Instr) : ∀ status ∈ endsOf i, endStatus (exec i (endState i status)) = some status := by
  cases i <;> decide +kernel

/-- Settles O35: one way is `exec_endsInTable`; the other way `endState` gives a state for every entry of the table. -/
theorem errorTable : Obligations.ErrorTable := by
  refine ⟨fun i s t _ h => exec_endsInTable h, fun i status hst => ?_,
    fun s hp hc => ⟨_, runCommand_illegal hp hc, rfl, rfl⟩⟩
  obtain ⟨t, hexec, hidle, hstatus⟩ := exists_next_of_endStatus (exec_endState i status hst)
  have hcommand : (endState i status).command = some i := (State.command_eq _).trans (decodeByte_opcodeOf i)
  exact ⟨_, t, inv_endState i status, rfl, hcommand, hexec, hidle, hstatus⟩

end Sys2Proof.Machine
end

section
/-! PROOF. Reset (spec/70_reset_and_hazards.md R270 to R272): the registers it leaves and the answers it discards; and
waiting for ever (R292), which reset ends. -/

namespace Sys2Proof.Machine

/-! ### A step that waits (R86) -/

/-- `s` stands in a step that waits on a collaborator, and that collaborator does not answer (R86). -/
def State.waits (s : State) : Prop :=
  (s.phase = .block ∧ s.cipher.live = false) ∨ (s.phase = .rand ∧ s.rng.live = false)

theorem State.waits.phase_ne {s : State} (hw : s.waits) : s.phase ≠ .idle ∧ s.phase ≠ .check := by
  rcases hw with ⟨hp, -⟩ | ⟨hp, -⟩ <;> simp [hp]

@[simp] theorem State.sendOnce_phase (r : PortRequest) (s : State) : (s.sendOnce r).phase = s.phase := by
  unfold State.sendOnce
  split <;> rfl

theorem State.waits.sendOnce {s : State} (hw : s.waits) (r : PortRequest) : (s.sendOnce r).waits := by
  obtain ⟨hcipher, hrng, -⟩ := s.sendOnce_cipher r
  rwa [State.waits, State.sendOnce_phase, hcipher, hrng]

/-- In a phase behind the check step a legal command is latched, and the registers agree with the phase for it. -/
theorem State.Inv.command_of_running {s : State} (h : s.Inv) (hp : s.phase ≠ .idle ∧ s.phase ≠ .check) :
    ∃ i, s.command = some i ∧ s.phaseOk i := by
  cases hc : s.command with
  | some i => exact ⟨i, rfl, h.phaseOk_of_command hc⟩
  | none =>
    have hq := h.sequencer
    rw [hc] at hq
    exact absurd hq.1 (not_or.2 hp)

theorem blockRequest_of_isMode {i : Instr} (hm : isMode i = true) (s : State) : ∃ q, blockRequest i s = some q := by
  cases i with
  | ecbEnc | ecbDec | cbcEnc | cbcDec | ctrEnc | ctrDec => exact ⟨_, rfl⟩
  | pad | unpad | group | ungroup | xor => cases hm

/-- With a random source that does not answer, the random step leaves its request on the port and waits (R86, R215). -/
theorem State.seqStep_rand_waits {s : State} {i : Instr} (hd : drawsRandom i = true) (hp : s.phase = .rand)
    (hc : s.command = some i) (hl : s.rng.live = false) :
    s.seqStep = .next (s.sendOnce (.random (prefixLen i))) := by
  have hrng : ∀ r, (s.sendOnce r).rng.live = false := fun r => by rw [(s.sendOnce_cipher r).2.1, hl]
  cases i with
  | cbcEnc | ctrEnc => simp [State.seqStep, hp, hc, randomStep, hrng, prefixLen]
  | pad | unpad | group | ungroup | xor | ecbEnc | ecbDec | cbcDec | ctrDec => cases hd

/-- A step that waits does no more than put its request on the port, once. -/
theorem State.Inv.seqStep_waits {s : State} (h : s.Inv) (hw : s.waits) : ∃ r, s.seqStep = .next (s.sendOnce r) := by
  obtain ⟨i, hc, hq⟩ := h.command_of_running hw.phase_ne
  rcases hw with ⟨hp, hl⟩ | ⟨hp, hl⟩ <;> simp only [State.phaseOk, hp] at hq
  · obtain ⟨hm, -, -, -, hidx, -⟩ := hq
    obtain ⟨⟨d, op, x⟩, hr⟩ := blockRequest_of_isMode hm s
    exact ⟨_, State.seqStep_block_waits hp hc hr hidx hl⟩
  · exact ⟨_, State.seqStep_rand_waits hq.1 hp hc hl⟩

/-- However many steps are taken, the state reached waits in the same phase. -/
theorem State.Inv.seqRun_waits {s : State} (h : s.Inv) (hw : s.waits) (k : Nat) :
    ∃ t, s.seqRun k = .next t ∧ t.Inv ∧ t.phase = s.phase := by
  induction k generalizing s with
  | zero => exact ⟨s, rfl, h, rfl⟩
  | succ k ih =>
    obtain ⟨r, hstep⟩ := h.seqStep_waits hw
    obtain ⟨t, hrun, hinv, hphase⟩ := ih (inv_seqStep h hstep) (hw.sendOnce r)
    exact ⟨t, (State.seqRun_succ k hstep).trans hrun, hinv, hphase.trans (State.sendOnce_phase r s)⟩

/-- `WAIT` has no end where the MFL, left alone, is still running. -/
theorem waitEnd_of_busy {s t : State} (hrun : s.runCommand = .next t) (hb : t.busy = true) : s.waitEnd = none := by
  simp [State.waitEnd, hrun, hb]

/-- Settles O33: every state reached waits in the same phase (`State.Inv.seqRun_waits`), so it is running, and the MFL left
alone is no nearer an end. -/
theorem waitsForEver : Obligations.WaitsForEver := by
  intro s h (hw : s.waits)
  obtain ⟨hidle, hcheck⟩ := hw.phase_ne
  refine ⟨fun k => ?_, ?_, rfl, rfl⟩
  · obtain ⟨t, hrun, hinv, hphase⟩ := h.seqRun_waits hw k
    have hne : t.phase ≠ .idle := hphase ▸ hidle
    exact ⟨t, hrun, hinv.status_running hne, hphase, hostRead_busy (hinv.busy_iff.2 hne) .reg 0x02⟩
  · have hrunning : s.phase = .rand ∨ s.phase = .block ∨ s.phase = .final := by
      cases hp : s.phase <;> simp_all
    obtain ⟨t, hrun, hinv, hphase⟩ := h.seqRun_waits hw (s.n.toNat - s.idx.toNat + 2)
    exact waitEnd_of_busy ((runCommand_running hrunning).trans hrun) (hinv.busy_iff.2 (hphase ▸ hidle))

/-! ### The fields of `STATUS` and `CTRL` after reset (R25, R26, R50) -/

theorem State.resetInput_busy (s : State) : s.resetInput.busy = false := show (0x00 : Byte).getLsbD 0 = false by decide

theorem State.resetInput_done (s : State) : s.resetInput.done = false := show (0x00 : Byte).getLsbD 1 = false by decide

theorem State.resetInput_strict (s : State) : s.resetInput.strict = true :=
  show Config.ctrlReset.getLsbD 0 = true by decide

/-! ### The random source across a reset (R271, log 13) -/

/-- The answer to an outstanding random request is the one reset discards. -/
theorem State.resetInput_rng_of_random {s : State} {n : Nat} (ha : s.asked = some (.random n)) :
    s.resetInput.rng = s.rng.advance :=
  if_pos (by rw [State.awaitsRandom, ha])

theorem State.resetInput_rng_of_not_awaits {s : State} (ha : s.awaitsRandom = false) : s.resetInput.rng = s.rng :=
  if_neg (by simp [ha])

/-- The random step belongs to a command that draws, and with its request put on the port, where it was not yet, that
request is the one outstanding. -/
theorem State.Inv.asked_sendOnce_random {s : State} {i : Instr} (h : s.Inv) (hp : s.phase = .rand)
    (hc : s.command = some i) :
    drawsRandom i = true ∧ (s.sendOnce (.random (prefixLen i))).asked = some (.random (prefixLen i)) := by
  have hq := h.phaseOk_of_command hc
  simp only [State.phaseOk, hp] at hq
  obtain ⟨hd, -, -, -, -, -, hnone | hsome⟩ := hq
  · exact ⟨hd, by rw [State.sendOnce_unasked hnone, State.asked_send]⟩
  · exact ⟨hd, by rw [State.sendOnce_asked hsome, hsome]⟩

/-- Settles O50: which random answer is discarded goes by the outstanding request, and what is owed by whether it has been
taken (`State.owed`). -/
theorem resetDiscardsTheLateAnswer : Obligations.ResetDiscardsTheLateAnswer := by
  intro s i h hc
  refine ⟨fun hp hl => ?_, fun _ => State.resetInput_rng_of_random, fun op b k ha => ?_, fun ho => ⟨?_, State.owed_none ho⟩,
    fun _ => State.owed_untaken, fun _ => State.owed_random, fun _ _ _ => State.owed_cipher, rfl, rfl,
    s.resetInput_done⟩
  · obtain ⟨hd, hasked⟩ := h.asked_sendOnce_random hp hc
    refine ⟨_, State.seqStep_rand_waits hd hp hc hl, ?_⟩
    rw [State.resetInput_rng_of_random hasked, (s.sendOnce_cipher _).2.1]
  · exact State.resetInput_rng_of_not_awaits (by rw [State.awaitsRandom, ha])
  · exact State.resetInput_rng_of_not_awaits (by rw [State.awaitsRandom, State.asked_eq_none.2 ho])

/-! ### The registers after reset (R50, R270, R272) -/

/-- Settles O49: the move at the head of the agenda is the reset input, which writes each register by name. -/
theorem resetGivesTheTable : Obligations.ResetGivesTheTable := by
  intro s rest ha
  exact ⟨_, step_of_agenda_cons ha, rfl, rfl, rfl, rfl, rfl, rfl, rfl, rfl, rfl, rfl, rfl, rfl, rfl, rfl, rfl, rfl, rfl,
    rfl, rfl, State.resetInput_busy _, State.resetInput_done _, State.resetInput_strict _, rfl⟩

end Sys2Proof.Machine
end
